-- ==== Sys2Proof/Word.lean ====
section
/-! DEFINITION. The word types of CTMMU and nothing else. -/

namespace Sys2Proof

/-- A word of physical memory, a TLB frame, an address operand or a logical address: 32 bits
(00_scope.md R8, 10_state.md R22, R23). -/
abbrev Word := BitVec 32

/-- The 19-bit key segment‖page (40_va_decomposer.md R110). -/
abbrev Key := BitVec 19

/-- A command word, bit 63 most significant (30_encoding.md R80). -/
abbrev CommandWord := BitVec 64

/-- A response word (30_encoding.md R88). -/
abbrev ResponseWord := BitVec 64

end Sys2Proof
end

