-- ==== Sys2Proof/Config.lean ====
section
/-! DEFINITION. The parameters: what the document fixes (00_scope.md R5) and what the builder of the
block fixes (R6, R7). The spec leaves no value open, so there is no free value here. -/

namespace Sys2Proof

/-- FRAME_SIZE, words per frame (00_scope.md R5). -/
abbrev frameSize : Nat := 512

/-- N_FRAMES (00_scope.md R5). -/
abbrev nFrames : Nat := 1024

/-- PM_SIZE = FRAME_SIZE × N_FRAMES = 524288 words (00_scope.md R5, 10_state.md R22). -/
abbrev pmSize : Nat := 524288

/-- BM_WIDTH, cells per bitmap row (00_scope.md R5). -/
abbrev bmWidth : Nat := 32

/-- The two parameters fixed when the block is built, with the spec's defaults (00_scope.md R6, R7).
No step changes them: they are the lengths of the bitmap and of the TLB (log 2). -/
structure Config where
  /-- BM_ROWS. -/
  bmRows : Nat := 32
  /-- TLB_CAP. -/
  tlbCap : Nat := 4
deriving DecidableEq, Repr

/-- The values the spec admits: 1 ≤ BM_ROWS ≤ 65536 and 1 ≤ TLB_CAP ≤ 256 (00_scope.md R6, R7;
92_eei_decisions.md D2, D12). -/
abbrev Config.wf (c : Config) : Prop :=
  1 ≤ c.bmRows ∧ c.bmRows ≤ 65536 ∧ 1 ≤ c.tlbCap ∧ c.tlbCap ≤ 256

end Sys2Proof
end

