-- ==== Sys2Proof/Syntax.lean ====
section
/-! DEFINITION. The 15 commands of 30_encoding.md R92 (spec/opcode_table.json), one constructor a row,
each operand with exactly the width of its field (R84 to R87). Operand order is the assembler's (R95). -/

namespace Sys2Proof

/-- A legal command. -/
inductive Instr where
  /-- VA_DECODE a (40_va_decomposer.md R112). -/
  | vaDecode (a : Word)
  /-- BM_FFZ (41_bitmap_scanner.md R121). -/
  | bmFfz
  /-- BM_FCZ (41_bitmap_scanner.md R123). -/
  | bmFcz
  /-- BM_SET row, col, val (41_bitmap_scanner.md R126). -/
  | bmSet (row : BitVec 16) (col : BitVec 8) (val : Bool)
  /-- BM_CLEAR (41_bitmap_scanner.md R129). -/
  | bmClear
  /-- TLB_HITIDX key (42_tlb.md R141). -/
  | tlbHitIdx (key : Key)
  /-- TLB_DOHIT key, idx (42_tlb.md R143). -/
  | tlbDoHit (key : Key) (idx : BitVec 8)
  /-- TLB_DOMISS key, frame (42_tlb.md R146). -/
  | tlbDoMiss (key : Key) (frame : Word)
  /-- TLB_RESET (42_tlb.md R149). -/
  | tlbReset
  /-- VM_CREATE_PT seg, addr (43_translation_sequencer.md R160). -/
  | vmCreatePt (seg : BitVec 9) (addr : Word)
  /-- VM_CREATE_PAGE page, seg, addr (43_translation_sequencer.md R161). -/
  | vmCreatePage (page : BitVec 10) (seg : BitVec 9) (addr : Word)
  /-- VM_GET_PT seg, page (43_translation_sequencer.md R162). -/
  | vmGetPt (seg : BitVec 9) (page : BitVec 10)
  /-- VM_READ a, VM_READ.T a: `t` is the T bit (43_translation_sequencer.md R163). -/
  | vmRead (a : Word) (t : Bool)
  /-- VM_WRITE a, VM_WRITE.T a: `t` is the T bit (43_translation_sequencer.md R164). -/
  | vmWrite (a : Word) (t : Bool)
  /-- VM_CLEAR (43_translation_sequencer.md R175). -/
  | vmClear
deriving DecidableEq, Repr

end Sys2Proof
end

