-- ==== Sys2Proof/WellFormed.lean ====
section
/-! DEFINITION. Which command words are legal encodings (30_encoding.md R92, R93), said by the opcode
table's own masks and patterns, independently of the decoder. A term of `Instr` needs no check of its
own: each operand's type is its field, so an out-of-width operand cannot be written (R86, R87). -/

namespace Sys2Proof

/-- One row of the opcode table: a word `CW` is the command when `CW AND mask = pattern`
(30_encoding.md R92). -/
structure OpcodeRow where
  /-- The table's spelling. -/
  mnemonic : String
  /-- The column `match`. -/
  pattern : CommandWord
  /-- The column `mask`. -/
  mask : CommandWord
deriving DecidableEq, Repr

/-- The row's test on a word (30_encoding.md R92). -/
abbrev OpcodeRow.admits (r : OpcodeRow) (cw : CommandWord) : Prop := cw &&& r.mask = r.pattern

/-- The row of the opcode table that an instruction is (30_encoding.md R92). -/
def Instr.row : Instr → OpcodeRow
  | .vaDecode _         => ⟨"VA_DECODE",      0x0100000000000000#64, 0xFFFFFFFF00000000#64⟩
  | .bmFfz              => ⟨"BM_FFZ",         0x1000000000000000#64, 0xFFFFFFFFFFFFFFFF#64⟩
  | .bmFcz              => ⟨"BM_FCZ",         0x1100000000000000#64, 0xFFFFFFFFFFFFFFFF#64⟩
  | .bmSet _ _ _        => ⟨"BM_SET",         0x1200000000000000#64, 0xFFFFFFFF000000FE#64⟩
  | .bmClear            => ⟨"BM_CLEAR",       0x1300000000000000#64, 0xFFFFFFFFFFFFFFFF#64⟩
  | .tlbHitIdx _        => ⟨"TLB_HITIDX",     0x2000000000000000#64, 0xFFF80000FFFFFFFF#64⟩
  | .tlbDoHit _ _       => ⟨"TLB_DOHIT",      0x2100000000000000#64, 0xFFF80000FFFFFF00#64⟩
  | .tlbDoMiss _ _      => ⟨"TLB_DOMISS",     0x2200000000000000#64, 0xFFF8000000000000#64⟩
  | .tlbReset           => ⟨"TLB_RESET",      0x2300000000000000#64, 0xFFFFFFFFFFFFFFFF#64⟩
  | .vmCreatePt _ _     => ⟨"VM_CREATE_PT",   0x3000000000000000#64, 0xFFF803FF00000000#64⟩
  | .vmCreatePage _ _ _ => ⟨"VM_CREATE_PAGE", 0x3100000000000000#64, 0xFFF8000000000000#64⟩
  | .vmGetPt _ _        => ⟨"VM_GET_PT",      0x3200000000000000#64, 0xFFF80000FFFFFFFF#64⟩
  | .vmRead _ _         => ⟨"VM_READ",        0x3300000000000000#64, 0xFFFFFFFE00000000#64⟩
  | .vmWrite _ _        => ⟨"VM_WRITE",       0x3300000200000000#64, 0xFFFFFFFE00000000#64⟩
  | .vmClear            => ⟨"VM_CLEAR",       0x3500000000000000#64, 0xFFFFFFFFFFFFFFFF#64⟩

/-- The whole opcode table, in its order: the row of one instruction of each constructor. -/
def opcodeTable : List OpcodeRow :=
  [.vaDecode 0#32, .bmFfz, .bmFcz, .bmSet 0#16 0#8 false, .bmClear, .tlbHitIdx 0#19, .tlbDoHit 0#19 0#8,
    .tlbDoMiss 0#19 0#32, .tlbReset, .vmCreatePt 0#9 0#32, .vmCreatePage 0#10 0#9 0#32, .vmGetPt 0#9 0#10,
    .vmRead 0#32 false, .vmWrite 0#32 false, .vmClear].map Instr.row

/-- A word is a legal encoding when some row of the table admits it (30_encoding.md R93). -/
abbrev wellFormedWord (cw : CommandWord) : Prop := ∃ r ∈ opcodeTable, r.admits cw

end Sys2Proof
end

