-- ==== Sys2Proof/Decode.lean ====
section
/-! DEFINITION. The decoder (30_encoding.md R80 to R87, R92, R93), total on every 64-bit word and refusing
by name, and after it the encoder, written from the same formats. -/

namespace Sys2Proof

/-- Why a word is no command (30_encoding.md R93). Both are answered with STATUS = ILLEGAL. -/
inductive Illegal where
  /-- `OPC` is not in the table. -/
  | unknownOpcode
  /-- A listed `OPC` with a non-zero bit in a field its format requires to be 0. -/
  | reservedBits
deriving DecidableEq, Repr

/-- What a 64-bit word decodes to. -/
inductive Decoded where
  | command (i : Instr)
  | illegal (why : Illegal)
deriving DecidableEq, Repr

/-- The instruction, where there is one. -/
def Decoded.toOption : Decoded → Option Instr
  | .command i => some i
  | .illegal _ => none

/-! The fields of a command word (30_encoding.md R80, R84, R85, R86). -/

/-- `OPC = CW[63:56]`. -/
def opcField (cw : CommandWord) : BitVec 8 := cw.extractLsb' 56 8
/-- `A = CW[31:0]`, format V; `DATA` (`FRAME`, `ADDR`) of format K. -/
def dataField (cw : CommandWord) : Word := cw.extractLsb' 0 32
/-- `T = CW[32]`, format V. -/
def tField (cw : CommandWord) : Bool := cw.getLsbD 32
/-- `W = CW[33]`, format V. -/
def wField (cw : CommandWord) : Bool := cw.getLsbD 33
/-- `ROW = CW[31:16]`, format B. -/
def rowField (cw : CommandWord) : BitVec 16 := cw.extractLsb' 16 16
/-- `COL = CW[15:8]`, format B. -/
def colField (cw : CommandWord) : BitVec 8 := cw.extractLsb' 8 8
/-- `VAL = CW[0]`, format B. -/
def valField (cw : CommandWord) : Bool := cw.getLsbD 0
/-- `KEY = CW[50:32]`, format K. -/
def keyField (cw : CommandWord) : Key := cw.extractLsb' 32 19
/-- `SEG = CW[50:42]`, format K. -/
def segField (cw : CommandWord) : BitVec 9 := cw.extractLsb' 42 9
/-- `PAGE = CW[41:32]`, format K. -/
def pageField (cw : CommandWord) : BitVec 10 := cw.extractLsb' 32 10
/-- `IDX = CW[7:0]`, format K. -/
def idxField (cw : CommandWord) : BitVec 8 := cw.extractLsb' 0 8

/-- The bits `CW[lo+n-1:lo]` are all 0. -/
def zeroBits (cw : CommandWord) (lo n : Nat) : Bool := cw.extractLsb' lo n == 0#n

/-- The instruction if the must-be-zero bits are 0, else a refusal by name (30_encoding.md R93). -/
def whenZero (ok : Bool) (i : Instr) : Decoded :=
  if ok then .command i else .illegal .reservedBits

/-- The decoder: `OPC` picks the row and its format, the format's zero fields are checked, the operands
are taken as they stand (30_encoding.md R82 to R87, R92, R93). -/
def decode (cw : CommandWord) : Decoded :=
  match (opcField cw).toNat with
  | 0x01 => whenZero (zeroBits cw 32 24) (.vaDecode (dataField cw))
  | 0x10 => whenZero (zeroBits cw 0 56) .bmFfz
  | 0x11 => whenZero (zeroBits cw 0 56) .bmFcz
  | 0x12 => whenZero (zeroBits cw 32 24 && zeroBits cw 1 7) (.bmSet (rowField cw) (colField cw) (valField cw))
  | 0x13 => whenZero (zeroBits cw 0 56) .bmClear
  | 0x20 => whenZero (zeroBits cw 51 5 && zeroBits cw 0 32) (.tlbHitIdx (keyField cw))
  | 0x21 => whenZero (zeroBits cw 51 5 && zeroBits cw 8 24) (.tlbDoHit (keyField cw) (idxField cw))
  | 0x22 => whenZero (zeroBits cw 51 5) (.tlbDoMiss (keyField cw) (dataField cw))
  | 0x23 => whenZero (zeroBits cw 0 56) .tlbReset
  | 0x30 => whenZero (zeroBits cw 51 5 && zeroBits cw 32 10) (.vmCreatePt (segField cw) (dataField cw))
  | 0x31 => whenZero (zeroBits cw 51 5) (.vmCreatePage (pageField cw) (segField cw) (dataField cw))
  | 0x32 => whenZero (zeroBits cw 51 5 && zeroBits cw 0 32) (.vmGetPt (segField cw) (pageField cw))
  | 0x33 =>
    whenZero (zeroBits cw 34 22)
      (if wField cw then .vmWrite (dataField cw) (tField cw) else .vmRead (dataField cw) (tField cw))
  | 0x35 => whenZero (zeroBits cw 0 56) .vmClear
  | _ => .illegal .unknownOpcode

/-! The encoder, by format (30_encoding.md R81, R83 to R86). -/

/-- Format Z: no operand. -/
def formatZ (opc : BitVec 8) : CommandWord := opc ++ 0#56

/-- Format V: `CW[55:34]` = 0, W, T, A. -/
def formatV (opc : BitVec 8) (w t : Bool) (a : Word) : CommandWord :=
  opc ++ 0#22 ++ BitVec.ofBool w ++ BitVec.ofBool t ++ a

/-- Format B: `CW[55:32]` = 0, ROW, COL, `CW[7:1]` = 0, VAL. -/
def formatB (opc : BitVec 8) (row : BitVec 16) (col : BitVec 8) (val : Bool) : CommandWord :=
  opc ++ 0#24 ++ row ++ col ++ 0#7 ++ BitVec.ofBool val

/-- Format K: `CW[55:51]` = 0, KEY, DATA. -/
def formatK (opc : BitVec 8) (key : Key) (data : Word) : CommandWord :=
  opc ++ 0#5 ++ key ++ data

/-- The command word of an instruction (30_encoding.md R92, R95). In format K the key is SEG‖PAGE (R81). -/
def encode : Instr → CommandWord
  | .vaDecode a                  => formatV 0x01#8 false false a
  | .bmFfz                       => formatZ 0x10#8
  | .bmFcz                       => formatZ 0x11#8
  | .bmSet row col val           => formatB 0x12#8 row col val
  | .bmClear                     => formatZ 0x13#8
  | .tlbHitIdx key               => formatK 0x20#8 key 0#32
  | .tlbDoHit key idx            => formatK 0x21#8 key (0#24 ++ idx)
  | .tlbDoMiss key frame         => formatK 0x22#8 key frame
  | .tlbReset                    => formatZ 0x23#8
  | .vmCreatePt seg addr         => formatK 0x30#8 (seg ++ 0#10) addr
  | .vmCreatePage page seg addr  => formatK 0x31#8 (seg ++ page) addr
  | .vmGetPt seg page            => formatK 0x32#8 (seg ++ page) 0#32
  | .vmRead a t                  => formatV 0x33#8 false t a
  | .vmWrite a t                 => formatV 0x33#8 true t a
  | .vmClear                     => formatZ 0x35#8

/-- The instruction the decoder reads from the table's word `w` of `nbits` bits. A command is one 64-bit
word handed over whole (30_encoding.md R80), so there is nothing to lay out; bits above `nbits` are 0. -/
def decodeTableWord (nbits w : Nat) : Option Instr :=
  (decode (BitVec.ofNat 64 (w % 2 ^ nbits))).toOption

end Sys2Proof
end

