-- ==== Sys2Proof/Machine/Flags.lean ====
section
/-! DEFINITION. The block's flags: status codes (30_encoding.md R90), the TLB marker (R91), the codes of the
fatal latch (10_state.md R39), and the response word they are reported in (R88). -/

namespace Sys2Proof.Machine

/-- STATUS (30_encoding.md R90). -/
inductive Status where
  | ok | pf | err | absent | fAlloc | fBmRange | fPmRange | illegal | badHit | halted
deriving DecidableEq, Repr

/-- The number of a status (30_encoding.md R90). Codes 0x4 to 0x7, 0xB and 0xE are never produced. -/
def Status.code : Status → BitVec 4
  | .ok => 0x0#4
  | .pf => 0x1#4
  | .err => 0x2#4
  | .absent => 0x3#4
  | .fAlloc => 0x8#4
  | .fBmRange => 0x9#4
  | .fPmRange => 0xA#4
  | .illegal => 0xC#4
  | .badHit => 0xD#4
  | .halted => 0xF#4

/-- TLBM (30_encoding.md R91): no marker, the document's `m`, the document's `h`. -/
inductive Marker where
  | none | miss | hit
deriving DecidableEq, Repr

/-- The number of a marker (30_encoding.md R91). 3 is never produced. -/
def Marker.code : Marker → BitVec 2
  | .none => 0#2
  | .miss => 1#2
  | .hit => 2#2

/-- The fatal failures (60_exceptions.md R193 to R195). -/
inductive FatalCode where
  /-- F_ALLOC, no free frame or no free adjacent pair (R193). -/
  | alloc
  /-- F_BMRANGE, bitmap position out of range (R194). -/
  | bmRange
  /-- F_PMRANGE, physical-memory index out of range (R195). -/
  | pmRange
deriving DecidableEq, Repr

/-- The status a fatal failure is reported with (30_encoding.md R90). -/
def FatalCode.status : FatalCode → Status
  | .alloc => .fAlloc
  | .bmRange => .fBmRange
  | .pmRange => .fPmRange

/-- What FCODE records: the fatal status code (10_state.md R39). -/
def FatalCode.code (c : FatalCode) : BitVec 4 := c.status.code

/-- The fields of a response. -/
structure Reply where
  status : Status
  marker : Marker := .none
  data : Word := 0#32
deriving DecidableEq, Repr

/-- The response word: STATUS in [63:60], TLBM in [59:58], 0 in [57:32], DATA in [31:0]
(30_encoding.md R88). -/
def Reply.word (r : Reply) : ResponseWord := r.status.code ++ r.marker.code ++ 0#26 ++ r.data

end Sys2Proof.Machine
end

