-- ==== Sys2Proof/Machine/Operands.lean ====
section
/-! DEFINITION. Every operand form and operand computation: the slices of a logical address
(40_va_decomposer.md R110), signedness (00_scope.md R10), frame numbers and bases (20_memory.md R57),
bitmap positions (00_scope.md R13). -/

namespace Sys2Proof.Machine

/-- segment `s = A[27:19]` (40_va_decomposer.md R110). -/
def segmentOf (a : Word) : BitVec 9 := a.extractLsb' 19 9

/-- page `p = A[18:9]`. -/
def pageOf (a : Word) : BitVec 10 := a.extractLsb' 9 10

/-- offset `w = A[8:0]`. -/
def offsetOf (a : Word) : BitVec 9 := a.extractLsb' 0 9

/-- key `k = A[27:9]`. -/
def keyOf (a : Word) : Key := a.extractLsb' 9 19

/-- The segment of a key, its upper 9 bits (`k = s ‖ p`). -/
def keySegment (k : Key) : BitVec 9 := k.extractLsb' 10 9

/-- The page of a key, its lower 10 bits. -/
def keyPage (k : Key) : BitVec 10 := k.extractLsb' 0 10

/-- `zext(A[27:0])`: the address without its four discarded bits (R111, R112). -/
def undiscarded (a : Word) : Word := (a.extractLsb' 0 28).setWidth 32

/-- `s32(v)`, the word read as signed (00_scope.md R10). -/
def s32 (v : Word) : Int := v.toInt

/-- The physical-memory index `s32(base) + p`, formed as integers without wrap-around
(00_scope.md R11 d, 20_memory.md R60). -/
def tableIndex (base : Word) (page : BitVec 10) : Int := s32 base + page.toNat

/-- `base + w`, the sum modulo 2^32 (00_scope.md R11 c). -/
def addOffset (base : Word) (off : BitVec 9) : Word := base + off.setWidth 32

/-- The physical base `512 × f` of frame `f` (20_memory.md R57). -/
def frameBase (f : Nat) : Word := BitVec.ofNat 32 (frameSize * f)

/-- The frame `ADDR div 512` that holds the word at a non-negative address (20_memory.md R57). -/
def frameOf (addr : Word) : Nat := addr.toNat / frameSize

/-- A raster index as BM_FFZ and BM_FCZ report it: `DATA[31:16]` = row, `DATA[15:8]` = col
(30_encoding.md R89). -/
def positionData (n : Nat) : Word :=
  BitVec.ofNat 16 (n / bmWidth) ++ BitVec.ofNat 8 (n % bmWidth) ++ 0#8

end Sys2Proof.Machine
end

