-- ==== Sys2Proof/Machine/Bitmap.lean ====
section
/-! DEFINITION. The bitmap BM and the operations of the free-frame scanner on it (10_state.md R26 to R29,
41_bitmap_scanner.md). Cells are named by the raster index n = 32 × row + col (00_scope.md R13). -/

namespace Sys2Proof.Machine

/-- BM_ROWS rows of 32 cells; column c is bit c of the row (10_state.md R26, R28). -/
abbrev Bitmap := List (BitVec 32)

/-- BM_BITS = 32 × BM_ROWS (00_scope.md R6). -/
def Bitmap.bits (b : Bitmap) : Nat := bmWidth * b.length

/-- `BMbit(n)` (10_state.md R26). Cell 0 is hardwired to 1 (R27). -/
def Bitmap.cell (b : Bitmap) (n : Nat) : Bool :=
  n == 0 || (b.getD (n / bmWidth) 0#32).getLsbD (n % bmWidth)

/-- The bitmap with cell `n` written; cell 0 is not writable (10_state.md R27). -/
def Bitmap.put (b : Bitmap) (n : Nat) (v : Bool) : Bitmap :=
  if n = 0 then b
  else
    b.modify (n / bmWidth) fun row =>
      if v then row ||| BitVec.twoPow 32 (n % bmWidth) else row &&& ~~~(BitVec.twoPow 32 (n % bmWidth))

/-- The reset value for a number of rows: cell 0 is 1, every other 0 (10_state.md R29). -/
def Bitmap.fresh (rows : Nat) : Bitmap :=
  (List.range rows).map fun r => if r = 0 then 1#32 else 0#32

/-- BitMap `clear()`: the reset value (41_bitmap_scanner.md R129). -/
def Bitmap.clear (b : Bitmap) : Bitmap := Bitmap.fresh b.length

/-- `find_first_zero()`: the first 0 among the indices 1 .. BM_BITS − 1, or none
(41_bitmap_scanner.md R121). -/
def Bitmap.findFirstZero (b : Bitmap) : Option Nat :=
  (List.range' 1 (b.bits - 1)).find? fun n => !b.cell n

/-- `find_consecutive_zeros()`: the first n among 1 .. BM_BITS − 2 with cells n and n + 1 both 0, or none
(41_bitmap_scanner.md R123, R125). -/
def Bitmap.findConsecutiveZeros (b : Bitmap) : Option Nat :=
  (List.range' 1 (b.bits - 2)).find? fun n => !b.cell n && !b.cell (n + 1)

/-- The scan procedure the document describes (41_bitmap_scanner.md R124), from position `n` with at most
`fuel` moves: past a 1 by one cell, past a 0 followed by a 1 by two. -/
def Bitmap.pairScan (b : Bitmap) : Nat → Nat → Option Nat
  | 0, _ => none
  | fuel + 1, n =>
    if b.bits ≤ n + 1 then none
    else if b.cell n then Bitmap.pairScan b fuel (n + 1)
    else if b.cell (n + 1) then Bitmap.pairScan b fuel (n + 2)
    else some n

/-- `set(row, bit, value)`: none when the position is out of range (41_bitmap_scanner.md R126). -/
def Bitmap.setAt (b : Bitmap) (row col : Nat) (v : Bool) : Option Bitmap :=
  if b.length ≤ row ∨ bmWidth ≤ col then none else some (b.put (bmWidth * row + col) v)

end Sys2Proof.Machine
end

