-- ==== Sys2Proof/Machine/Memory.lean ====
section
/-! DEFINITION. Physical memory PM: 524288 words of 32 bits (10_state.md R22). The word is the smallest unit
and no byte order exists (20_memory.md R50), so a cell is an (index, word) pair (log 1). -/

namespace Sys2Proof.Machine

/-- The words of PM that differ from `unlistedWord`, by rising index. -/
abbrev Memory := List (Nat × Word)

/-- What a word that is not listed reads as: every word of PM is 0 after reset and after VM_CLEAR
(10_state.md R22, 70_reset_and_hazards.md R221). -/
def unlistedWord : Word := 0#32

/-- The canonical form: indices strictly rising and inside PM, no listed word equal to `unlistedWord`. -/
abbrev Memory.wf (m : Memory) : Prop :=
  m.Pairwise (fun x y => x.1 < y.1) ∧ ∀ c ∈ m, c.1 < pmSize ∧ c.2 ≠ unlistedWord

/-- The word at index `i`. -/
def Memory.read : Memory → Nat → Word
  | [], _ => unlistedWord
  | (j, w) :: rest, i => if i = j then w else Memory.read rest i

/-- The cell `(i, v)` put before the first cell of a greater index. -/
def Memory.insertCell : Memory → Nat → Word → Memory
  | [], i, v => [(i, v)]
  | (j, w) :: rest, i, v =>
    if i < j then (i, v) :: (j, w) :: rest else (j, w) :: Memory.insertCell rest i v

/-- The memory without a cell for index `i`. -/
def Memory.dropCell (m : Memory) (i : Nat) : Memory := m.filter fun c => c.1 ≠ i

/-- The memory with the word at index `i` replaced by `v`; writing `unlistedWord` leaves no cell. -/
def Memory.write (m : Memory) (i : Nat) (v : Word) : Memory :=
  if v = unlistedWord then m.dropCell i else (m.dropCell i).insertCell i v

/-- PM with every word 0 (43_translation_sequencer.md R175, 70_reset_and_hazards.md R220). -/
def Memory.cleared : Memory := []

end Sys2Proof.Machine
end

