-- ==== Sys2Proof/Machine/Tlb.lean ====
section
/-! DEFINITION. The TLB's entry file and the operations on it (10_state.md R31 to R36, 42_tlb.md). TLB_CAP is
the number of entries. -/

namespace Sys2Proof.Machine

/-- One entry (10_state.md R31). -/
structure TlbEntry where
  /-- 0 is the document's `key = -1`, an unused slot (10_state.md R32). -/
  valid : Bool
  /-- segment‖page. -/
  key : Key
  /-- The page-table word cached for the key (10_state.md R34). -/
  frame : Word
  /-- The recency rank, 0 the least recently used (10_state.md R33). -/
  lru : Nat
deriving DecidableEq, Repr

/-- Entries 0 to TLB_CAP − 1. -/
abbrev Tlb := List TlbEntry

/-- The reset value for a capacity: all unused, `lru = i` (10_state.md R35). -/
def Tlb.fresh (cap : Nat) : Tlb :=
  (List.range cap).map fun i => ⟨false, 0#19, 0#32, i⟩

/-- The reconstruction of the TLB (42_tlb.md R149). -/
def Tlb.reset (t : Tlb) : Tlb := Tlb.fresh t.length

/-- The entry is valid and holds the key (42_tlb.md R141). -/
def TlbEntry.holds (e : TlbEntry) (k : Key) : Bool := e.valid && e.key == k

/-- `hit_index(key)`: the lowest index whose entry holds the key (42_tlb.md R141). -/
def Tlb.hitIndex (t : Tlb) (k : Key) : Option Nat := t.findIdx? fun e => e.holds k

/-- The counters after a hit on an entry whose prior value was `v`: strictly above `v` steps down
(42_tlb.md R143, R145). -/
def TlbEntry.stepDown (v : Nat) (e : TlbEntry) : TlbEntry :=
  if v < e.lru then { e with lru := e.lru - 1 } else e

/-- The entry file after `do_hit` on entry `e` at index `i` (42_tlb.md R143). -/
def Tlb.promote (t : Tlb) (i : Nat) (e : TlbEntry) : Tlb :=
  (t.map (TlbEntry.stepDown e.lru)).set i { e with lru := t.length - 1 }

/-- Exactly one entry holds `lru = 0`, the victim of the next miss (42_tlb.md R146, R150). -/
def Tlb.hasVictim (t : Tlb) : Bool := t.countP (fun e => e.lru == 0) == 1

/-- The entry file after `do_miss`: the entry at `lru = 0` is replaced, every other steps down
(42_tlb.md R146). -/
def Tlb.insert (t : Tlb) (k : Key) (frame : Word) : Tlb :=
  t.map fun e => if e.lru = 0 then ⟨true, k, frame, t.length - 1⟩ else { e with lru := e.lru - 1 }

end Sys2Proof.Machine
end

