-- ==== Sys2Proof/Machine/State.lean ====
section
/-! DEFINITION. The machine's state (10_state.md: S = (PM, BM, TLB, FATAL, FCODE), and the ports of
30_encoding.md R94), its reset value, and the two closed types of reasons a step can stop. -/

namespace Sys2Proof.Machine

/-- What the host presents at the block's inputs (30_encoding.md R94). -/
inductive HostEvent where
  /-- RESET asserted. -/
  | reset
  /-- CMD with CMD_VALID. -/
  | command (cw : CommandWord)
deriving DecidableEq, Repr

/-- The state. BM_ROWS and TLB_CAP are the lengths of `bm` and `tlb` (log 2). -/
structure State where
  /-- PM, physical memory (10_state.md R22). -/
  pm : Memory
  /-- BM, the bitmap (10_state.md R26). -/
  bm : Bitmap
  /-- The TLB entry file (10_state.md R31). -/
  tlb : Tlb
  /-- FATAL, the sticky latch and output pin (10_state.md R38). -/
  fatal : Bool
  /-- FCODE, which fatal failure set the latch, and output pins (10_state.md R39). -/
  fcode : BitVec 4
  /-- RSP with RSP_VALID: the response to the command last taken (30_encoding.md R94). -/
  rsp : Option ResponseWord
  /-- The MODEL's field: what the host has presented and the block not yet taken, oldest first (log 3). -/
  inputs : List HostEvent
deriving DecidableEq, Repr

/-- Reasons a step stops with a fault. Both say that the state is one no run reaches; the spec gives no
effect there. -/
inductive Fault where
  /-- Raised by TLB_DOMISS and by a resolved TLB-path miss when not exactly one entry has `lru = 0`. The spec
  proves there always is exactly one (42_tlb.md R150). Safe: the model stops (log 6). -/
  | noUniqueVictim
  /-- Raised by a walk that would need a fourth pass. The spec says no walk does
  (43_translation_sequencer.md R170). Safe: the model stops (log 7). -/
  | walkOverrun
deriving DecidableEq, Repr

/-- Reasons a step is refused by the MODEL (the block's own refusals ILLEGAL, BADHIT and HALTED are
responses, not these). -/
inductive Refusal where
  /-- An instruction without a meaning; raised by exec's arm of that name only, and by none now. Safe. -/
  | notModelled (mnemonic : String)
deriving DecidableEq, Repr

/-- The state right after reset of a block built with `c` (70_reset_and_hazards.md R220). The response port
holds no response and nothing is presented (log 4, log 3). -/
def State.resetWith (c : Config) : State where
  pm := Memory.cleared
  bm := Bitmap.fresh c.bmRows
  tlb := Tlb.fresh c.tlbCap
  fatal := false
  fcode := 0#4
  rsp := none
  inputs := []

/-- The state right after reset, BM_ROWS = 32 and TLB_CAP = 4 (00_scope.md R6, R7). -/
def State.reset : State := State.resetWith {}

/-- The parameters the block was built with. -/
def State.config (s : State) : Config := ⟨s.bm.length, s.tlb.length⟩

end Sys2Proof.Machine
end

