-- ==== Sys2Proof/Machine/Ops.lean ====
section
/-! DEFINITION. The named operations over the state: the memory primitives, the bitmap and TLB operations the
sequencer uses, entering the fatal state (the block's exception) and leaving it by RESET, and how a command
is run and answered. -/

namespace Sys2Proof.Machine

/-! ## What a piece of pseudocode comes to -/

/-- The outcome of a piece of a command's pseudocode (00_scope.md R12): it ends, or it raises a fatal failure
and keeps the state changes already made (60_exceptions.md R203, R204), with the marker to report
(30_encoding.md R91), or it stops the model. -/
inductive Run (α : Type) where
  | ok (a : α) (s : State)
  | fatal (c : FatalCode) (m : Marker) (s : State)
  | fault (f : Fault)
deriving Repr

/-- Sequencing: the first event met ends the command (60_exceptions.md R201). -/
def Run.andThen {α β : Type} (r : Run α) (k : α → State → Run β) : Run β :=
  match r with
  | .ok a s => k a s
  | .fatal c m s => .fatal c m s
  | .fault f => .fault f

/-- A fatal failure raised inside reports this marker (30_encoding.md R91). -/
def Run.marked {α : Type} (mk : Marker) (r : Run α) : Run α :=
  match r with
  | .ok a s => .ok a s
  | .fatal c _ s => .fatal c mk s
  | .fault f => .fault f

/-- `raise F_...`, with no marker (00_scope.md R12). -/
def raise {α : Type} (c : FatalCode) (s : State) : Run α := .fatal c .none s

/-! ## Physical memory (20_memory.md R59) -/

/-- The range check of R59. -/
def inPm (i : Int) : Bool := decide (0 ≤ i) && decide (i < pmSize)

/-- `MemRead(i, 1)`. -/
def memRead (i : Int) (s : State) : Run Word :=
  if inPm i then .ok (s.pm.read i.toNat) s else raise .pmRange s

/-- `MemWrite(i, 1, v)`. -/
def memWrite (i : Int) (v : Word) (s : State) : Run Unit :=
  if inPm i then .ok () { s with pm := s.pm.write i.toNat v } else raise .pmRange s

/-! ## The bitmap (41_bitmap_scanner.md) -/

/-- The `set` of R126. -/
def bitmapSet (row col : Nat) (v : Bool) (s : State) : Run Unit :=
  match s.bm.setAt row col v with
  | some b => .ok () { s with bm := b }
  | none => raise .bmRange s

/-- `Mark(f)`: the `set` at row `f div 32`, column `f mod 32`, value 1 (R128). -/
def mark (f : Nat) (s : State) : Run Unit := bitmapSet (f / bmWidth) (f % bmWidth) true s

/-- `FindFirstZero()` (R121). -/
def findFirstZero (s : State) : Run Nat :=
  match s.bm.findFirstZero with
  | some n => .ok n s
  | none => raise .alloc s

/-- `FindConsecutiveZeros()` (R123). -/
def findConsecutiveZeros (s : State) : Run Nat :=
  match s.bm.findConsecutiveZeros with
  | some n => .ok n s
  | none => raise .alloc s

/-- BitMap `clear()` (R129). -/
def clearBitmap (s : State) : State := { s with bm := s.bm.clear }

/-! ## The TLB (42_tlb.md) -/

/-- The update of `do_hit` on entry `e` at index `i`, giving the cached frame (R143). -/
def doHit (i : Nat) (e : TlbEntry) (s : State) : Run Word :=
  .ok e.frame { s with tlb := s.tlb.promote i e }

/-- `DoMiss(k, frame)` (R146). -/
def doMiss (k : Key) (frame : Word) (s : State) : Run Unit :=
  if s.tlb.hasVictim then .ok () { s with tlb := s.tlb.insert k frame } else .fault .noUniqueVictim

/-- The reconstruction of the TLB (R149). -/
def resetTlb (s : State) : State := { s with tlb := s.tlb.reset }

/-! ## Answering (30_encoding.md R88, R94) -/

/-- The response given for a command: it stands on the port until the next one. -/
def answer (r : Reply) (s : State) : State := { s with rsp := some r.word }

/-! ## The fatal state: entering it and leaving it -/

/-- TAKING A FATAL FAILURE (60_exceptions.md R203): the latch is set, FCODE records the code, the response
has STATUS = code, DATA = 0 and the marker of 30_encoding.md R91; nothing else is saved. -/
def takeFatal (c : FatalCode) (m : Marker) (s : State) : State :=
  answer { status := c.status, marker := m } { s with fatal := true, fcode := c.code }

/-- LEAVING THE FATAL STATE: the RESET input, the only way (60_exceptions.md R206), puts the whole state at
its reset value (70_reset_and_hazards.md R220). `rest` is what the host presents after it. -/
def takeReset (rest : List HostEvent) (s : State) : State :=
  { State.resetWith s.config with inputs := rest }

/-! ## Running a command (60_exceptions.md R201) -/

/-- A command's own pseudocode carried to its end and answered. -/
def finish (r : Run Reply) : Host.Outcome State Fault Refusal :=
  match r with
  | .ok reply s => .next (answer reply s)
  | .fatal c m s => .next (takeFatal c m s)
  | .fault f => .fault f

/-- A command other than VA_DECODE: refused with HALTED while the latch is set (60_exceptions.md R198,
R205), else run. -/
def command (body : State → Run Reply) (s : State) : Host.Outcome State Fault Refusal :=
  if s.fatal then .next (answer { status := .halted } s) else finish (body s)

/-- An illegal word: answered ILLEGAL, nothing else changes (60_exceptions.md R196). -/
def answerIllegal (s : State) : State := answer { status := .illegal } s

/-- Taking what stands first at the inputs off them. -/
def takeInput (rest : List HostEvent) (s : State) : State := { s with inputs := rest }

/-- A word as the host presents it next, before whatever else it presents. -/
def presentCommand (cw : CommandWord) (s : State) : State :=
  { s with inputs := .command cw :: s.inputs }

/-! ## The output pins (30_encoding.md R94) -/

/-- The block's outputs as the host sees them between commands. -/
structure Pins where
  cmdReady : Bool
  rspValid : Bool
  rsp : Option ResponseWord
  fatal : Bool
  fcode : BitVec 4
deriving DecidableEq, Repr

/-- The outputs of a state. CMD_READY is true: no command is being executed between steps
(70_reset_and_hazards.md R238). -/
def State.pins (s : State) : Pins :=
  { cmdReady := true, rspValid := s.rsp.isSome, rsp := s.rsp, fatal := s.fatal, fcode := s.fcode }

end Sys2Proof.Machine
end

