-- ==== Sys2Proof/Machine/Decomposer.lean ====
section
/-! DEFINITION. The virtual-address decomposer's command (40_va_decomposer.md). -/

namespace Sys2Proof.Machine

/-- VA_DECODE (40_va_decomposer.md R112). It touches no state and is served while the latch is set
(60_exceptions.md R205). -/
def execVaDecode (a : Word) (s : State) : Host.Outcome State Fault Refusal :=
  finish (.ok { status := .ok, data := undiscarded a } s)

end Sys2Proof.Machine
end

