-- ==== Sys2Proof/Machine/Scanner.lean ====
section
/-! DEFINITION. The bitmap free-frame scanner's commands (41_bitmap_scanner.md). -/

namespace Sys2Proof.Machine

/-- BM_FFZ (R121). -/
def execBmFfz (s : State) : Host.Outcome State Fault Refusal :=
  command (fun s => (findFirstZero s).andThen fun n s => .ok { status := .ok, data := positionData n } s) s

/-- BM_FCZ (R123). -/
def execBmFcz (s : State) : Host.Outcome State Fault Refusal :=
  command (fun s => (findConsecutiveZeros s).andThen fun n s => .ok { status := .ok, data := positionData n } s) s

/-- BM_SET row, col, val (R126, R127). -/
def execBmSet (row : BitVec 16) (col : BitVec 8) (val : Bool) (s : State) :
    Host.Outcome State Fault Refusal :=
  command (fun s => (bitmapSet row.toNat col.toNat val s).andThen fun _ s => .ok { status := .ok } s) s

/-- BM_CLEAR (R129). -/
def execBmClear (s : State) : Host.Outcome State Fault Refusal :=
  command (fun s => .ok { status := .ok } (clearBitmap s)) s

end Sys2Proof.Machine
end

