-- ==== Sys2Proof/Machine/Sequencer.lean ====
section
/-! DEFINITION. The translation sequencer: preload, the walk with demand allocation, the TLB path, and clear
(43_translation_sequencer.md). -/

namespace Sys2Proof.Machine

/-! ## Preload (R160 to R162) -/

/-- VM_CREATE_PT seg, addr (R160). -/
def execVmCreatePt (seg : BitVec 9) (addr : Word) (s : State) : Host.Outcome State Fault Refusal :=
  command (fun s =>
    (memWrite seg.toNat addr s).andThen fun _ s =>
      if 0 < s32 addr then
        (mark (frameOf addr) s).andThen fun _ s =>
          (mark (frameOf addr + 1) s).andThen fun _ s => .ok { status := .ok } s
      else .ok { status := .ok } s) s

/-- VM_CREATE_PAGE page, seg, addr (R161): `ST[seg]` is used as a base whatever it holds. -/
def execVmCreatePage (page : BitVec 10) (seg : BitVec 9) (addr : Word) (s : State) :
    Host.Outcome State Fault Refusal :=
  command (fun s =>
    (memRead seg.toNat s).andThen fun base s =>
      (memWrite (tableIndex base page) addr s).andThen fun _ s =>
        if 0 < s32 addr then (mark (frameOf addr) s).andThen fun _ s => .ok { status := .ok } s
        else .ok { status := .ok } s) s

/-- VM_GET_PT seg, page (R162): the word as it stands. -/
def execVmGetPt (seg : BitVec 9) (page : BitVec 10) (s : State) : Host.Outcome State Fault Refusal :=
  command (fun s =>
    (memRead seg.toNat s).andThen fun base s =>
      (memRead (tableIndex base page) s).andThen fun v s => .ok { status := .ok, data := v } s) s

/-! ## Demand allocation (R169) -/

/-- `AllocTable(s)`. -/
def allocTable (seg : BitVec 9) (s : State) : Run Unit :=
  (findConsecutiveZeros s).andThen fun n s =>
    (memWrite seg.toNat (frameBase n) s).andThen fun _ s =>
      (mark n s).andThen fun _ s => mark (n + 1) s

/-- `AllocPage(i)`. -/
def allocPage (i : Int) (s : State) : Run Unit :=
  (findFirstZero s).andThen fun n s =>
    (memWrite i (frameBase n) s).andThen fun _ s => mark n s

/-! ## The direct path (R166 to R170) -/

/-- How a walk ends when no fatal failure ends it: `(PF, 0, 0)`, `(ERR, 0, 0)`, or resolved with the
physical address and the frame word (R166). -/
inductive WalkEnd where
  | pageFault
  | error
  | resolved (pa frame : Word)
deriving DecidableEq, Repr

/-- `Walk(s, p, w, W)` (R166), with a bound on the passes; `write` is W. -/
def walkPasses : Nat → BitVec 9 → BitVec 10 → BitVec 9 → Bool → State → Run WalkEnd
  | 0, _, _, _, _, _ => .fault .walkOverrun
  | passes + 1, seg, page, off, write, s =>
    (memRead seg.toNat s).andThen fun st s =>
      if s32 st = -1 then .ok .pageFault s
      else if s32 st = 0 then
        if write then (allocTable seg s).andThen fun _ s => walkPasses passes seg page off write s
        else .ok .error s
      else
        (memRead (tableIndex st page) s).andThen fun pt s =>
          if s32 pt = -1 then .ok .pageFault s
          else if s32 pt = 0 then
            if write then
              (allocPage (tableIndex st page) s).andThen fun _ s => walkPasses passes seg page off write s
            else .ok .error s
          else .ok (.resolved (addOffset pt off) pt) s

/-- The walk of an access to address `a`: at most three passes (R165, R170). -/
def walk (a : Word) (write : Bool) (s : State) : Run WalkEnd :=
  walkPasses 3 (segmentOf a) (pageOf a) (offsetOf a) write s

/-- The response to a walk that ended (R165, R171; 30_encoding.md R89). -/
def WalkEnd.reply (m : Marker) : WalkEnd → Reply
  | .pageFault => { status := .pf, marker := m }
  | .error => { status := .err, marker := m }
  | .resolved pa _ => { status := .ok, marker := m, data := pa }

/-! ## The TLB path (R171) -/

/-- After the walk of a miss: a resolved translation is inserted, nothing else is (R171 to R173). -/
def cacheIfResolved (k : Key) (o : WalkEnd) (s : State) : Run Unit :=
  match o with
  | .resolved _ frame => doMiss k frame s
  | .pageFault => .ok () s
  | .error => .ok () s

/-- A miss: the walk, then the insertion; the marker is `m` even on a fatal failure (30_encoding.md R91). -/
def tlbMissPath (a : Word) (write : Bool) (s : State) : Run Reply :=
  ((walk a write s).andThen fun o s =>
    (cacheIfResolved (keyOf a) o s).andThen fun _ s => .ok (o.reply .miss) s).marked .miss

/-- A hit at entry `e` of index `i`: PM and the bitmap are not consulted (R171). -/
def tlbHitPath (a : Word) (i : Nat) (e : TlbEntry) (s : State) : Run Reply :=
  (doHit i e s).andThen fun frame s =>
    .ok { status := .ok, marker := .hit, data := addOffset frame (offsetOf a) } s

/-- `TlbPath` (R171). -/
def tlbPath (a : Word) (write : Bool) (s : State) : Run Reply :=
  match s.tlb.hitIndex (keyOf a) with
  | none => tlbMissPath a write s
  | some i =>
    match s.tlb[i]? with
    | none => tlbMissPath a write s
    | some e => tlbHitPath a i e s

/-- `Access(A, W, T)` (R165). -/
def access (a : Word) (write useTlb : Bool) (s : State) : Run Reply :=
  if useTlb then tlbPath a write s
  else (walk a write s).andThen fun o s => .ok (o.reply .none) s

/-- VM_READ a, T (R163). -/
def execVmRead (a : Word) (t : Bool) (s : State) : Host.Outcome State Fault Refusal :=
  command (access a false t) s

/-- VM_WRITE a, T (R164). -/
def execVmWrite (a : Word) (t : Bool) (s : State) : Host.Outcome State Fault Refusal :=
  command (access a true t) s

/-! ## Clear (R175) -/

/-- VM_CLEAR (R175): all of PM and the bitmap; neither the TLB nor the latch. -/
def execVmClear (s : State) : Host.Outcome State Fault Refusal :=
  command (fun s => .ok { status := .ok } (clearBitmap { s with pm := Memory.cleared })) s

end Sys2Proof.Machine
end

