-- ==== Sys2Proof/Machine/TlbUnit.lean ====
section
/-! DEFINITION. The TLB's commands (42_tlb.md). -/

namespace Sys2Proof.Machine

/-- TLB_HITIDX key (R141). -/
def execTlbHitIdx (key : Key) (s : State) : Host.Outcome State Fault Refusal :=
  command (fun s =>
    match s.tlb.hitIndex key with
    | some i => .ok { status := .ok, data := BitVec.ofNat 32 i } s
    | none => .ok { status := .absent } s) s

/-- TLB_DOHIT key, idx: BADHIT when the index is out of range, the entry unused or its key another
(R143, R144). -/
def execTlbDoHit (key : Key) (idx : BitVec 8) (s : State) : Host.Outcome State Fault Refusal :=
  command (fun s =>
    match s.tlb[idx.toNat]? with
    | none => .ok { status := .badHit } s
    | some e =>
      if e.holds key then (doHit idx.toNat e s).andThen fun frame s => .ok { status := .ok, data := frame } s
      else .ok { status := .badHit } s) s

/-- TLB_DOMISS key, frame (R146, R148). -/
def execTlbDoMiss (key : Key) (frame : Word) (s : State) : Host.Outcome State Fault Refusal :=
  command (fun s => (doMiss key frame s).andThen fun _ s => .ok { status := .ok } s) s

/-- TLB_RESET (R149). -/
def execTlbReset (s : State) : Host.Outcome State Fault Refusal :=
  command (fun s => .ok { status := .ok } (resetTlb s)) s

end Sys2Proof.Machine
end

