-- ==== Sys2Proof/Machine/Dispatch.lean ====
section
/-! DEFINITION. One arm per constructor of Instr. -/

namespace Sys2Proof.Machine

def exec (i : Instr) (s : State) : Host.Outcome State Fault Refusal :=
  match i with
  | .vaDecode a => Sys2Proof.Machine.execVaDecode a s
  | .bmFfz => Sys2Proof.Machine.execBmFfz s
  | .bmFcz => Sys2Proof.Machine.execBmFcz s
  | .bmSet row col val => Sys2Proof.Machine.execBmSet row col val s
  | .bmClear => Sys2Proof.Machine.execBmClear s
  | .tlbHitIdx key => Sys2Proof.Machine.execTlbHitIdx key s
  | .tlbDoHit key idx => Sys2Proof.Machine.execTlbDoHit key idx s
  | .tlbDoMiss key frame => Sys2Proof.Machine.execTlbDoMiss key frame s
  | .tlbReset => Sys2Proof.Machine.execTlbReset s
  | .vmCreatePt seg addr => Sys2Proof.Machine.execVmCreatePt seg addr s
  | .vmCreatePage page seg addr => Sys2Proof.Machine.execVmCreatePage page seg addr s
  | .vmGetPt seg page => Sys2Proof.Machine.execVmGetPt seg page s
  | .vmRead a t => Sys2Proof.Machine.execVmRead a t s
  | .vmWrite a t => Sys2Proof.Machine.execVmWrite a t s
  | .vmClear => Sys2Proof.Machine.execVmClear s

end Sys2Proof.Machine
end

