-- ==== Sys2Proof/Machine/Step.lean ====
section
/-! DEFINITION. One step: what the host presents first is taken and carried out whole (30_encoding.md R80, R94;
70_reset_and_hazards.md R238). -/

namespace Sys2Proof.Machine

/-- The first thing presented: RESET, or a command word, which is checked for legality before everything else
(60_exceptions.md R196, R201). Nothing presented: the block is idle (log 5). -/
def step (s : State) : Host.Outcome State Fault Refusal :=
  match s.inputs with
  | [] => .next s
  | .reset :: rest => .next (takeReset rest s)
  | .command cw :: rest =>
    match decode cw with
    | .command i => exec i (takeInput rest s)
    | .illegal _ => .next (answerIllegal (takeInput rest s))

/-- `s` with the instruction whose bits are `w` presented next (log 3). -/
def State.withFetchWord (s : State) (nbits w : Nat) : State :=
  presentCommand (BitVec.ofNat 64 (w % 2 ^ nbits)) s

end Sys2Proof.Machine
end

