-- ==== Sys2Proof/Machine/Driver.lean ====
section
/-! DEFINITION. The host's side of the port, as far as the spec gives it: the layout and action streams and the
two runs as command sequences (30_encoding.md R96, R97, R99), the well-formed preload (70_reset_and_hazards.md
R228), and the output tokens rendered from response words (R98). No step calls this. -/

namespace Sys2Proof.Machine

/-- The layout stream, parsed: line 1's (segment, address) pairs and line 2's (page, segment, address) triples
(R96). -/
structure Layout where
  tables : List (BitVec 9 × Word)
  pages : List (BitVec 10 × BitVec 9 × Word)
deriving DecidableEq, Repr

/-- One (op, address) pair of the action stream: `op` is the W bit (R97). -/
structure Action where
  op : Bool
  addr : Word
deriving DecidableEq, Repr

/-- LAYOUT: all of line 1 before any of line 2 (R96). -/
def Layout.commands (l : Layout) : List Instr :=
  (l.tables.map fun x => .vmCreatePt x.1 x.2) ++ l.pages.map fun x => .vmCreatePage x.1 x.2.1 x.2.2

/-- The command of one action in a run with `use_tlb = t` (R97). -/
def Action.instr (t : Bool) (a : Action) : Instr := if a.op then .vmWrite a.addr t else .vmRead a.addr t

/-- One run: VM_CLEAR ; TLB_RESET ; LAYOUT ; ACTIONS t (R99). -/
def runCommands (l : Layout) (acts : List Action) (t : Bool) : List Instr :=
  [.vmClear, .tlbReset] ++ l.commands ++ acts.map (Action.instr t)

/-- REPLAY: the run without the TLB, then the run with it (R99). -/
def replay (l : Layout) (acts : List Action) : List Instr := runCommands l acts false ++ runCommands l acts true

/-- Commands as the host presents them. -/
def present (is : List Instr) : List HostEvent := is.map fun i => .command (encode i)

/-! ## Well-formed preload (70_reset_and_hazards.md R228) -/

/-- −1, or 0, or a multiple of 512 that leaves room for `frames` frames and is not frame 0. -/
abbrev preloadAddress (frames : Nat) (a : Word) : Prop :=
  s32 a = -1 ∨ s32 a = 0 ∨ (a.toNat % frameSize = 0 ∧ frameSize ≤ a.toNat ∧ a.toNat + frameSize * frames ≤ pmSize)

/-- The frames a preload address names: `count` of them from its frame on, none unless it is positive. -/
def namedFrames (count : Nat) (a : Word) : List Nat :=
  if 0 < s32 a then List.range' (frameOf a) count else []

/-- The conditions of R228 on a layout. -/
def Layout.wellFormed (l : Layout) : Bool :=
  (l.tables.all fun x => decide (preloadAddress 2 x.2)) && decide (l.tables.map Prod.fst).Nodup &&
  (l.pages.all fun x => decide (preloadAddress 1 x.2.2)) && decide (l.pages.map fun x => (x.2.1, x.1)).Nodup &&
  (l.pages.all fun x => l.tables.any fun y => decide (y.1 = x.2.1 ∧ 0 < s32 y.2)) &&
  decide ((l.tables.flatMap fun x => namedFrames 2 x.2) ++ l.pages.flatMap fun x => namedFrames 1 x.2.2).Nodup

/-! ## The output token stream (30_encoding.md R98) -/

/-- A token of the output stream. -/
inductive Token where
  /-- `h`. -/
  | hit
  /-- `m`. -/
  | miss
  /-- A resolved physical address, rendered as `s32(DATA)`. -/
  | address (n : Int)
  /-- `pf`. -/
  | pageFault
  /-- `err`. -/
  | error
deriving DecidableEq, Repr

/-- The characters of a token and its one trailing space. -/
def Token.text : Token → String
  | .hit => "h "
  | .miss => "m "
  | .address n => toString n ++ " "
  | .pageFault => "pf "
  | .error => "err "

/-- `RSP[63:60]`. -/
def rspStatus (r : ResponseWord) : BitVec 4 := r.extractLsb' 60 4

/-- `RSP[59:58]`. -/
def rspMarker (r : ResponseWord) : BitVec 2 := r.extractLsb' 58 2

/-- `RSP[31:0]`. -/
def rspData (r : ResponseWord) : Word := r.extractLsb' 0 32

/-- The marker token, if any. -/
def markerTokens (r : ResponseWord) : List Token :=
  if rspMarker r = Marker.hit.code then [.hit] else if rspMarker r = Marker.miss.code then [.miss] else []

/-- The token of the outcome; none on a fatal status or a refusal. -/
def outcomeTokens (r : ResponseWord) : List Token :=
  if rspStatus r = Status.ok.code then [.address (s32 (rspData r))]
  else if rspStatus r = Status.pf.code then [.pageFault]
  else if rspStatus r = Status.err.code then [.error]
  else []

/-- What the host renders from the response of a VM_READ or VM_WRITE. -/
def tokens (r : ResponseWord) : List Token := markerTokens r ++ outcomeTokens r

/-- The text of the responses of a run's accesses, with no newline between them. -/
def render (rs : List ResponseWord) : String := String.join ((rs.flatMap tokens).map Token.text)

end Sys2Proof.Machine
end

