-- ==== Sys2Proof/Safety.lean ====
section
/-! DEFINITION. What counts as a safe state, in the terms the claims use: the invariant of every reachable state,
the coherence of the TLB with the page tables, and the document's data model. -/

namespace Sys2Proof.Machine

/-! ## How parts of the state change -/

/-- Memory `m'` is `m` with the word at index `i` replaced by `v` and every other word as before. -/
abbrev storedAt (m m' : Memory) (i : Nat) (v : Word) : Prop :=
  ∀ j, m'.read j = if j = i then v else m.read j

/-- Bitmap `b'` is `b` with the cells of `fs` set and every other cell as before. -/
abbrev markedAt (b b' : Bitmap) (fs : List Nat) : Prop :=
  b'.length = b.length ∧ ∀ n, b'.cell n = (b.cell n || decide (n ∈ fs))

/-- The access command with W = `write` and T = `t` (30_encoding.md R84, R97). -/
abbrev accessCommand (write : Bool) (a : Word) (t : Bool) : Instr := if write then .vmWrite a t else .vmRead a t

/-- Index `v` is the only one whose entry has `lru = 0`: the victim of the next miss (42_tlb.md R146). -/
abbrev Tlb.victimAt (t : Tlb) (v : Nat) : Prop :=
  v < t.length ∧ ∀ j, j < t.length → (t[j]?.map TlbEntry.lru = some 0 ↔ j = v)

/-- No valid entry holds the key (42_tlb.md R141). -/
abbrev Tlb.lacks (t : Tlb) (k : Key) : Prop := ∀ e ∈ t, ¬ (e.valid = true ∧ e.key = k)

/-- Index `i` is the lowest whose entry is valid and holds the key, and `e` is that entry (42_tlb.md R141). -/
abbrev Tlb.firstHit (t : Tlb) (k : Key) (i : Nat) (e : TlbEntry) : Prop :=
  t[i]? = some e ∧ e.valid = true ∧ e.key = k ∧ Tlb.lacks (t.take i) k

/-- `t'` is `t` after a hit on entry `e` at index `i`: the counters strictly above `e`'s step down, `e`'s becomes
TLB_CAP − 1, nothing else changes (42_tlb.md R143). -/
abbrev Tlb.promoted (t t' : Tlb) (i : Nat) (e : TlbEntry) : Prop :=
  ∀ j, t'[j]? = t[j]?.map fun x =>
    if j = i then { x with lru := t.length - 1 } else if e.lru < x.lru then { x with lru := x.lru - 1 } else x

/-- `t'` is `t` after a miss whose victim is at index `v` (42_tlb.md R146). -/
abbrev Tlb.replaced (t t' : Tlb) (v : Nat) (k : Key) (frame : Word) : Prop :=
  ∀ j, t'[j]? = t[j]?.map fun x =>
    if j = v then ⟨true, k, frame, t.length - 1⟩ else { x with lru := x.lru - 1 }

/-- `n` is the lowest free cell from index 1 up (41_bitmap_scanner.md R121). -/
abbrev Bitmap.firstFree (b : Bitmap) (n : Nat) : Prop :=
  1 ≤ n ∧ n < b.bits ∧ b.cell n = false ∧ ∀ m, m < n → 1 ≤ m → b.cell m = true

/-- `n` is the lowest index from 1 up that starts a free raster-adjacent pair (41_bitmap_scanner.md R123). -/
abbrev Bitmap.firstFreePair (b : Bitmap) (n : Nat) : Prop :=
  1 ≤ n ∧ n + 1 < b.bits ∧ b.cell n = false ∧ b.cell (n + 1) = false ∧
    ∀ m, m < n → 1 ≤ m → b.cell m = true ∨ b.cell (m + 1) = true

/-- Every cell from index 1 up is occupied. -/
abbrev Bitmap.full (b : Bitmap) : Prop := ∀ n, n < b.bits → 1 ≤ n → b.cell n = true

/-- No raster-adjacent pair from index 1 up is free. -/
abbrev Bitmap.noPair (b : Bitmap) : Prop :=
  ∀ n, n < b.bits → 1 ≤ n → n + 1 < b.bits → b.cell n = true ∨ b.cell (n + 1) = true

/-- How each command can end when the latch is clear (60_exceptions.md R200). -/
def allowedStatuses : Instr → List Status
  | .vaDecode _ => [.ok]
  | .bmFfz => [.ok, .fAlloc]
  | .bmFcz => [.ok, .fAlloc]
  | .bmSet _ _ _ => [.ok, .fBmRange]
  | .bmClear => [.ok]
  | .tlbHitIdx _ => [.ok, .absent]
  | .tlbDoHit _ _ => [.ok, .badHit]
  | .tlbDoMiss _ _ => [.ok]
  | .tlbReset => [.ok]
  | .vmCreatePt _ _ => [.ok, .fBmRange]
  | .vmCreatePage _ _ _ => [.ok, .fPmRange, .fBmRange]
  | .vmGetPt _ _ => [.ok, .fPmRange]
  | .vmRead _ _ => [.ok, .pf, .err, .fPmRange]
  | .vmWrite _ _ => [.ok, .pf, .fAlloc, .fPmRange]
  | .vmClear => [.ok]

/-! ## The invariant of every reachable state -/

/-- The counters of all entries, used or not, are a permutation of 0 .. TLB_CAP − 1 (42_tlb.md R150). -/
abbrev Tlb.ranked (t : Tlb) : Prop := (t.map TlbEntry.lru).Perm (List.range t.length)

/-- A response word the block can give: the reserved bits are 0, the status is one of R90's, the marker is not 3,
and DATA is 0 unless STATUS is OK (30_encoding.md R88, R89, R91). -/
abbrev legalResponse (r : ResponseWord) : Prop :=
  ∃ rep : Reply, r = rep.word ∧ (rep.status ≠ .ok → rep.data = 0#32)

/-- What holds at reset and is kept by every step. -/
structure State.Inv (s : State) : Prop where
  /-- PM is in canonical form, so equal memories are equal data. -/
  memory : s.pm.wf
  /-- The parameters are ones the spec admits (00_scope.md R6, R7). -/
  config : s.config.wf
  /-- The stored cell (0,0) is 1 (10_state.md R27). -/
  hardwired : (s.bm.getD 0 0#32).getLsbD 0 = true
  /-- 42_tlb.md R150. -/
  ranked : s.tlb.ranked
  /-- An unused entry's key and frame are 0 (10_state.md R32, R35). -/
  unused : ∀ e ∈ s.tlb, e.valid = false → e.key = 0#19 ∧ e.frame = 0#32
  /-- FCODE is 0 while the latch is clear, and a fatal code while it is set (10_state.md R39). -/
  latch : (s.fatal = false ∧ s.fcode = 0#4) ∨ (s.fatal = true ∧ ∃ c : FatalCode, s.fcode = c.code)
  /-- 30_encoding.md R88 to R91. -/
  response : ∀ r, s.rsp = some r → legalResponse r

/-! ## Translation, said of a state -/

/-- `ST[s]` (20_memory.md R56). -/
def State.segEntry (s : State) (seg : BitVec 9) : Word := s.pm.read seg.toNat

/-- The index of `PT[s,p]` (20_memory.md R58, R60). -/
def State.pageIndex (s : State) (seg : BitVec 9) (page : BitVec 10) : Int := tableIndex (s.segEntry seg) page

/-- `PT[s,p]` (20_memory.md R58). -/
def State.pageEntry (s : State) (seg : BitVec 9) (page : BitVec 10) : Word :=
  s.pm.read (s.pageIndex seg page).toNat

/-- `ST[s]` is a base: neither −1 nor 0 (43_translation_sequencer.md R167). -/
abbrev State.tableBacked (s : State) (seg : BitVec 9) : Prop :=
  s32 (s.segEntry seg) ≠ -1 ∧ s32 (s.segEntry seg) ≠ 0

/-- `ST[s]` is a base and `PT[s,p]` lies in PM, so that a walk reads it (20_memory.md R59). -/
abbrev State.pageReadable (s : State) (seg : BitVec 9) (page : BitVec 10) : Prop :=
  s.tableBacked seg ∧ 0 ≤ s.pageIndex seg page ∧ s.pageIndex seg page < pmSize

/-- The pair resolves, to the page-table word `frame` (43_translation_sequencer.md R166 step 6, R172). -/
abbrev State.resolvesTo (s : State) (seg : BitVec 9) (page : BitVec 10) (frame : Word) : Prop :=
  s.pageReadable seg page ∧ s.pageEntry seg page = frame ∧ s32 frame ≠ -1 ∧ s32 frame ≠ 0

/-- Every valid TLB entry is the page-table word its key resolves to (20_memory.md R67). -/
def State.tlbCoherent (s : State) : Prop :=
  ∀ e ∈ s.tlb, e.valid = true → s.resolvesTo (keySegment e.key) (keyPage e.key) e.frame

/-! ## The recency order -/

/-- The slots from the least to the most recently used: rank r's slot at position r (42_tlb.md R151). -/
def Tlb.recency (t : Tlb) : List Nat :=
  (List.range t.length).map fun r => t.findIdx fun e => e.lru == r

/-! ## The document's data model -/

/-- Frame `f` is one of the two of the table of segment `seg` (10_state.md R30). -/
abbrev State.tableFrame (s : State) (seg : BitVec 9) (f : Nat) : Prop :=
  0 < s32 (s.segEntry seg) ∧ (f = frameOf (s.segEntry seg) ∨ f = frameOf (s.segEntry seg) + 1)

/-- Frame `f` is the page of (segment, page) (10_state.md R30). -/
abbrev State.pageFrame (s : State) (seg : BitVec 9) (page : BitVec 10) (f : Nat) : Prop :=
  0 < s32 (s.segEntry seg) ∧ 0 < s32 (s.pageEntry seg page) ∧ f = frameOf (s.pageEntry seg page)

/-- Inside the data model (00_scope.md R16; 10_state.md R30; 70_reset_and_hazards.md R228, R234): entries are −1,
0 or bases, no two frames named coincide, the bitmap mirrors the tables and pages, and free frames hold
zeros. -/
structure State.InDataModel (s : State) : Prop where
  /-- One bit per frame (00_scope.md R6). -/
  rows : s.bm.length = 32
  /-- Segment entries (20_memory.md R56, R52). -/
  segments : ∀ seg, preloadAddress 2 (s.segEntry seg)
  /-- Page entries of existing tables (20_memory.md R58, R52). -/
  pages : ∀ seg page, 0 < s32 (s.segEntry seg) → preloadAddress 1 (s.pageEntry seg page)
  /-- Tables do not overlap. -/
  tablesApart : ∀ seg seg' f, s.tableFrame seg f → s.tableFrame seg' f → seg = seg'
  /-- No frame is the page of two pairs. -/
  pagesApart : ∀ seg page seg' page' f,
    s.pageFrame seg page f → s.pageFrame seg' page' f → seg = seg' ∧ page = page'
  /-- No page lies in a table. -/
  apart : ∀ seg seg' page f, s.tableFrame seg f → ¬ s.pageFrame seg' page f
  /-- 10_state.md R30. -/
  mirror : ∀ f, f < nFrames →
    (s.bm.cell f = true ↔ f = 0 ∨ (∃ seg, s.tableFrame seg f) ∨ ∃ seg page, s.pageFrame seg page f)
  /-- 70_reset_and_hazards.md R234. -/
  freeZero : ∀ f, f < nFrames → s.bm.cell f = false → ∀ j, j < frameSize → s.pm.read (frameSize * f + j) = 0#32

end Sys2Proof.Machine
end

