-- ==== Sys2Proof/Certificates/Slice0/Obligations.lean ====
section
/-! DEFINITION. The statements for the provers. The statement of a leaf command begins with the command word its
rule gives it. Responses are written as the 64-bit words of 30_encoding.md R88:
`0#32 ++ d` is STATUS OK, no marker, DATA d; 0x04000000 and 0x08000000 in the upper half are OK with the miss and
the hit marker. A next state written `{ s with … }` says that every field not named is unchanged. -/

open Sys2Proof Sys2Proof.Machine

/-! ## Encoding -/

/-- Every command, with every operand, is read back from its own word (30_encoding.md R81 to R87, R92). -/
def Obligations.DecodeOfEncode : Prop := ∀ i : Instr, decode (encode i) = .command i

/-- No bit of a legal word is dropped: a decoded command's own word is the word it was decoded from
(30_encoding.md R81 to R87, R92, R93). -/
def Obligations.EncodeOfDecode : Prop := ∀ (cw : CommandWord) (i : Instr), decode cw = .command i → encode i = cw

/-- The decoder accepts exactly the words some row of the opcode table admits, as that row's command
(30_encoding.md R92, R93). -/
def Obligations.DecoderAcceptsTheTablesWords : Prop :=
  (∀ cw : CommandWord, (∃ i, decode cw = .command i) ↔ wellFormedWord cw) ∧
  ∀ (cw : CommandWord) (i : Instr), decode cw = .command i → i.row.admits cw

/-- "The 15 patterns are pairwise disjoint (no word matches two rows)" (30_encoding.md R92). -/
def Obligations.OpcodeRowsAreDisjoint : Prop :=
  opcodeTable.length = 15 ∧
  ∀ (cw : CommandWord) (r q : OpcodeRow), r ∈ opcodeTable → q ∈ opcodeTable → r.admits cw → q.admits cw → r = q

/-- Command words of 95_test_vectors.md are read as the commands their listings give. -/
def Obligations.SpecWordsAreRead : Prop :=
  decode 0x0100000000180E05#64 = .command (.vaDecode 0x00180E05#32) ∧
  decode 0x12000000001F1F01#64 = .command (.bmSet 31#16 31#8 true) ∧
  decode 0x2100002800000003#64 = .command (.tlbDoHit 40#19 3#8) ∧
  decode 0x22000014000000C8#64 = .command (.tlbDoMiss 20#19 200#32) ∧
  decode 0x3100140000000400#64 = .command (.vmCreatePage 0#10 5#9 1024#32) ∧
  decode 0x32000C0700000000#64 = .command (.vmGetPt 3#9 7#10) ∧
  decode 0x3300000100080004#64 = .command (.vmRead 0x00080004#32 true) ∧
  decode 0x3300000200180E05#64 = .command (.vmWrite 0x00180E05#32 false)

/-- Where each field of a response stands (30_encoding.md R88). -/
def Obligations.ResponseWordLayout : Prop :=
  ∀ r : Reply, r.word.extractLsb' 60 4 = r.status.code ∧ r.word.extractLsb' 58 2 = r.marker.code ∧
    r.word.extractLsb' 32 26 = 0#26 ∧ r.word.extractLsb' 0 32 = r.data

/-! ## The step, legality and the fatal latch -/

/-- A step whose first input is a legal word takes it off the inputs and is `exec` of the decoded command. The inputs list is
the model's own field (log 3). -/
def Obligations.StepRunsTheDecodedCommand : Prop :=
  ∀ (s : State) (cw : CommandWord) (rest : List HostEvent) (i : Instr),
    s.inputs = .command cw :: rest → decode cw = .command i → step s = exec i { s with inputs := rest }

/-- A word that matches no row of the opcode table, whatever the latch: ILLEGAL, nothing else changes
(60_exceptions.md R196). -/
def Obligations.IllegalWordIsRefused : Prop :=
  ∀ (s : State) (cw : CommandWord) (rest : List HostEvent),
    s.inputs = .command cw :: rest → ¬ wellFormedWord cw →
      step s = .next { s with rsp := some 0xC000000000000000#64, inputs := rest }

/-- While FATAL = 1 every legal command but VA_DECODE is answered HALTED and changes nothing else
(60_exceptions.md R198). -/
def Obligations.HaltedRefusal : Prop :=
  ∀ (s : State) (i : Instr), s.fatal = true → (∀ a, i ≠ .vaDecode a) →
    exec i s = .next { s with rsp := some 0xF000000000000000#64 }

/-- Nothing but RESET changes PM, BM, the TLB, FATAL or FCODE once FATAL is set (60_exceptions.md R205, R206).
The inputs list is the model's own field (log 3). -/
def Obligations.FatalStateIsFrozen : Prop :=
  ∀ s t : State, s.fatal = true → s.inputs.head? ≠ some .reset → step s = .next t →
    t.pm = s.pm ∧ t.bm = s.bm ∧ t.tlb = s.tlb ∧ t.fatal = true ∧ t.fcode = s.fcode

/-- How each command can end: the complete table of 60_exceptions.md R200, while the latch is clear. -/
def Obligations.StatusTable : Prop :=
  ∀ (i : Instr) (s t : State), s.fatal = false → exec i s = .next t →
    ∃ rep : Reply, t.rsp = some rep.word ∧ rep.status ∈ allowedStatuses i

/-- No step changes BM_ROWS or TLB_CAP (30_encoding.md R94: fixed when the block is built). That they are
read off the lengths of `bm` and `tlb` is the model's choice (log 2). -/
def Obligations.ConfigurationIsFixed : Prop := ∀ s t : State, step s = .next t → t.config = s.config

/-! ## The address decomposer -/

/-- VA_DECODE answers OK with `zext(A[27:0])` in every state, the fatal one too, and changes nothing
(40_va_decomposer.md R112). -/
def Obligations.VaDecodeResult : Prop :=
  ∀ a : Word, encode (.vaDecode a) = 0x01000000#32 ++ a ∧
    ∀ s : State, exec (.vaDecode a) s = .next { s with rsp := some (BitVec.ofNat 64 (a.toNat % 2 ^ 28)) }

/-- The round-trip law of the slicing, both ways (40_va_decomposer.md R113). -/
def Obligations.SlicingRoundTrip : Prop :=
  (∀ a : Word,
    (segmentOf a).toNat * 2 ^ 19 + (pageOf a).toNat * 2 ^ 9 + (offsetOf a).toNat = a.toNat % 2 ^ 28 ∧
    (keyOf a).toNat * 2 ^ 9 + (offsetOf a).toNat = a.toNat % 2 ^ 28 ∧
    (keyOf a).toNat = (segmentOf a).toNat * 2 ^ 10 + (pageOf a).toNat) ∧
  ∀ (h : BitVec 4) (seg : BitVec 9) (page : BitVec 10) (off : BitVec 9),
    segmentOf (h ++ seg ++ page ++ off) = seg ∧ pageOf (h ++ seg ++ page ++ off) = page ∧
    offsetOf (h ++ seg ++ page ++ off) = off

/-- Two addresses that differ only in the four discarded bits behave identically in every command that takes an
address (40_va_decomposer.md R111). -/
def Obligations.DiscardedBitsAreIgnored : Prop :=
  ∀ (a b : Word) (t : Bool) (s : State), a.toNat % 2 ^ 28 = b.toNat % 2 ^ 28 →
    exec (.vaDecode a) s = exec (.vaDecode b) s ∧ exec (.vmRead a t) s = exec (.vmRead b t) s ∧
    exec (.vmWrite a t) s = exec (.vmWrite b t) s

/-! ## The bitmap scanner -/

/-- BM_FFZ: the lowest free cell from index 1 up as (row, col), nothing else changed; F_ALLOC when there is none
(41_bitmap_scanner.md R121). -/
def Obligations.BmFfzResult : Prop :=
  encode .bmFfz = 0x1000000000000000#64 ∧
  ∀ s : State, s.fatal = false → s.bm.length ≤ 65536 →
    (∀ n, s.bm.firstFree n →
      exec .bmFfz s = .next { s with rsp := some (BitVec.ofNat 64 (n / 32 * 2 ^ 16 + n % 32 * 2 ^ 8)) }) ∧
    (s.bm.full →
      exec .bmFfz s = .next { s with fatal := true, fcode := 0x8#4, rsp := some 0x8000000000000000#64 })

/-- BM_FCZ: the lowest raster-adjacent free pair from index 1 up, nothing else changed; F_ALLOC when there is none,
a lone zero in the last cell included (41_bitmap_scanner.md R123, R125). -/
def Obligations.BmFczResult : Prop :=
  encode .bmFcz = 0x1100000000000000#64 ∧
  ∀ s : State, s.fatal = false → s.bm.length ≤ 65536 →
    (∀ n, s.bm.firstFreePair n →
      exec .bmFcz s = .next { s with rsp := some (BitVec.ofNat 64 (n / 32 * 2 ^ 16 + n % 32 * 2 ^ 8)) }) ∧
    (s.bm.noPair →
      exec .bmFcz s = .next { s with fatal := true, fcode := 0x8#4, rsp := some 0x8000000000000000#64 })

/-- The document's scan procedure and the declarative search agree for every bitmap (41_bitmap_scanner.md R124). -/
def Obligations.ScanProcedureAgrees : Prop := ∀ b : Bitmap, b.pairScan b.bits 1 = b.findConsecutiveZeros

/-- After both cells of a found pair are marked, a later pair never overlaps it (41_bitmap_scanner.md R131 b). -/
def Obligations.LaterPairNeverOverlaps : Prop :=
  ∀ (b b' : Bitmap) (n n' : Nat), b.findConsecutiveZeros = some n → markedAt b b' [n, n + 1] →
    b'.findConsecutiveZeros = some n' → n' + 1 ≠ n ∧ n' ≠ n ∧ n' ≠ n + 1

/-- While cells only go from 0 to 1 neither search ever returns a smaller index (41_bitmap_scanner.md R131 c). -/
def Obligations.SearchesAreMonotone : Prop :=
  ∀ b b' : Bitmap, b'.length = b.length → (∀ n, b.cell n = true → b'.cell n = true) →
    (∀ n', b'.findFirstZero = some n' → ∃ n, b.findFirstZero = some n ∧ n ≤ n') ∧
    ∀ n', b'.findConsecutiveZeros = some n' → ∃ n, b.findConsecutiveZeros = some n ∧ n ≤ n'

/-- BM_SET: in range it writes that one cell, cell (0,0) excepted; out of range F_BMRANGE and nothing written
(41_bitmap_scanner.md R126, R127). -/
def Obligations.BmSetResult : Prop :=
  (∀ (row : BitVec 16) (col : BitVec 8) (val : Bool),
    encode (.bmSet row col val) = 0x12000000#32 ++ row ++ col ++ (0#7 ++ BitVec.ofBool val)) ∧
  ∀ (s : State) (row : BitVec 16) (col : BitVec 8) (val : Bool), s.fatal = false →
    (row.toNat < s.bm.length → col.toNat < 32 →
      ∃ b : Bitmap, exec (.bmSet row col val) s = .next { s with bm := b, rsp := some 0#64 } ∧
        b.length = s.bm.length ∧
        ∀ n, b.cell n = if n = 32 * row.toNat + col.toNat ∧ n ≠ 0 then val else s.bm.cell n) ∧
    (s.bm.length ≤ row.toNat ∨ 32 ≤ col.toNat →
      exec (.bmSet row col val) s = .next { s with fatal := true, fcode := 0x9#4, rsp := some 0x9000000000000000#64 })

/-- BM_CLEAR: every cell but (0,0) is 0, (0,0) is 1, nothing else changes (41_bitmap_scanner.md R129). -/
def Obligations.BmClearResult : Prop :=
  encode .bmClear = 0x1300000000000000#64 ∧
  ∀ s : State, s.fatal = false →
    ∃ b : Bitmap, exec .bmClear s = .next { s with bm := b, rsp := some 0#64 } ∧
      b.length = s.bm.length ∧ ∀ n, b.cell n = decide (n = 0)

/-! ## The TLB -/

/-- TLB_HITIDX: the lowest index of a valid entry with the key, or ABSENT; nothing changes (42_tlb.md R141). -/
def Obligations.TlbHitIdxResult : Prop :=
  (∀ key : Key, encode (.tlbHitIdx key) = 0x20#8 ++ 0#5 ++ key ++ 0#32) ∧
  ∀ (s : State) (key : Key), s.fatal = false → s.tlb.length ≤ 256 →
    (∀ i e, s.tlb.firstHit key i e →
      exec (.tlbHitIdx key) s = .next { s with rsp := some (BitVec.ofNat 64 i) }) ∧
    (s.tlb.lacks key → exec (.tlbHitIdx key) s = .next { s with rsp := some 0x3000000000000000#64 })

/-- TLB_DOHIT. On a valid entry that holds the key: its frame is returned, the counters strictly above its own step
down, its own becomes TLB_CAP − 1, nothing else changes. With the index out of range, the entry unused or its key
another: BADHIT, nothing changes (42_tlb.md R143). -/
def Obligations.TlbDoHitResult : Prop :=
  (∀ (key : Key) (idx : BitVec 8), encode (.tlbDoHit key idx) = 0x21#8 ++ 0#5 ++ key ++ 0#24 ++ idx) ∧
  ∀ (s : State) (key : Key) (idx : BitVec 8), s.fatal = false →
    (∀ e, s.tlb[idx.toNat]? = some e → e.valid = true → e.key = key →
      ∃ t : Tlb, exec (.tlbDoHit key idx) s = .next { s with tlb := t, rsp := some (0#32 ++ e.frame) } ∧
        s.tlb.promoted t idx.toNat e) ∧
    ((∀ e, s.tlb[idx.toNat]? = some e → e.valid = false ∨ e.key ≠ key) →
      exec (.tlbDoHit key idx) s = .next { s with rsp := some 0xD000000000000000#64 })

/-- BADHIT: TLB_DOHIT with the index out of range, the entry unused or its key another changes nothing; no other command
ever answers it (60_exceptions.md R197). -/
def Obligations.TlbDoHitRefused : Prop :=
  (∀ (s : State) (key : Key) (idx : BitVec 8), s.fatal = false →
    (s.tlb.length ≤ idx.toNat ∨ ∃ e, s.tlb[idx.toNat]? = some e ∧ (e.valid = false ∨ e.key ≠ key)) →
      exec (.tlbDoHit key idx) s = .next { s with rsp := some 0xD000000000000000#64 }) ∧
  ∀ (i : Instr) (s t : State) (r : ResponseWord), exec i s = .next t → t.rsp = some r →
    r.extractLsb' 60 4 = 0xD#4 → ∃ key idx, i = .tlbDoHit key idx

/-- TLB_DOMISS: the entry with counter 0 is replaced and becomes the most recent, every other counter steps down,
nothing else changes (42_tlb.md R146). -/
def Obligations.TlbDoMissResult : Prop :=
  (∀ (key : Key) (frame : Word), encode (.tlbDoMiss key frame) = 0x22#8 ++ 0#5 ++ key ++ frame) ∧
  ∀ (s : State) (key : Key) (frame : Word) (v : Nat), s.fatal = false → s.tlb.victimAt v →
    ∃ t : Tlb, exec (.tlbDoMiss key frame) s = .next { s with tlb := t, rsp := some 0#64 } ∧
      s.tlb.replaced t v key frame

/-- TLB_RESET: every entry is unused with counter i, nothing else changes (42_tlb.md R149). -/
def Obligations.TlbResetResult : Prop :=
  encode .tlbReset = 0x2300000000000000#64 ∧
  ∀ s : State, s.fatal = false →
    ∃ t : Tlb, exec .tlbReset s = .next { s with tlb := t, rsp := some 0#64 } ∧ t.length = s.tlb.length ∧
      ∀ i, i < t.length → t[i]? = some ⟨false, 0#19, 0#32, i⟩

/-- The counters are a permutation of 0 .. TLB_CAP − 1 after reset and after every step, so exactly one entry holds 0
(42_tlb.md R150). -/
def Obligations.CountersStayAPermutation : Prop :=
  (∀ c : Config, (State.resetWith c).tlb.ranked) ∧
  (∀ s t : State, s.tlb.ranked → step s = .next t → t.tlb.ranked) ∧
  ∀ t : Tlb, t.ranked → t ≠ [] → ∃ v, t.victimAt v

/-- Exact LRU: a hit moves its slot to the recent end of the recency order; a miss takes the slot at the old end,
fills it with the key and the frame and moves it to the recent end (42_tlb.md R151). -/
def Obligations.ReplacementIsExactLru : Prop :=
  (∀ (s t : State) (key : Key) (idx : BitVec 8) (e : TlbEntry), s.fatal = false → s.tlb.ranked →
    s.tlb[idx.toNat]? = some e → e.valid = true → e.key = key → exec (.tlbDoHit key idx) s = .next t →
      t.tlb.recency = s.tlb.recency.erase idx.toNat ++ [idx.toNat]) ∧
  ∀ (s t : State) (key : Key) (frame : Word), s.fatal = false → s.tlb.ranked → s.tlb ≠ [] →
    exec (.tlbDoMiss key frame) s = .next t →
      ∃ v older, s.tlb.recency = v :: older ∧ t.tlb.recency = older ++ [v] ∧
        t.tlb[v]? = some ⟨true, key, frame, s.tlb.length - 1⟩

/-- Successive misses from reset with no hit between them fill entries 0, 1, … in order, with the counters
42_tlb.md R147 gives. -/
def Obligations.MissesFillInOrder : Prop :=
  ∀ (cap : Nat) (new : List (Key × Word)), new.length ≤ cap → ∀ i, i < cap →
    (new.foldl (fun t kf => t.insert kf.1 kf.2) (Tlb.fresh cap))[i]? =
      some (match new[i]? with
        | some kf => ⟨true, kf.1, kf.2, cap - new.length + i⟩
        | none => ⟨false, 0#19, 0#32, i - new.length⟩)

/-! ## Preload -/

/-- VM_CREATE_PT: `PM[SEG] <- ADDR`, then for a positive ADDR the frame that holds it and the next are marked; a frame
out of range is F_BMRANGE and keeps what was written before (43_translation_sequencer.md R160). -/
def Obligations.VmCreatePtResult : Prop :=
  (∀ (seg : BitVec 9) (addr : Word), encode (.vmCreatePt seg addr) = 0x30#8 ++ 0#5 ++ seg ++ 0#10 ++ addr) ∧
  ∀ (s : State) (seg : BitVec 9) (addr : Word), s.fatal = false →
    (s32 addr ≤ 0 →
      ∃ m, exec (.vmCreatePt seg addr) s = .next { s with pm := m, rsp := some 0#64 } ∧
        storedAt s.pm m seg.toNat addr) ∧
    (0 < s32 addr → addr.toNat / 512 + 1 < s.bm.bits →
      ∃ m b, exec (.vmCreatePt seg addr) s = .next { s with pm := m, bm := b, rsp := some 0#64 } ∧
        storedAt s.pm m seg.toNat addr ∧ markedAt s.bm b [addr.toNat / 512, addr.toNat / 512 + 1]) ∧
    (0 < s32 addr → addr.toNat / 512 + 1 = s.bm.bits →
      ∃ m b, exec (.vmCreatePt seg addr) s =
          .next { s with pm := m, bm := b, fatal := true, fcode := 0x9#4, rsp := some 0x9000000000000000#64 } ∧
        storedAt s.pm m seg.toNat addr ∧ markedAt s.bm b [addr.toNat / 512]) ∧
    (0 < s32 addr → s.bm.bits ≤ addr.toNat / 512 →
      ∃ m, exec (.vmCreatePt seg addr) s =
          .next { s with pm := m, fatal := true, fcode := 0x9#4, rsp := some 0x9000000000000000#64 } ∧
        storedAt s.pm m seg.toNat addr)

/-- VM_CREATE_PAGE: `PM[s32(PM[SEG]) + PAGE] <- ADDR`, then for a positive ADDR its frame is marked; an index out of
range is F_PMRANGE with nothing written, a frame out of range F_BMRANGE with the word kept
(43_translation_sequencer.md R161). -/
def Obligations.VmCreatePageResult : Prop :=
  (∀ (page : BitVec 10) (seg : BitVec 9) (addr : Word),
    encode (.vmCreatePage page seg addr) = 0x31#8 ++ 0#5 ++ seg ++ page ++ addr) ∧
  ∀ (s : State) (page : BitVec 10) (seg : BitVec 9) (addr : Word), s.fatal = false →
    (s.pageIndex seg page < 0 ∨ pmSize ≤ s.pageIndex seg page →
      exec (.vmCreatePage page seg addr) s =
        .next { s with fatal := true, fcode := 0xA#4, rsp := some 0xA000000000000000#64 }) ∧
    (0 ≤ s.pageIndex seg page → s.pageIndex seg page < pmSize →
      (s32 addr ≤ 0 →
        ∃ m, exec (.vmCreatePage page seg addr) s = .next { s with pm := m, rsp := some 0#64 } ∧
          storedAt s.pm m (s.pageIndex seg page).toNat addr) ∧
      (0 < s32 addr → addr.toNat / 512 < s.bm.bits →
        ∃ m b, exec (.vmCreatePage page seg addr) s = .next { s with pm := m, bm := b, rsp := some 0#64 } ∧
          storedAt s.pm m (s.pageIndex seg page).toNat addr ∧ markedAt s.bm b [addr.toNat / 512]) ∧
      (0 < s32 addr → s.bm.bits ≤ addr.toNat / 512 →
        ∃ m, exec (.vmCreatePage page seg addr) s =
            .next { s with pm := m, fatal := true, fcode := 0x9#4, rsp := some 0x9000000000000000#64 } ∧
          storedAt s.pm m (s.pageIndex seg page).toNat addr))

/-- VM_GET_PT: the word `PM[PM[SEG] + PAGE]` as it stands, or F_PMRANGE; nothing else changes
(43_translation_sequencer.md R162). -/
def Obligations.VmGetPtResult : Prop :=
  (∀ (seg : BitVec 9) (page : BitVec 10), encode (.vmGetPt seg page) = 0x32#8 ++ 0#5 ++ seg ++ page ++ 0#32) ∧
  ∀ (s : State) (seg : BitVec 9) (page : BitVec 10), s.fatal = false →
    (0 ≤ s.pageIndex seg page → s.pageIndex seg page < pmSize →
      exec (.vmGetPt seg page) s =
        .next { s with rsp := some (0#32 ++ s.pm.read (s.pageIndex seg page).toNat) }) ∧
    (s.pageIndex seg page < 0 ∨ pmSize ≤ s.pageIndex seg page →
      exec (.vmGetPt seg page) s =
        .next { s with fatal := true, fcode := 0xA#4, rsp := some 0xA000000000000000#64 })

/-! ## The direct path -/

/-- A pair that resolves: VM_READ and VM_WRITE report `PT[s,p] + offset` and do nothing else
(43_translation_sequencer.md R168). -/
def Obligations.DirectAccessResolved : Prop :=
  ∀ (s : State) (a : Word) (w : Bool) (frame : Word), s.fatal = false →
    s.resolvesTo (segmentOf a) (pageOf a) frame →
      exec (accessCommand w a false) s =
        .next { s with rsp := some (0#32 ++ BitVec.ofNat 32 (frame.toNat + (offsetOf a).toNat)) }

/-- `ST[s]` is −1, or a base with `PT[s,p]` = −1: PF on the direct path, for a read and a write, nothing else changed
(60_exceptions.md R191). -/
def Obligations.DirectAccessPageFault : Prop :=
  ∀ (s : State) (a : Word) (w : Bool), s.fatal = false →
    (s32 (s.segEntry (segmentOf a)) = -1 ∨
      s.pageReadable (segmentOf a) (pageOf a) ∧ s32 (s.pageEntry (segmentOf a) (pageOf a)) = -1) →
      exec (accessCommand w a false) s = .next { s with rsp := some 0x1000000000000000#64 }

/-- `ST[s]` is 0, or a base with `PT[s,p]` = 0: a direct read answers ERR and changes nothing else
(60_exceptions.md R192). -/
def Obligations.DirectReadUnbacked : Prop :=
  ∀ (s : State) (a : Word), s.fatal = false →
    (s32 (s.segEntry (segmentOf a)) = 0 ∨
      s.pageReadable (segmentOf a) (pageOf a) ∧ s32 (s.pageEntry (segmentOf a) (pageOf a)) = 0) →
      exec (.vmRead a false) s = .next { s with rsp := some 0x2000000000000000#64 }

/-- `ST[s]` is a base but `ST[s] + p` lies outside PM: F_PMRANGE, for a read and a write (60_exceptions.md R195). -/
def Obligations.DirectAccessOutOfRange : Prop :=
  ∀ (s : State) (a : Word) (w : Bool), s.fatal = false → s.tableBacked (segmentOf a) →
    (s.pageIndex (segmentOf a) (pageOf a) < 0 ∨ pmSize ≤ s.pageIndex (segmentOf a) (pageOf a)) →
      exec (accessCommand w a false) s =
        .next { s with fatal := true, fcode := 0xA#4, rsp := some 0xA000000000000000#64 }

/-- A write to an unallocated page of an existing table: the first free frame's base is recorded in `PT[s,p]`, the frame
is marked, and its base plus the offset is reported; nothing else changes (43_translation_sequencer.md R166,
R169). -/
def Obligations.WriteAllocatesPage : Prop :=
  ∀ (s : State) (a : Word) (n : Nat), s.fatal = false → s.bm.length ≤ 65536 →
    s.pageReadable (segmentOf a) (pageOf a) → s.pageEntry (segmentOf a) (pageOf a) = 0#32 → s.bm.firstFree n →
      ∃ m b, exec (.vmWrite a false) s =
          .next { s with pm := m, bm := b, rsp := some (BitVec.ofNat 64 (512 * n + (offsetOf a).toNat)) } ∧
        storedAt s.pm m (s.pageIndex (segmentOf a) (pageOf a)).toNat (BitVec.ofNat 32 (512 * n)) ∧
        markedAt s.bm b [n]

/-- A write to an unallocated segment whose new table reads 0 at the page: a table on the first free pair, then a page on
the first frame still free, are recorded and marked, and the page's base plus the offset is reported; nothing else
changes (43_translation_sequencer.md R169, R170). -/
def Obligations.WriteAllocatesTableAndPage : Prop :=
  ∀ (s : State) (a : Word) (n k : Nat), s.fatal = false → s.bm.length ≤ 65536 →
    s.segEntry (segmentOf a) = 0#32 → s.bm.firstFreePair n →
    512 * n + (pageOf a).toNat < pmSize → s.pm.read (512 * n + (pageOf a).toNat) = 0#32 →
    1 ≤ k → k < s.bm.bits → s.bm.cell k = false → k ≠ n → k ≠ n + 1 →
    (∀ j, j < k → 1 ≤ j → s.bm.cell j = true ∨ j = n ∨ j = n + 1) →
      ∃ m b, exec (.vmWrite a false) s =
          .next { s with pm := m, bm := b, rsp := some (BitVec.ofNat 64 (512 * k + (offsetOf a).toNat)) } ∧
        (∀ j, m.read j = if j = 512 * n + (pageOf a).toNat then BitVec.ofNat 32 (512 * k)
          else if j = (segmentOf a).toNat then BitVec.ofNat 32 (512 * n) else s.pm.read j) ∧
        markedAt s.bm b [n, n + 1, k]

/-- "retry from step 1": after the table allocation of a write, and after its page allocation, the write goes on as a write
issued in the state the allocation left (43_translation_sequencer.md R166). -/
def Obligations.WriteRetriesAfterAllocation : Prop :=
  ∀ (s : State) (a : Word) (n : Nat), s.fatal = false → s.bm.length ≤ 65536 →
    (s.segEntry (segmentOf a) = 0#32 → s.bm.firstFreePair n →
      exec (.vmWrite a false) s =
        exec (.vmWrite a false) { s with
          pm := s.pm.write (segmentOf a).toNat (BitVec.ofNat 32 (512 * n))
          bm := (s.bm.put n true).put (n + 1) true }) ∧
    (s.pageReadable (segmentOf a) (pageOf a) → s.pageEntry (segmentOf a) (pageOf a) = 0#32 → s.bm.firstFree n →
      exec (.vmWrite a false) s =
        exec (.vmWrite a false) { s with
          pm := s.pm.write (s.pageIndex (segmentOf a) (pageOf a)).toNat (BitVec.ofNat 32 (512 * n))
          bm := s.bm.put n true })

/-- A write that finds no free pair for its table, or no free frame for its page: F_ALLOC; only an allocation made on an
earlier pass stays (60_exceptions.md R193, R204). -/
def Obligations.WriteExhausted : Prop :=
  ∀ (s : State) (a : Word), s.fatal = false → s.bm.length ≤ 65536 →
    (s.segEntry (segmentOf a) = 0#32 → s.bm.noPair →
      exec (.vmWrite a false) s =
        .next { s with fatal := true, fcode := 0x8#4, rsp := some 0x8000000000000000#64 }) ∧
    (s.pageReadable (segmentOf a) (pageOf a) → s.pageEntry (segmentOf a) (pageOf a) = 0#32 → s.bm.full →
      exec (.vmWrite a false) s =
        .next { s with fatal := true, fcode := 0x8#4, rsp := some 0x8000000000000000#64 }) ∧
    ∀ n, s.segEntry (segmentOf a) = 0#32 → s.bm.firstFreePair n →
      512 * n + (pageOf a).toNat < pmSize → s.pm.read (512 * n + (pageOf a).toNat) = 0#32 →
      (∀ j, j < s.bm.bits → 1 ≤ j → s.bm.cell j = true ∨ j = n ∨ j = n + 1) →
        ∃ m b, exec (.vmWrite a false) s =
            .next { s with pm := m, bm := b, fatal := true, fcode := 0x8#4, rsp := some 0x8000000000000000#64 } ∧
          storedAt s.pm m (segmentOf a).toNat (BitVec.ofNat 32 (512 * n)) ∧ markedAt s.bm b [n, n + 1]

/-- No walk needs a fourth pass, in any state whose bitmap has at most the 65536 rows 00_scope.md R6 admits
(43_translation_sequencer.md R170). A fourth pass would be the fault of log 7 (DEDUCED); no other fault ends a walk
either. -/
def Obligations.WalkEndsWithinThreePasses : Prop :=
  ∀ (s : State) (a : Word) (w : Bool), s.bm.length ≤ 65536 → ∀ f, walk a w s ≠ .fault f

/-- Reads never allocate: neither PM nor the bitmap changes, with T = 0 the TLB neither, and a direct read repeated gives the
same answer and state (43_translation_sequencer.md R163, R174 a). -/
def Obligations.ReadsNeverAllocate : Prop :=
  ∀ (s u : State) (a : Word) (t : Bool), exec (.vmRead a t) s = .next u →
    u.pm = s.pm ∧ u.bm = s.bm ∧ (t = false → u.tlb = s.tlb) ∧
    (t = false → u.fatal = false → exec (.vmRead a false) u = .next u)

/-- A write changes only words that were 0 and cells that were free: an entry that was a base or −1 stays
(43_translation_sequencer.md R170, R174 e). -/
def Obligations.WritesOnlyFillZeros : Prop :=
  ∀ (s u : State) (a : Word) (t : Bool), exec (.vmWrite a t) s = .next u →
    (∀ j, s.pm.read j ≠ 0#32 → u.pm.read j = s.pm.read j) ∧ ∀ n, s.bm.cell n = true → u.bm.cell n = true

/-- Once a direct write has resolved, the same write and the same read give that answer again and change nothing
(43_translation_sequencer.md R174 b). -/
def Obligations.ResolvedWriteIsStable : Prop :=
  ∀ (s u : State) (a : Word) (r : ResponseWord), exec (.vmWrite a false) s = .next u → u.rsp = some r →
    r.extractLsb' 60 4 = 0#4 →
      exec (.vmWrite a false) u = .next u ∧ exec (.vmRead a false) u = .next u

/-! ## The TLB path -/

/-- A TLB-path access that hits: `frame + offset` with the hit marker, recency as by TLB_DOHIT, PM and the bitmap neither
read nor written, a read and a write alike (43_translation_sequencer.md R171). -/
def Obligations.TlbPathHit : Prop :=
  ∀ (s : State) (a : Word) (w : Bool) (i : Nat) (e : TlbEntry), s.fatal = false → s.tlb.firstHit (keyOf a) i e →
    ∃ t : Tlb, exec (accessCommand w a true) s =
        .next { s with tlb := t, rsp := some (0x08000000#32 ++ BitVec.ofNat 32 (e.frame.toNat + (offsetOf a).toNat)) } ∧
      s.tlb.promoted t i e

/-- A TLB-path access that misses ends as the direct path does, with the miss marker added to the response; when it
resolved, the key with the word `PT[s,p]` is inserted as by TLB_DOMISS, and else the TLB is as it was
(43_translation_sequencer.md R171, R172; 30_encoding.md R91). -/
def Obligations.TlbPathMiss : Prop :=
  ∀ (s u : State) (a : Word) (w : Bool) (r : ResponseWord), s.fatal = false → s.tlb.lacks (keyOf a) →
    exec (accessCommand w a false) s = .next u → u.rsp = some r →
    (r.extractLsb' 60 4 ≠ 0#4 →
      exec (accessCommand w a true) s = .next { u with rsp := some (r ||| 0x0400000000000000#64) }) ∧
    (r.extractLsb' 60 4 = 0#4 → ∀ v, s.tlb.victimAt v →
      ∃ t : Tlb, exec (accessCommand w a true) s =
          .next { u with tlb := t, rsp := some (r ||| 0x0400000000000000#64) } ∧
        s.tlb.replaced t v (keyOf a) (u.pageEntry (segmentOf a) (pageOf a)))

/-- While the TLB is coherent the two paths agree: the same PM, bitmap and latch, and the same response but for the marker
(43_translation_sequencer.md R172). -/
def Obligations.TlbPathAgreesWithDirectPath : Prop :=
  ∀ (s u : State) (a : Word) (w : Bool), s.tlbCoherent → s.tlb.ranked → s.tlb ≠ [] →
    exec (accessCommand w a false) s = .next u →
      ∃ (v : State) (r q : ResponseWord), exec (accessCommand w a true) s = .next v ∧
        v.pm = u.pm ∧ v.bm = u.bm ∧ v.fatal = u.fatal ∧ v.fcode = u.fcode ∧
        u.rsp = some r ∧ v.rsp = some q ∧ q &&& ~~~0x0C00000000000000#64 = r

/-- An access, on either path, keeps the TLB coherent with the page tables (20_memory.md R67). -/
def Obligations.AccessesKeepTheTlbCoherent : Prop :=
  ∀ (s u : State) (a : Word) (w t : Bool), s.tlbCoherent → exec (accessCommand w a t) s = .next u → u.tlbCoherent

/-! ## Clear and reset -/

/-- VM_CLEAR: every word of PM 0, the bitmap at its reset value, neither the TLB nor the latch changed
(43_translation_sequencer.md R175). -/
def Obligations.VmClearResult : Prop :=
  encode .vmClear = 0x3500000000000000#64 ∧
  ∀ s : State, s.fatal = false →
    ∃ m b, exec .vmClear s = .next { s with pm := m, bm := b, rsp := some 0#64 } ∧
      (∀ j, m.read j = 0#32) ∧ b.length = s.bm.length ∧ ∀ n, b.cell n = decide (n = 0)

/-- The state after reset, for every admitted configuration: PM, BM, TLB, FATAL and FCODE as 70_reset_and_hazards.md R220
gives them. -/
def Obligations.ResetValues : Prop :=
  ∀ c : Config,
    (∀ j, (State.resetWith c).pm.read j = 0#32) ∧
    (State.resetWith c).bm.length = c.bmRows ∧ (∀ n, (State.resetWith c).bm.cell n = decide (n = 0)) ∧
    (State.resetWith c).tlb.length = c.tlbCap ∧
    (∀ i, i < c.tlbCap → (State.resetWith c).tlb[i]? = some ⟨false, 0#19, 0#32, i⟩) ∧
    (State.resetWith c).fatal = false ∧ (State.resetWith c).fcode = 0#4

/-- RESET, from any state, the fatal one too, gives PM, BM, TLB, FATAL and FCODE their reset values
(60_exceptions.md R206). That it withdraws the response is the model's choice (log 4). -/
def Obligations.ResetInputResets : Prop :=
  ∀ (s : State) (rest : List HostEvent), s.inputs = .reset :: rest →
    step s = .next { State.resetWith s.config with inputs := rest }

/-- VM_CLEAR then TLB_RESET, from any state with the latch clear, leaves the state reset produces, but for the ports
(logs 3 and 4), which are set aside on the left (70_reset_and_hazards.md R226). -/
def Obligations.ClearAndTlbResetIsReset : Prop :=
  ∀ s t u : State, s.fatal = false → s.fcode = 0#4 → exec .vmClear s = .next t → exec .tlbReset t = .next u →
    { u with rsp := none, inputs := [] } = State.resetWith s.config

/-! ## Invariants and progress -/

/-- The invariant holds after reset, in every admitted configuration. That PM has a canonical form is the model's own
(log 1, DEDUCED); the response clause holds because reset leaves no response, which is the model's choice (log 4). -/
def Obligations.InvariantAtReset : Prop := ∀ c : Config, c.wf → (State.resetWith c).Inv

/-- Every step keeps the invariant. That PM has a canonical form is the model's own (log 1), and so is that RESET withdraws
the response (log 4). -/
def Obligations.InvariantIsKept : Prop := ∀ s t : State, s.Inv → step s = .next t → t.Inv

/-- Every step from a state with the invariant ends in a next state, and a command taken is answered and gone from the
inputs (43_translation_sequencer.md R177, 30_encoding.md R94). The inputs list is the model's own field (log 3), a step
without a command is the model's choice (log 5), and the two faults this rules out are the model's (logs 6 and 7). -/
def Obligations.EveryCommandIsAnswered : Prop :=
  ∀ s : State, s.Inv →
    (∃ t, step s = .next t) ∧
    ∀ (cw : CommandWord) (rest : List HostEvent), s.inputs = .command cw :: rest →
      ∃ t, step s = .next t ∧ t.rsp.isSome = true ∧ t.inputs = rest

/-- The data model holds after reset. -/
def Obligations.DataModelAtReset : Prop := State.reset.InDataModel

/-- Every command but the preload commands, BM_SET and BM_CLEAR keeps the data model: the bitmap mirrors the tables and
pages, no frames coincide, free frames hold zeros (10_state.md R30, 70_reset_and_hazards.md R234). -/
def Obligations.DataModelIsKept : Prop :=
  ∀ (s t : State) (i : Instr), s.InDataModel →
    (∀ row col val, i ≠ .bmSet row col val) → i ≠ .bmClear → (∀ seg addr, i ≠ .vmCreatePt seg addr) →
    (∀ page seg addr, i ≠ .vmCreatePage page seg addr) → exec i s = .next t → t.InDataModel

/-- Preload under the conditions of 70_reset_and_hazards.md R228 keeps the data model: an entry still 0, an address that is
−1, 0 or an aligned base, on frames still free, the table before the page. -/
def Obligations.WellFormedPreloadKeepsDataModel : Prop :=
  ∀ s t : State, s.InDataModel →
    (∀ (seg : BitVec 9) (addr : Word), s.segEntry seg = 0#32 → preloadAddress 2 addr →
      (0 < s32 addr → s.bm.cell (frameOf addr) = false ∧ s.bm.cell (frameOf addr + 1) = false) →
      exec (.vmCreatePt seg addr) s = .next t → t.InDataModel) ∧
    ∀ (page : BitVec 10) (seg : BitVec 9) (addr : Word), 0 < s32 (s.segEntry seg) → s.pageEntry seg page = 0#32 →
      preloadAddress 1 addr → (0 < s32 addr → s.bm.cell (frameOf addr) = false) →
      exec (.vmCreatePage page seg addr) s = .next t → t.InDataModel

/-! ## The host's rendering -/

/-- The tokens of a response: the marker if any, then the address as a signed number, `pf` or `err`; on any other status the
marker only (30_encoding.md R98). -/
def Obligations.TokensOfResponses : Prop :=
  ∀ r : Reply, tokens r.word =
    (match r.marker with | .hit => [Token.hit] | .miss => [Token.miss] | .none => []) ++
    (match r.status with
      | .ok => [Token.address r.data.toInt] | .pf => [Token.pageFault] | .err => [Token.error] | _ => [])
end

