-- ==== Sys2Proof/Laws/Bitmap.lean ====
section
/-! SUPPORT. The bitmap: what a write does to every cell, and what the two searches find. -/

namespace Sys2Proof.Machine

/-- Cell (0,0) reads as 1, whatever is stored. -/
@[simp] theorem Bitmap.cell_zero (b : Bitmap) : b.cell 0 = true := rfl

@[simp] theorem Bitmap.length_put (b : Bitmap) (n : Nat) (v : Bool) : (b.put n v).length = b.length := by
  unfold Bitmap.put; split <;> simp

@[simp] theorem Bitmap.bits_put (b : Bitmap) (n : Nat) (v : Bool) : (b.put n v).bits = b.bits := by
  simp [Bitmap.bits]

@[simp] theorem Bitmap.put_zero (b : Bitmap) (v : Bool) : b.put 0 v = b := rfl

theorem Bitmap.row_put_bit (row : BitVec 32) (c d : Nat) (hd : d < 32) (v : Bool) :
    (if v then row ||| BitVec.twoPow 32 c else row &&& ~~~(BitVec.twoPow 32 c)).getLsbD d =
      if d = c then v else row.getLsbD d := by
  cases v <;> by_cases h : d = c <;> simp [h, BitVec.getLsbD_twoPow, hd]
  omega

/-- What a write to a cell in range does to every cell: that cell becomes `v` unless it is cell 0, every other
stays. -/
theorem Bitmap.cell_put (b : Bitmap) (n m : Nat) (v : Bool) (hn : n < b.bits) :
    (b.put n v).cell m = if m = n ∧ n ≠ 0 then v else b.cell m := by
  unfold Bitmap.put
  split
  · next h => simp [h]
  · next h =>
    unfold Bitmap.cell
    by_cases hm : m = 0
    · simp [hm]; omega
    have hrow : n / bmWidth < b.length := by
      unfold Bitmap.bits at hn; simp only [bmWidth] at *; omega
    simp only [List.getD_eq_getElem?_getD, List.getElem?_modify]
    by_cases hr : n / bmWidth = m / bmWidth
    · have hml : m / bmWidth < b.length := hr ▸ hrow
      rw [List.getElem?_eq_getElem hml]
      simp only [hr, if_true, Option.map_eq_map, Option.map_some, Option.getD_some]
      rw [Bitmap.row_put_bit _ _ _ (Nat.mod_lt _ (by decide))]
      by_cases hmn : m = n
      · simp [hmn, h]
      · have : ¬ m % bmWidth = n % bmWidth := by simp only [bmWidth] at *; omega
        simp [hmn, this]
    · have : m ≠ n := fun e => hr (by rw [e])
      simp [hr, this]

@[simp] theorem Bitmap.length_fresh (rows : Nat) : (Bitmap.fresh rows).length = rows := by
  simp [Bitmap.fresh]

@[simp] theorem Bitmap.length_clear (b : Bitmap) : b.clear.length = b.length := by
  simp [Bitmap.clear]

/-- The reset value: cell 0 is 1, every other 0. -/
@[simp] theorem Bitmap.cell_fresh (rows n : Nat) : (Bitmap.fresh rows).cell n = decide (n = 0) := by
  unfold Bitmap.cell Bitmap.fresh
  by_cases hn : n = 0
  · simp [hn]
  · by_cases hr : n / bmWidth < rows
    · by_cases h0 : n / bmWidth = 0
      · have : n < 32 := by simp only [bmWidth] at h0; omega
        have hm : n % bmWidth = n := Nat.mod_eq_of_lt (by simpa using this)
        have hbit : (1#32).getLsbD n = false := by
          rw [BitVec.getLsbD_one]; simp [hn]
        have hrows : 0 < rows := by omega
        simp [List.getD_eq_getElem?_getD, h0, hn, hm, hrows, hbit]
      · simp [List.getD_eq_getElem?_getD, hr, h0, hn]
    · simp [List.getD_eq_getElem?_getD, hr, hn]

@[simp] theorem Bitmap.cell_clear (b : Bitmap) (n : Nat) : b.clear.cell n = decide (n = 0) :=
  Bitmap.cell_fresh _ _

theorem Bitmap.find_range'_eq_some {p : Nat → Bool} {len n : Nat} :
    (List.range' 1 len).find? p = some n ↔
      1 ≤ n ∧ n < 1 + len ∧ p n = true ∧ ∀ m, 1 ≤ m → m < n → p m = false := by
  rw [List.find?_range'_eq_some]
  simp only [List.mem_range'_1, Bool.not_eq_true']
  constructor
  · rintro ⟨hp, ⟨h1, h2⟩, h⟩
    exact ⟨h1, h2, hp, h⟩
  · rintro ⟨h1, h2, hp, h⟩
    exact ⟨hp, ⟨h1, h2⟩, h⟩

/-- `find_first_zero` finds the lowest free cell from 1 up. -/
theorem Bitmap.findFirstZero_eq_some {b : Bitmap} {n : Nat} :
    b.findFirstZero = some n ↔
      1 ≤ n ∧ n < b.bits ∧ b.cell n = false ∧ ∀ m, 1 ≤ m → m < n → b.cell m = true := by
  unfold Bitmap.findFirstZero
  rw [Bitmap.find_range'_eq_some]
  simp only [Bool.not_eq_true', Bool.not_eq_false']
  constructor
  · rintro ⟨h1, h2, h⟩; exact ⟨h1, by omega, h⟩
  · rintro ⟨h1, h2, h⟩; exact ⟨h1, by omega, h⟩

theorem Bitmap.findFirstZero_eq_none {b : Bitmap} :
    b.findFirstZero = none ↔ ∀ n, 1 ≤ n → n < b.bits → b.cell n = true := by
  unfold Bitmap.findFirstZero
  simp only [List.find?_eq_none, List.mem_range'_1, Bool.not_eq_true, Bool.not_eq_false']
  exact ⟨fun h n h1 h2 => h n ⟨h1, by omega⟩, fun h n hn => h n hn.1 (by omega)⟩

/-- `find_consecutive_zeros` finds the lowest cell from 1 up that is free with the cell after it. -/
theorem Bitmap.findConsecutiveZeros_eq_some {b : Bitmap} {n : Nat} :
    b.findConsecutiveZeros = some n ↔
      1 ≤ n ∧ n + 1 < b.bits ∧ (b.cell n = false ∧ b.cell (n + 1) = false) ∧
        ∀ m, 1 ≤ m → m < n → b.cell m = true ∨ b.cell (m + 1) = true := by
  unfold Bitmap.findConsecutiveZeros
  rw [Bitmap.find_range'_eq_some]
  simp only [Bool.and_eq_true, Bool.not_eq_true', Bool.and_eq_false_iff, Bool.not_eq_false']
  constructor
  · rintro ⟨h1, h2, h⟩; exact ⟨h1, by omega, h⟩
  · rintro ⟨h1, h2, h⟩; exact ⟨h1, by omega, h⟩

theorem Bitmap.findConsecutiveZeros_eq_none {b : Bitmap} :
    b.findConsecutiveZeros = none ↔
      ∀ n, 1 ≤ n → n + 1 < b.bits → b.cell n = true ∨ b.cell (n + 1) = true := by
  unfold Bitmap.findConsecutiveZeros
  simp only [List.find?_eq_none, List.mem_range'_1, Bool.and_eq_true, Bool.not_eq_true', not_and_or,
    Bool.not_eq_false]
  exact ⟨fun h n h1 h2 => h n ⟨h1, by omega⟩, fun h n hn => h n hn.1 (by omega)⟩

/-- The `set` of R126: none out of range, else the cell written. -/
theorem Bitmap.setAt_eq (b : Bitmap) (row col : Nat) (v : Bool) :
    b.setAt row col v =
      if row < b.length ∧ col < bmWidth then some (b.put (bmWidth * row + col) v) else none := by
  unfold Bitmap.setAt
  split <;> split <;> simp_all
  omega

end Sys2Proof.Machine
end

