-- ==== Sys2Proof/Laws/Memory.lean ====
section
/-! SUPPORT. Physical memory: read after write, and the canonical form is kept. -/

namespace Sys2Proof.Machine

@[simp] theorem Memory.read_nil (i : Nat) : Memory.read [] i = unlistedWord := rfl

@[simp] theorem Memory.read_cleared (i : Nat) : Memory.cleared.read i = unlistedWord := rfl

theorem Memory.read_cons (j : Nat) (w : Word) (rest : Memory) (i : Nat) :
    Memory.read ((j, w) :: rest) i = if i = j then w else Memory.read rest i := rfl

theorem Memory.read_dropCell (m : Memory) (i j : Nat) :
    (m.dropCell i).read j = if j = i then unlistedWord else m.read j := by
  induction m with
  | nil => simp [Memory.dropCell]
  | cons c rest ih =>
    obtain ⟨k, w⟩ := c
    simp only [Memory.dropCell] at ih
    by_cases hk : k = i
    · subst hk
      simp [Memory.dropCell, Memory.read_cons]
      split <;> simp_all
    · simp only [Memory.dropCell, ne_eq, hk, not_false_eq_true, decide_true, List.filter_cons_of_pos,
        Memory.read_cons, ih]
      by_cases hjk : j = k
      · subst hjk; simp [hk]
      · simp [hjk]

theorem Memory.read_insertCell (m : Memory) (i j : Nat) (v : Word) (hi : ∀ c ∈ m, c.1 ≠ i) :
    (m.insertCell i v).read j = if j = i then v else m.read j := by
  induction m with
  | nil => simp [Memory.insertCell, Memory.read_cons]
  | cons c rest ih =>
    obtain ⟨k, w⟩ := c
    have hk : k ≠ i := hi (k, w) (by simp)
    have := ih fun c hc => hi c (by simp [hc])
    by_cases hlt : i < k
    · simp [Memory.insertCell, hlt, Memory.read_cons]
    · simp only [Memory.insertCell, hlt, if_false, Memory.read_cons, this]
      by_cases hjk : j = k
      · subst hjk; simp [hk]
      · simp [hjk]

theorem Memory.dropCell_free (m : Memory) (i : Nat) : ∀ c ∈ m.dropCell i, c.1 ≠ i := by
  simp [Memory.dropCell]

/-- What a write does to every word: the one at `i` becomes `v`, every other stays. -/
@[simp] theorem Memory.read_write (m : Memory) (i j : Nat) (v : Word) :
    (m.write i v).read j = if j = i then v else m.read j := by
  unfold Memory.write
  split
  · next h => simp [Memory.read_dropCell, h]
  · next h =>
    rw [Memory.read_insertCell _ _ _ _ (Memory.dropCell_free m i), Memory.read_dropCell]
    split <;> simp_all

theorem Memory.wf_cleared : Memory.cleared.wf := by simp [Memory.wf, Memory.cleared]

theorem Memory.wf_dropCell {m : Memory} (h : m.wf) (i : Nat) : (m.dropCell i).wf :=
  ⟨h.1.filter _, fun c hc => h.2 c (List.mem_of_mem_filter hc)⟩

theorem Memory.mem_insertCell {m : Memory} {i : Nat} {v : Word} {c : Nat × Word}
    (h : c ∈ m.insertCell i v) : c = (i, v) ∨ c ∈ m := by
  induction m with
  | nil => simpa [Memory.insertCell] using h
  | cons d rest ih =>
    obtain ⟨j, w⟩ := d
    simp only [Memory.insertCell] at h
    split at h
    · simpa using h
    · rcases List.mem_cons.mp h with h | h
      · exact .inr (by simp [h])
      · rcases ih h with h | h
        · exact .inl h
        · exact .inr (by simp [h])

theorem Memory.wf_insertCell {m : Memory} {i : Nat} {v : Word} (h : m.wf) (hi : i < pmSize)
    (hv : v ≠ unlistedWord) (hfree : ∀ c ∈ m, c.1 ≠ i) : (m.insertCell i v).wf := by
  refine ⟨?_, fun c hc => ?_⟩
  · obtain ⟨hp, -⟩ := h
    induction m with
    | nil => simp [Memory.insertCell]
    | cons d rest ih =>
      obtain ⟨j, w⟩ := d
      have hd := List.pairwise_cons.mp hp
      have hj : j ≠ i := hfree (j, w) (by simp)
      simp only [Memory.insertCell]
      split
      · next hlt =>
        refine List.pairwise_cons.mpr ⟨fun c hc => ?_, hp⟩
        rcases List.mem_cons.mp hc with rfl | hc
        · exact hlt
        · exact lt_trans hlt (hd.1 c hc)
      · next hge =>
        refine List.pairwise_cons.mpr ⟨fun c hc => ?_, ih (fun c hc => hfree c (by simp [hc])) hd.2⟩
        rcases Memory.mem_insertCell hc with rfl | hc
        · show j < i
          omega
        · exact hd.1 c hc
  · rcases Memory.mem_insertCell hc with rfl | hc
    · exact ⟨hi, hv⟩
    · exact h.2 c hc

/-- A write inside PM keeps the canonical form. -/
theorem Memory.wf_write {m : Memory} {i : Nat} {v : Word} (h : m.wf) (hi : i < pmSize) :
    (m.write i v).wf := by
  unfold Memory.write
  split
  · exact Memory.wf_dropCell h i
  · next hv => exact Memory.wf_insertCell (Memory.wf_dropCell h i) hi hv (Memory.dropCell_free m i)

end Sys2Proof.Machine
end

