-- ==== Sys2Proof/Laws/State.lean ====
section
/-! SUPPORT. One lemma per field per update of the state, true by rfl. -/

namespace Sys2Proof.Machine

@[simp] theorem answer_pm (r : Reply) (s : State) : (answer r s).pm = s.pm := rfl
@[simp] theorem answer_bm (r : Reply) (s : State) : (answer r s).bm = s.bm := rfl
@[simp] theorem answer_tlb (r : Reply) (s : State) : (answer r s).tlb = s.tlb := rfl
@[simp] theorem answer_fatal (r : Reply) (s : State) : (answer r s).fatal = s.fatal := rfl
@[simp] theorem answer_fcode (r : Reply) (s : State) : (answer r s).fcode = s.fcode := rfl
@[simp] theorem answer_rsp (r : Reply) (s : State) : (answer r s).rsp = some r.word := rfl
@[simp] theorem answer_inputs (r : Reply) (s : State) : (answer r s).inputs = s.inputs := rfl

@[simp] theorem takeFatal_pm (c : FatalCode) (m : Marker) (s : State) : (takeFatal c m s).pm = s.pm := rfl
@[simp] theorem takeFatal_bm (c : FatalCode) (m : Marker) (s : State) : (takeFatal c m s).bm = s.bm := rfl
@[simp] theorem takeFatal_tlb (c : FatalCode) (m : Marker) (s : State) : (takeFatal c m s).tlb = s.tlb := rfl
@[simp] theorem takeFatal_fatal (c : FatalCode) (m : Marker) (s : State) : (takeFatal c m s).fatal = true := rfl
@[simp] theorem takeFatal_fcode (c : FatalCode) (m : Marker) (s : State) : (takeFatal c m s).fcode = c.code := rfl
@[simp] theorem takeFatal_rsp (c : FatalCode) (m : Marker) (s : State) : (takeFatal c m s).rsp = some (Reply.word { status := c.status, marker := m }) := rfl
@[simp] theorem takeFatal_inputs (c : FatalCode) (m : Marker) (s : State) : (takeFatal c m s).inputs = s.inputs := rfl

@[simp] theorem takeInput_pm (rest : List HostEvent) (s : State) : (takeInput rest s).pm = s.pm := rfl
@[simp] theorem takeInput_bm (rest : List HostEvent) (s : State) : (takeInput rest s).bm = s.bm := rfl
@[simp] theorem takeInput_tlb (rest : List HostEvent) (s : State) : (takeInput rest s).tlb = s.tlb := rfl
@[simp] theorem takeInput_fatal (rest : List HostEvent) (s : State) : (takeInput rest s).fatal = s.fatal := rfl
@[simp] theorem takeInput_fcode (rest : List HostEvent) (s : State) : (takeInput rest s).fcode = s.fcode := rfl
@[simp] theorem takeInput_rsp (rest : List HostEvent) (s : State) : (takeInput rest s).rsp = s.rsp := rfl
@[simp] theorem takeInput_inputs (rest : List HostEvent) (s : State) : (takeInput rest s).inputs = rest := rfl

@[simp] theorem presentCommand_pm (cw : CommandWord) (s : State) : (presentCommand cw s).pm = s.pm := rfl
@[simp] theorem presentCommand_bm (cw : CommandWord) (s : State) : (presentCommand cw s).bm = s.bm := rfl
@[simp] theorem presentCommand_tlb (cw : CommandWord) (s : State) : (presentCommand cw s).tlb = s.tlb := rfl
@[simp] theorem presentCommand_fatal (cw : CommandWord) (s : State) : (presentCommand cw s).fatal = s.fatal := rfl
@[simp] theorem presentCommand_fcode (cw : CommandWord) (s : State) : (presentCommand cw s).fcode = s.fcode := rfl
@[simp] theorem presentCommand_rsp (cw : CommandWord) (s : State) : (presentCommand cw s).rsp = s.rsp := rfl
@[simp] theorem presentCommand_inputs (cw : CommandWord) (s : State) : (presentCommand cw s).inputs = .command cw :: s.inputs := rfl

@[simp] theorem answerIllegal_pm (s : State) : (answerIllegal s).pm = s.pm := rfl
@[simp] theorem answerIllegal_bm (s : State) : (answerIllegal s).bm = s.bm := rfl
@[simp] theorem answerIllegal_tlb (s : State) : (answerIllegal s).tlb = s.tlb := rfl
@[simp] theorem answerIllegal_fatal (s : State) : (answerIllegal s).fatal = s.fatal := rfl
@[simp] theorem answerIllegal_fcode (s : State) : (answerIllegal s).fcode = s.fcode := rfl
@[simp] theorem answerIllegal_rsp (s : State) : (answerIllegal s).rsp = some (Reply.word { status := .illegal }) := rfl
@[simp] theorem answerIllegal_inputs (s : State) : (answerIllegal s).inputs = s.inputs := rfl

@[simp] theorem clearBitmap_pm (s : State) : (clearBitmap s).pm = s.pm := rfl
@[simp] theorem clearBitmap_bm (s : State) : (clearBitmap s).bm = s.bm.clear := rfl
@[simp] theorem clearBitmap_tlb (s : State) : (clearBitmap s).tlb = s.tlb := rfl
@[simp] theorem clearBitmap_fatal (s : State) : (clearBitmap s).fatal = s.fatal := rfl
@[simp] theorem clearBitmap_fcode (s : State) : (clearBitmap s).fcode = s.fcode := rfl
@[simp] theorem clearBitmap_rsp (s : State) : (clearBitmap s).rsp = s.rsp := rfl
@[simp] theorem clearBitmap_inputs (s : State) : (clearBitmap s).inputs = s.inputs := rfl

@[simp] theorem resetTlb_pm (s : State) : (resetTlb s).pm = s.pm := rfl
@[simp] theorem resetTlb_bm (s : State) : (resetTlb s).bm = s.bm := rfl
@[simp] theorem resetTlb_tlb (s : State) : (resetTlb s).tlb = s.tlb.reset := rfl
@[simp] theorem resetTlb_fatal (s : State) : (resetTlb s).fatal = s.fatal := rfl
@[simp] theorem resetTlb_fcode (s : State) : (resetTlb s).fcode = s.fcode := rfl
@[simp] theorem resetTlb_rsp (s : State) : (resetTlb s).rsp = s.rsp := rfl
@[simp] theorem resetTlb_inputs (s : State) : (resetTlb s).inputs = s.inputs := rfl

@[simp] theorem takeReset_pm (rest : List HostEvent) (s : State) : (takeReset rest s).pm = Memory.cleared := rfl
@[simp] theorem takeReset_bm (rest : List HostEvent) (s : State) : (takeReset rest s).bm = Bitmap.fresh s.bm.length := rfl
@[simp] theorem takeReset_tlb (rest : List HostEvent) (s : State) : (takeReset rest s).tlb = Tlb.fresh s.tlb.length := rfl
@[simp] theorem takeReset_fatal (rest : List HostEvent) (s : State) : (takeReset rest s).fatal = false := rfl
@[simp] theorem takeReset_fcode (rest : List HostEvent) (s : State) : (takeReset rest s).fcode = 0#4 := rfl
@[simp] theorem takeReset_rsp (rest : List HostEvent) (s : State) : (takeReset rest s).rsp = none := rfl
@[simp] theorem takeReset_inputs (rest : List HostEvent) (s : State) : (takeReset rest s).inputs = rest := rfl

@[simp] theorem resetWith_pm (c : Config) : (State.resetWith c).pm = Memory.cleared := rfl
@[simp] theorem resetWith_bm (c : Config) : (State.resetWith c).bm = Bitmap.fresh c.bmRows := rfl
@[simp] theorem resetWith_tlb (c : Config) : (State.resetWith c).tlb = Tlb.fresh c.tlbCap := rfl
@[simp] theorem resetWith_fatal (c : Config) : (State.resetWith c).fatal = false := rfl
@[simp] theorem resetWith_fcode (c : Config) : (State.resetWith c).fcode = 0#4 := rfl
@[simp] theorem resetWith_rsp (c : Config) : (State.resetWith c).rsp = none := rfl
@[simp] theorem resetWith_inputs (c : Config) : (State.resetWith c).inputs = [] := rfl

@[simp] theorem withFetchWord_eq (s : State) (nbits w : Nat) :
    s.withFetchWord nbits w = presentCommand (BitVec.ofNat 64 (w % 2 ^ nbits)) s := rfl

end Sys2Proof.Machine
end

