-- ==== Sys2Proof/Laws/Tlb.lean ====
section
/-! SUPPORT. The TLB's entry file: what a lookup finds and what each update does to every entry. -/

namespace Sys2Proof.Machine

@[simp] theorem Tlb.length_fresh (cap : Nat) : (Tlb.fresh cap).length = cap := by simp [Tlb.fresh]

@[simp] theorem Tlb.length_reset (t : Tlb) : t.reset.length = t.length := by simp [Tlb.reset]

@[simp] theorem Tlb.length_promote (t : Tlb) (i : Nat) (e : TlbEntry) : (t.promote i e).length = t.length := by
  simp [Tlb.promote]

@[simp] theorem Tlb.length_insert (t : Tlb) (k : Key) (frame : Word) : (t.insert k frame).length = t.length := by
  simp [Tlb.insert]

theorem Tlb.getElem?_fresh (cap i : Nat) :
    (Tlb.fresh cap)[i]? = if i < cap then some ⟨false, 0#19, 0#32, i⟩ else none := by
  simp only [Tlb.fresh, List.getElem?_map]
  split <;> simp_all

/-- A lookup that finds index `i`: the entry there holds the key and none below it does. -/
theorem Tlb.hitIndex_eq_some {t : Tlb} {k : Key} {i : Nat} :
    t.hitIndex k = some i ↔
      (∃ e, t[i]? = some e ∧ e.holds k = true) ∧ ∀ j e, j < i → t[j]? = some e → e.holds k = false := by
  unfold Tlb.hitIndex
  rw [List.findIdx?_eq_some_iff_getElem]
  constructor
  · rintro ⟨h, hp, hlt⟩
    refine ⟨⟨t[i], List.getElem?_eq_getElem h, hp⟩, fun j e hj he => ?_⟩
    obtain ⟨hjl, rfl⟩ := List.getElem?_eq_some_iff.mp he
    simpa using hlt j hj
  · rintro ⟨⟨e, he, hp⟩, hlt⟩
    obtain ⟨h, rfl⟩ := List.getElem?_eq_some_iff.mp he
    exact ⟨h, hp, fun j hj => by simpa using hlt j _ hj (List.getElem?_eq_getElem (by omega))⟩

theorem Tlb.hitIndex_eq_none {t : Tlb} {k : Key} :
    t.hitIndex k = none ↔ ∀ e ∈ t, e.holds k = false := by
  simp [Tlb.hitIndex, List.findIdx?_eq_none_iff]

@[simp] theorem TlbEntry.stepDown_valid (v : Nat) (e : TlbEntry) : (e.stepDown v).valid = e.valid := by
  unfold TlbEntry.stepDown; split <;> rfl

@[simp] theorem TlbEntry.stepDown_key (v : Nat) (e : TlbEntry) : (e.stepDown v).key = e.key := by
  unfold TlbEntry.stepDown; split <;> rfl

@[simp] theorem TlbEntry.stepDown_frame (v : Nat) (e : TlbEntry) : (e.stepDown v).frame = e.frame := by
  unfold TlbEntry.stepDown; split <;> rfl

theorem TlbEntry.stepDown_lru (v : Nat) (e : TlbEntry) :
    (e.stepDown v).lru = if v < e.lru then e.lru - 1 else e.lru := by
  unfold TlbEntry.stepDown; split <;> rfl

/-- What a hit does to every entry. -/
theorem Tlb.getElem?_promote (t : Tlb) (i j : Nat) (e : TlbEntry) (hi : i < t.length) :
    (t.promote i e)[j]? =
      if j = i then some { e with lru := t.length - 1 } else t[j]?.map (TlbEntry.stepDown e.lru) := by
  by_cases h : j = i
  · subst h; simp [Tlb.promote, hi]
  · simp [Tlb.promote, h, List.getElem?_set_ne (Ne.symm h)]

/-- What a miss does to every entry. -/
theorem Tlb.getElem?_insert (t : Tlb) (k : Key) (frame : Word) (j : Nat) :
    (t.insert k frame)[j]? =
      t[j]?.map fun e => if e.lru = 0 then ⟨true, k, frame, t.length - 1⟩ else { e with lru := e.lru - 1 } := by
  simp [Tlb.insert]

theorem Tlb.hasVictim_iff (t : Tlb) : t.hasVictim = true ↔ t.countP (fun e => e.lru == 0) = 1 := by
  simp [Tlb.hasVictim]

end Sys2Proof.Machine
end

