-- ==== Sys2Proof/Laws/Ops.lean ====
section
/-! SUPPORT. For each shared operation, once, everything it can do; later proofs cite these. -/

namespace Sys2Proof.Machine

/-! ## Sequencing -/

@[simp] theorem andThen_ok {α β : Type} (a : α) (s : State) (k : α → State → Run β) :
    (Run.ok a s).andThen k = k a s := rfl

@[simp] theorem andThen_fatal {α β : Type} (c : FatalCode) (m : Marker) (s : State) (k : α → State → Run β) :
    (Run.fatal c m s : Run α).andThen k = .fatal c m s := rfl

@[simp] theorem andThen_fault {α β : Type} (f : Fault) (k : α → State → Run β) :
    (Run.fault f : Run α).andThen k = .fault f := rfl

theorem andThen_eq_ok {α β : Type} {r : Run α} {k : α → State → Run β} {b : β} {t : State} :
    r.andThen k = .ok b t ↔ ∃ a s, r = .ok a s ∧ k a s = .ok b t := by
  cases r <;> simp

theorem andThen_eq_fatal {α β : Type} {r : Run α} {k : α → State → Run β} {c : FatalCode} {m : Marker} {t : State} :
    r.andThen k = .fatal c m t ↔ r = .fatal c m t ∨ ∃ a s, r = .ok a s ∧ k a s = .fatal c m t := by
  cases r <;> simp

theorem andThen_eq_fault {α β : Type} {r : Run α} {k : α → State → Run β} {f : Fault} :
    r.andThen k = .fault f ↔ r = .fault f ∨ ∃ a s, r = .ok a s ∧ k a s = .fault f := by
  cases r <;> simp

@[simp] theorem marked_ok {α : Type} (mk : Marker) (a : α) (s : State) :
    (Run.ok a s).marked mk = .ok a s := rfl

@[simp] theorem marked_fatal {α : Type} (mk : Marker) (c : FatalCode) (m : Marker) (s : State) :
    (Run.fatal c m s : Run α).marked mk = .fatal c mk s := rfl

@[simp] theorem marked_fault {α : Type} (mk : Marker) (f : Fault) :
    (Run.fault f : Run α).marked mk = .fault f := rfl

/-! ## The memory primitives -/

theorem inPm_iff (i : Int) : inPm i = true ↔ 0 ≤ i ∧ i < pmSize := by simp [inPm]

theorem memRead_in {i : Int} (h : inPm i = true) (s : State) : memRead i s = .ok (s.pm.read i.toNat) s := by
  simp [memRead, h]

theorem memRead_out {i : Int} (h : inPm i = false) (s : State) : memRead i s = .fatal .pmRange .none s := by
  simp [memRead, h, raise]

theorem memWrite_in {i : Int} (h : inPm i = true) (v : Word) (s : State) :
    memWrite i v s = .ok () { s with pm := s.pm.write i.toNat v } := by
  simp [memWrite, h]

theorem memWrite_out {i : Int} (h : inPm i = false) (v : Word) (s : State) :
    memWrite i v s = .fatal .pmRange .none s := by
  simp [memWrite, h, raise]

/-- A segment number is an index of PM (20_memory.md R60). -/
theorem inPm_segment (seg : BitVec 9) : inPm seg.toNat = true := by
  rw [inPm_iff]; have := seg.isLt; simp only [pmSize]; omega

@[simp] theorem memRead_segment (seg : BitVec 9) (s : State) :
    memRead seg.toNat s = .ok (s.pm.read seg.toNat) s := by
  rw [memRead_in (inPm_segment seg)]; rfl

@[simp] theorem memWrite_segment (seg : BitVec 9) (v : Word) (s : State) :
    memWrite seg.toNat v s = .ok () { s with pm := s.pm.write seg.toNat v } := by
  rw [memWrite_in (inPm_segment seg)]; rfl

/-! ## The bitmap -/

theorem bitmapSet_eq (row col : Nat) (v : Bool) (s : State) :
    bitmapSet row col v s =
      if row < s.bm.length ∧ col < bmWidth then .ok () { s with bm := s.bm.put (bmWidth * row + col) v }
      else .fatal .bmRange .none s := by
  unfold bitmapSet
  rw [Bitmap.setAt_eq]
  split <;> split <;> simp_all [raise]

/-- `Mark(f)` (41_bitmap_scanner.md R128). -/
theorem mark_eq (f : Nat) (s : State) :
    mark f s =
      if f < s.bm.bits then .ok () { s with bm := s.bm.put f true } else .fatal .bmRange .none s := by
  unfold mark
  rw [bitmapSet_eq]
  have h1 : bmWidth * (f / bmWidth) + f % bmWidth = f := Nat.div_add_mod f bmWidth
  have h2 : (f / bmWidth < s.bm.length ∧ f % bmWidth < bmWidth) ↔ f < s.bm.bits := by
    simp only [Bitmap.bits, bmWidth]; omega
  simp only [h1, h2]

theorem mark_in {f : Nat} {s : State} (h : f < s.bm.bits) :
    mark f s = .ok () { s with bm := s.bm.put f true } := by rw [mark_eq, if_pos h]

theorem mark_out {f : Nat} {s : State} (h : s.bm.bits ≤ f) : mark f s = .fatal .bmRange .none s := by
  rw [mark_eq, if_neg (by omega)]

theorem findFirstZero_some {s : State} {n : Nat} (h : s.bm.findFirstZero = some n) :
    findFirstZero s = .ok n s := by simp [findFirstZero, h]

theorem findFirstZero_none {s : State} (h : s.bm.findFirstZero = none) :
    findFirstZero s = .fatal .alloc .none s := by simp [findFirstZero, h, raise]

theorem findConsecutiveZeros_some {s : State} {n : Nat} (h : s.bm.findConsecutiveZeros = some n) :
    findConsecutiveZeros s = .ok n s := by simp [findConsecutiveZeros, h]

theorem findConsecutiveZeros_none {s : State} (h : s.bm.findConsecutiveZeros = none) :
    findConsecutiveZeros s = .fatal .alloc .none s := by simp [findConsecutiveZeros, h, raise]

/-! ## Demand allocation (43_translation_sequencer.md R169) -/

/-- `AllocTable`: the pair found is recorded and marked. -/
theorem allocTable_some {seg : BitVec 9} {s : State} {n : Nat} (h : s.bm.findConsecutiveZeros = some n) :
    allocTable seg s =
      .ok () { s with pm := s.pm.write seg.toNat (frameBase n), bm := (s.bm.put n true).put (n + 1) true } := by
  have hn := Bitmap.findConsecutiveZeros_eq_some.mp h
  unfold allocTable
  rw [findConsecutiveZeros_some h, andThen_ok, memWrite_segment, andThen_ok, mark_in (by simpa using by omega),
    andThen_ok, mark_in (by simpa using hn.2.1)]

theorem allocTable_none {seg : BitVec 9} {s : State} (h : s.bm.findConsecutiveZeros = none) :
    allocTable seg s = .fatal .alloc .none s := by
  unfold allocTable
  rw [findConsecutiveZeros_none h, andThen_fatal]

/-- `AllocPage`: the frame found is recorded and marked. -/
theorem allocPage_some {i : Int} {s : State} {n : Nat} (hi : inPm i = true) (h : s.bm.findFirstZero = some n) :
    allocPage i s = .ok () { s with pm := s.pm.write i.toNat (frameBase n), bm := s.bm.put n true } := by
  have hn := Bitmap.findFirstZero_eq_some.mp h
  unfold allocPage
  rw [findFirstZero_some h, andThen_ok, memWrite_in hi, andThen_ok, mark_in (by simpa using hn.2.1)]

theorem allocPage_none {i : Int} {s : State} (h : s.bm.findFirstZero = none) :
    allocPage i s = .fatal .alloc .none s := by
  unfold allocPage
  rw [findFirstZero_none h, andThen_fatal]

/-! ## The walk (R166) -/

/-- The parts of the state no walk writes. -/
structure SameBeside (s t : State) : Prop where
  tlb : t.tlb = s.tlb
  fatal : t.fatal = s.fatal
  fcode : t.fcode = s.fcode
  rsp : t.rsp = s.rsp
  inputs : t.inputs = s.inputs
  rows : t.bm.length = s.bm.length

theorem SameBeside.refl (s : State) : SameBeside s s := ⟨rfl, rfl, rfl, rfl, rfl, rfl⟩

theorem SameBeside.trans {s t u : State} (h : SameBeside s t) (g : SameBeside t u) : SameBeside s u :=
  ⟨g.tlb.trans h.tlb, g.fatal.trans h.fatal, g.fcode.trans h.fcode, g.rsp.trans h.rsp,
    g.inputs.trans h.inputs, g.rows.trans h.rows⟩

/-- The state a run ends in, where it ends in one. -/
def Run.state? {α : Type} : Run α → Option State
  | .ok _ s => some s
  | .fatal _ _ s => some s
  | .fault _ => none

theorem allocTable_same {seg : BitVec 9} {s t : State} (h : (allocTable seg s).state? = some t) :
    SameBeside s t := by
  cases hf : s.bm.findConsecutiveZeros with
  | none =>
    rw [allocTable_none hf] at h
    cases h; exact .refl s
  | some n =>
    rw [allocTable_some hf] at h
    cases h; exact ⟨rfl, rfl, rfl, rfl, rfl, by simp⟩

theorem allocPage_same {i : Int} {s t : State} (hi : inPm i = true) (h : (allocPage i s).state? = some t) :
    SameBeside s t := by
  cases hf : s.bm.findFirstZero with
  | none =>
    rw [allocPage_none hf] at h
    cases h; exact .refl s
  | some n =>
    rw [allocPage_some hi hf] at h
    cases h; exact ⟨rfl, rfl, rfl, rfl, rfl, by simp⟩

theorem andThen_same {α β : Type} {r : Run α} {k : α → State → Run β} {s t : State}
    (h : (r.andThen k).state? = some t) (hr : ∀ u, r.state? = some u → SameBeside s u)
    (hk : ∀ a u, (k a u).state? = some t → SameBeside u t) : SameBeside s t := by
  cases r with
  | ok a u => exact (hr u rfl).trans (hk a u h)
  | fatal c m u => exact hr t h
  | fault f => cases h

/-- One pass of the walk, with the segment entry and, where it is a base in range, the page entry read. -/
theorem walkPasses_succ (passes : Nat) (seg : BitVec 9) (page : BitVec 10) (off : BitVec 9) (write : Bool)
    (s : State) :
    walkPasses (passes + 1) seg page off write s =
      let st := s.pm.read seg.toNat
      let i := tableIndex st page
      let pt := s.pm.read i.toNat
      if s32 st = -1 then .ok .pageFault s
      else if s32 st = 0 then
        if write then (allocTable seg s).andThen fun _ t => walkPasses passes seg page off write t
        else .ok .error s
      else if inPm i then
        if s32 pt = -1 then .ok .pageFault s
        else if s32 pt = 0 then
          if write then (allocPage i s).andThen fun _ t => walkPasses passes seg page off write t
          else .ok .error s
        else .ok (.resolved (addOffset pt off) pt) s
      else .fatal .pmRange .none s := by
  simp only [walkPasses, memRead_segment, andThen_ok]
  split
  · rfl
  split
  · rfl
  by_cases hi : inPm (tableIndex (s.pm.read seg.toNat) page) = true
  · rw [memRead_in hi, andThen_ok, if_pos hi]
  · rw [memRead_out (by simpa using hi), andThen_fatal, if_neg hi]

/-- A walk, however it ends, writes only PM and the cells of the bitmap. -/
theorem walkPasses_same {passes : Nat} {seg : BitVec 9} {page : BitVec 10} {off : BitVec 9} {write : Bool}
    {s t : State} (h : (walkPasses passes seg page off write s).state? = some t) : SameBeside s t := by
  induction passes generalizing s with
  | zero => cases h
  | succ n ih =>
    rw [walkPasses_succ] at h
    simp only at h
    split at h
    · cases h; exact .refl _
    split at h
    · split at h
      · exact andThen_same h (fun u hu => allocTable_same hu) (fun _ _ hu => ih hu)
      · cases h; exact .refl _
    split at h
    · next hi =>
      split at h
      · cases h; exact .refl _
      split at h
      · split at h
        · exact andThen_same h (fun u hu => allocPage_same hi hu) (fun _ _ hu => ih hu)
        · cases h; exact .refl _
      · cases h; exact .refl _
    · cases h; exact .refl _

theorem walk_same {a : Word} {write : Bool} {s t : State} (h : (walk a write s).state? = some t) :
    SameBeside s t := walkPasses_same h

/-- A read's walk is one pass and writes nothing (R163, R170). -/
theorem walkPasses_read {passes : Nat} {seg : BitVec 9} {page : BitVec 10} {off : BitVec 9}
    {s t : State} (h : (walkPasses (passes + 1) seg page off false s).state? = some t) : t = s := by
  rw [walkPasses_succ] at h
  simp only [Bool.false_eq_true, if_false] at h
  split at h
  · cases h; rfl
  split at h
  · cases h; rfl
  split at h
  · split at h
    · cases h; rfl
    split at h
    · cases h; rfl
    · cases h; rfl
  · cases h; rfl

/-! ## The TLB -/

theorem doMiss_eq (k : Key) (frame : Word) (s : State) :
    doMiss k frame s =
      if s.tlb.hasVictim then .ok () { s with tlb := s.tlb.insert k frame } else .fault .noUniqueVictim := rfl

/-! ## Running a command -/

theorem finish_eq_next {r : Run Reply} {t : State} :
    finish r = .next t ↔
      (∃ rep s, r = .ok rep s ∧ t = answer rep s) ∨ ∃ c m s, r = .fatal c m s ∧ t = takeFatal c m s := by
  cases r <;> simp [finish, eq_comm]

/-- A command while the latch is set: HALTED, nothing else (60_exceptions.md R198). -/
theorem command_halted {body : State → Run Reply} {s : State} (h : s.fatal = true) :
    command body s = .next (answer { status := .halted } s) := by simp [command, h]

theorem command_running {body : State → Run Reply} {s : State} (h : s.fatal = false) :
    command body s = finish (body s) := by simp [command, h]

end Sys2Proof.Machine
end

