-- ==== Sys2Proof/Laws/PerInstr.lean ====
section
/-! SUPPORT. Per-instruction laws: `EncodesItsOpcode` says that the word of an instruction carries, in
`CW[63:56]`, the operation code of the instruction's row of the opcode table (30_encoding.md R80, R92). -/

namespace Sys2Proof.Laws

theorem opcField_high (opc : BitVec 8) (low : BitVec 56) : opcField (opc ++ low) = opc := by
  apply BitVec.eq_of_toNat_eq
  have := low.isLt
  have := opc.isLt
  rw [opcField, BitVec.extractLsb'_toNat, BitVec.toNat_append, ← Nat.shiftLeft_add_eq_or_of_lt low.isLt,
    Nat.shiftLeft_eq, Nat.shiftRight_eq_div_pow]
  omega

/-- Appending is associative, said for two pieces below an opcode. -/
theorem toNat_append_sum {m n : Nat} (x : BitVec m) (y : BitVec n) :
    (x ++ y).toNat = x.toNat * 2 ^ n + y.toNat := by
  rw [BitVec.toNat_append, ← Nat.shiftLeft_add_eq_or_of_lt y.isLt, Nat.shiftLeft_eq]

theorem opcField_formatZ (opc : BitVec 8) : opcField (formatZ opc) = opc := opcField_high opc 0#56

theorem opcField_formatV (opc : BitVec 8) (w t : Bool) (a : Word) : opcField (formatV opc w t a) = opc := by
  have h : formatV opc w t a = opc ++ (0#22 ++ BitVec.ofBool w ++ BitVec.ofBool t ++ a : BitVec 56) := by
    apply BitVec.eq_of_toNat_eq
    simp only [formatV, toNat_append_sum]
    omega
  rw [h, opcField_high]

theorem opcField_formatB (opc : BitVec 8) (row : BitVec 16) (col : BitVec 8) (val : Bool) :
    opcField (formatB opc row col val) = opc := by
  have h : formatB opc row col val = opc ++ (0#24 ++ row ++ col ++ 0#7 ++ BitVec.ofBool val : BitVec 56) := by
    apply BitVec.eq_of_toNat_eq
    simp only [formatB, toNat_append_sum]
    omega
  rw [h, opcField_high]

theorem opcField_formatK (opc : BitVec 8) (key : Key) (data : Word) : opcField (formatK opc key data) = opc := by
  have h : formatK opc key data = opc ++ (0#5 ++ key ++ data : BitVec 56) := by
    apply BitVec.eq_of_toNat_eq
    simp only [formatK, toNat_append_sum]
    omega
  rw [h, opcField_high]

/-- The operation code of the word is the row's. -/
def EncodesItsOpcode.Statement (i : Instr) : Prop := opcField (encode i) = opcField i.row.pattern

theorem EncodesItsOpcode.vaDecode (a : Word) :
    EncodesItsOpcode.Statement (.vaDecode a) :=
  (opcField_formatV _ _ _ _).trans (by simp only [Instr.row]; decide)

theorem EncodesItsOpcode.bmFfz :
    EncodesItsOpcode.Statement .bmFfz :=
  (opcField_formatZ _).trans (by simp only [Instr.row]; decide)

theorem EncodesItsOpcode.bmFcz :
    EncodesItsOpcode.Statement .bmFcz :=
  (opcField_formatZ _).trans (by simp only [Instr.row]; decide)

theorem EncodesItsOpcode.bmSet (row : BitVec 16) (col : BitVec 8) (val : Bool) :
    EncodesItsOpcode.Statement (.bmSet row col val) :=
  (opcField_formatB _ _ _ _).trans (by simp only [Instr.row]; decide)

theorem EncodesItsOpcode.bmClear :
    EncodesItsOpcode.Statement .bmClear :=
  (opcField_formatZ _).trans (by simp only [Instr.row]; decide)

theorem EncodesItsOpcode.tlbHitIdx (key : Key) :
    EncodesItsOpcode.Statement (.tlbHitIdx key) :=
  (opcField_formatK _ _ _).trans (by simp only [Instr.row]; decide)

theorem EncodesItsOpcode.tlbDoHit (key : Key) (idx : BitVec 8) :
    EncodesItsOpcode.Statement (.tlbDoHit key idx) :=
  (opcField_formatK _ _ _).trans (by simp only [Instr.row]; decide)

theorem EncodesItsOpcode.tlbDoMiss (key : Key) (frame : Word) :
    EncodesItsOpcode.Statement (.tlbDoMiss key frame) :=
  (opcField_formatK _ _ _).trans (by simp only [Instr.row]; decide)

theorem EncodesItsOpcode.tlbReset :
    EncodesItsOpcode.Statement .tlbReset :=
  (opcField_formatZ _).trans (by simp only [Instr.row]; decide)

theorem EncodesItsOpcode.vmCreatePt (seg : BitVec 9) (addr : Word) :
    EncodesItsOpcode.Statement (.vmCreatePt seg addr) :=
  (opcField_formatK _ _ _).trans (by simp only [Instr.row]; decide)

theorem EncodesItsOpcode.vmCreatePage (page : BitVec 10) (seg : BitVec 9) (addr : Word) :
    EncodesItsOpcode.Statement (.vmCreatePage page seg addr) :=
  (opcField_formatK _ _ _).trans (by simp only [Instr.row]; decide)

theorem EncodesItsOpcode.vmGetPt (seg : BitVec 9) (page : BitVec 10) :
    EncodesItsOpcode.Statement (.vmGetPt seg page) :=
  (opcField_formatK _ _ _).trans (by simp only [Instr.row]; decide)

theorem EncodesItsOpcode.vmRead (a : Word) (t : Bool) :
    EncodesItsOpcode.Statement (.vmRead a t) :=
  (opcField_formatV _ _ _ _).trans (by simp only [Instr.row]; decide)

theorem EncodesItsOpcode.vmWrite (a : Word) (t : Bool) :
    EncodesItsOpcode.Statement (.vmWrite a t) :=
  (opcField_formatV _ _ _ _).trans (by simp only [Instr.row]; decide)

theorem EncodesItsOpcode.vmClear :
    EncodesItsOpcode.Statement .vmClear :=
  (opcField_formatZ _).trans (by simp only [Instr.row]; decide)

end Sys2Proof.Laws
end

