-- ==== Sys2Proof/Tests/Slice0.lean ====
section
/-! SUPPORT. Tests. Words and expected results are those of spec/95_test_vectors.md (the vector is named in each
comment) unless a comment says they were worked by hand from a rule; then the witnesses: for each statement with
hypotheses, a concrete state and operands that meet them all, at the boundary of each clause. -/

namespace Sys2Proof.Tests

open Sys2Proof Sys2Proof.Machine

/-! ## Ill-formed words, one for each check of 30_encoding.md R93 (vectors E1) -/

/-- The word is refused for that reason, and no row of the opcode table admits it. -/
def refusedAs (r : Illegal) (cw : CommandWord) : Bool := decide (decode cw = .illegal r) && !decide (wellFormedWord cw)

theorem test_refuses_unknown_opcode :
    [0x0000000000000000#64, 0xFFFFFFFFFFFFFFFF#64, 0x0200000000000000#64, 0x3400000000000000#64,
      0x3600000000000000#64].all (refusedAs .unknownOpcode) := by decide

theorem test_refuses_formatV_bits :
    [0x0100000100000000#64, 0x0100000200000000#64, 0x3300000400000000#64].all (refusedAs .reservedBits) := by decide

theorem test_refuses_formatZ_bits : refusedAs .reservedBits 0x1000000000000001#64 := by decide

theorem test_refuses_formatB_bits :
    [0x1200000000000002#64, 0x1200000100000000#64].all (refusedAs .reservedBits) := by decide

theorem test_refuses_formatK_bits :
    [0x2000000A00000001#64, 0x2100000A00000100#64, 0x2208000000000000#64, 0x3000000100000200#64,
      0x3200140000000001#64].all (refusedAs .reservedBits) := by decide

/-! ## Each constructor's word, as the spec's listings write it, decodes to it -/

theorem test_decode_va : decode 0x0100000000180E05#64 = .command (.vaDecode 0x00180E05#32) := by decide  -- A1
theorem test_decode_ffz : decode 0x1000000000000000#64 = .command .bmFfz := by decide  -- S1
theorem test_decode_fcz : decode 0x1100000000000000#64 = .command .bmFcz := by decide  -- R92
theorem test_decode_bmSet : decode 0x12000000001F1F01#64 = .command (.bmSet 31#16 31#8 true) := by decide  -- B9
theorem test_decode_bmClear : decode 0x1300000000000000#64 = .command .bmClear := by decide  -- B12
theorem test_decode_hitIdx : decode 0x2007FFFF00000000#64 = .command (.tlbHitIdx 0x7FFFF#19) := by decide  -- T7
theorem test_decode_doHit : decode 0x2100002800000003#64 = .command (.tlbDoHit 40#19 3#8) := by decide  -- T2
theorem test_decode_doMiss : decode 0x22000014000000C8#64 = .command (.tlbDoMiss 20#19 200#32) := by decide  -- S4
theorem test_decode_tlbReset : decode 0x2300000000000000#64 = .command .tlbReset := by decide  -- T6
theorem test_decode_createPt : decode 0x30001800FFFFFFFF#64 = .command (.vmCreatePt 6#9 0xFFFFFFFF#32) := by decide  -- S3
theorem test_decode_createPage : decode 0x3100040500000406#64 = .command (.vmCreatePage 5#10 1#9 1030#32) := by decide  -- V7
theorem test_decode_getPt : decode 0x32000C0700000000#64 = .command (.vmGetPt 3#9 7#10) := by decide  -- P1
theorem test_decode_read : decode 0x3300000100080004#64 = .command (.vmRead 0x00080004#32 true) := by decide  -- P3
theorem test_decode_write : decode 0x3300000200180E05#64 = .command (.vmWrite 0x00180E05#32 false) := by decide  -- S5
theorem test_decode_vmClear : decode 0x3500000000000000#64 = .command .vmClear := by decide  -- V6

theorem test_decodeTableWord :
    decodeTableWord 64 0x22000014000000C8 = some (.tlbDoMiss 20#19 200#32) ∧ decodeTableWord 64 0 = none := by decide

/-! ## Single steps -/

/-- The state a step on the command word `cw` leads to. -/
def after (cw : Nat) (s : State) : Option State :=
  match step (s.withFetchWord 64 cw) with
  | .next t => some t
  | _ => none

/-- The response of a step on the command word `cw`. -/
def response (cw : Nat) (s : State) : Option ResponseWord := (after cw s).bind State.rsp

/-- BM_ROWS = 1, TLB_CAP = 2, reset. -/
def small : State := State.resetWith { bmRows := 1, tlbCap := 2 }

/-- `small` with the given words of PM and the given row. -/
def smallWith (pm : Memory) (row : BitVec 32) : State := { small with pm := pm, bm := [row] }

/-- S4 after its second command: keys 10 and 20 cached, 10 the older. -/
def twoKeys : State := { small with tlb := [⟨true, 10#19, 100#32, 0⟩, ⟨true, 20#19, 200#32, 1⟩] }

-- A3
theorem test_vaDecode_all_ones : response 0x01000000FFFFFFFF State.reset = some 0x000000000FFFFFFF#64 := by decide
-- E2: served while the latch is set
theorem test_vaDecode_while_fatal :
    response 0x01000000FFFFFFFF { small with fatal := true, fcode := 0x9#4 } = some 0x000000000FFFFFFF#64 := by decide
-- B3: row 0 full, the result in column 0 of row 1
theorem test_ffz_next_row :
    response 0x1000000000000000 { State.reset with bm := [0xFFFFFFFF#32, 0#32] } = some 0x0000000000010000#64 := by decide
-- B7
theorem test_ffz_exhausted :
    (after 0x1000000000000000 (smallWith [] 0xFFFFFFFF#32)).map (fun t => (t.rsp, t.fatal, t.fcode)) =
      some (some 0x8000000000000000#64, true, 0x8#4) := by decide
-- B4: the pair straddles the rows
theorem test_fcz_row_carry :
    response 0x1100000000000000 { State.reset with bm := [0x7FFFFFFF#32, 0#32] } = some 0x0000000000001F00#64 := by decide
-- B6: a lone zero in the last cell
theorem test_fcz_last_cell : response 0x1100000000000000 (smallWith [] 0x7FFFFFFF#32) = some 0x8000000000000000#64 := by decide
-- B9
theorem test_bmSet_row_out_of_range :
    (after 0x1200000000200001 State.reset).map (fun t => (t.rsp, t.fcode)) = some (some 0x9000000000000000#64, 0x9#4) := by decide
-- B13, third command
theorem test_bmSet_frees : (after 0x1200000000000100 (smallWith [] 0x7#32)).map State.bm = some [0x5#32] := by decide
-- B12
theorem test_bmClear : (after 0x1300000000000000 (smallWith [] 0xFF#32)).map State.bm = some [0x1#32] := by decide
-- T3: unused slots hold key 0 and match nothing
theorem test_hitIdx_unused : response 0x2000000000000000 State.reset = some 0x3000000000000000#64 := by decide
-- S4
theorem test_hitIdx_found : response 0x2000000A00000000 twoKeys = some 0#64 := by decide
-- S4, fourth command: key 20 goes down to 0
theorem test_doHit_promotes :
    (after 0x2100000A00000000 twoKeys).map (fun t => (t.rsp, t.tlb.map TlbEntry.lru)) =
      some (some 0x64#64, [1, 0]) := by decide
-- T3: key mismatch
theorem test_doHit_wrong_key : response 0x2100000B00000000 twoKeys = some 0xD000000000000000#64 := by decide
-- S4, continuation from the state before its hit, worked by hand from R146: key 10 is at 0 and evicted
theorem test_doMiss_evicts :
    (after 0x2200001E0000012C twoKeys).map State.tlb =
      some [⟨true, 30#19, 300#32, 1⟩, ⟨true, 20#19, 200#32, 0⟩] := by decide
-- T6
theorem test_tlbReset : (after 0x2300000000000000 twoKeys).map State.tlb = some (Tlb.fresh 2) := by decide
-- E2
theorem test_createPt_second_frame_out :
    (after 0x300004000007FE00 State.reset).map (fun t => (t.rsp, t.pm, t.bm.cell 1023)) =
      some (some 0x9000000000000000#64, [(1, 523776#32)], true) := by decide
-- S3: −1 is written and marks nothing
theorem test_createPt_minus_one :
    (after 0x30001800FFFFFFFF small).map (fun t => (t.pm, t.bm)) = some ([(6, 0xFFFFFFFF#32)], [0x1#32]) := by decide
-- S2
theorem test_createPage :
    (after 0x3100140000000400 (smallWith [(5, 512#32)] 0x7#32)).map State.pm =
      some [(5, 512#32), (512, 1024#32)] := by decide
-- E3, second row
theorem test_createPage_out_of_range :
    (after 0x3100100000000200 (smallWith [(4, 0xFFFFFFFF#32)] 0x1#32)).map (fun t => (t.rsp, t.pm)) =
      some (some 0xA000000000000000#64, [(4, 0xFFFFFFFF#32)]) := by decide
-- S2
theorem test_getPt : response 0x3200140000000000 (smallWith [(5, 512#32), (512, 1024#32)] 0x7#32) = some 0x400#64 := by decide
-- E3, first row
theorem test_getPt_out_of_range :
    response 0x3200100000000000 (smallWith [(4, 0xFFFFFFFF#32)] 0x1#32) = some 0xA000000000000000#64 := by decide
-- V11: a page entry of −2, the sum modulo 2^32
theorem test_read_wraps :
    response 0x3300000000080005 (smallWith [(1, 512#32), (512, 0xFFFFFFFE#32)] 0x7#32) = some 3#64 := by decide
-- V10: a stale entry still hits
theorem test_read_hit :
    response 0x3300000100080003 { small with tlb := [⟨true, 1024#19, 1536#32, 1⟩, ⟨false, 0#19, 0#32, 0⟩] } =
      some 0x0800000000000603#64 := by decide
-- S5
theorem test_write_allocates_both :
    (after 0x3300000200180E05 small).map (fun t => (t.rsp, t.pm, t.bm)) =
      some (some 0x605#64, [(3, 512#32), (519, 1536#32)], [0xF#32]) := by decide
-- E5: the table allocated on pass 1 stays
theorem test_write_partial :
    (after 0x3300000200000000 (smallWith [] 0xFFFFFFF9#32)).map (fun t => (t.rsp, t.pm, t.bm)) =
      some (some 0x8000000000000000#64, [(0, 512#32)], [0xFFFFFFFF#32]) := by decide
-- V6
theorem test_vmClear :
    (after 0x3500000000000000 (smallWith [(3, 512#32)] 0xF#32)).map (fun t => (t.pm, t.bm)) = some ([], [0x1#32]) := by decide
-- P2: its layout is well formed; S2's is not, its frames overlap (90_conflicts.md C5)
theorem test_layout_wellFormed :
    (Layout.mk [(2, 1024#32), (6, 0xFFFFFFFF#32)] [(0, 2, 4096#32), (1, 2, 0xFFFFFFFF#32)]).wellFormed ∧
    ¬ (Layout.mk [(5, 512#32)] [(0, 5, 1024#32)]).wellFormed := by decide
-- 30_encoding.md R98's examples
theorem test_tokens :
    tokens 0x0400000000000605#64 = [.miss, .address 1541] ∧ tokens 0x0800000000000605#64 = [.hit, .address 1541] ∧
    tokens 0x1400000000000000#64 = [.miss, .pageFault] ∧ tokens 0x8400000000000000#64 = [.miss] := by decide

/-- The next state of an outcome, if it is one. -/
def ran : Host.Outcome State Fault Refusal → Option State
  | .next t => some t
  | _ => none

theorem next_of_ran : ∀ {o : Host.Outcome State Fault Refusal} {t : State}, ran o = some t → o = .next t
  | .next _, _, h => congrArg _ (Option.some.inj h)

/-! ## Witnesses: concrete instances that meet each statement's hypotheses -/

/-- `small` with something on the port and the latch set. -/
def halted : State := { small with fatal := true, fcode := 0x8#4, rsp := some 0x8000000000000000#64 }

theorem wit_EncodeOfDecode : decode 0x2007FFFF00000000#64 = .command (.tlbHitIdx 0x7FFFF#19) := by decide

theorem wit_DecoderAcceptsTheTablesWords :
    wellFormedWord 0x2207FFFFFFFFFFFF#64 ∧ decode 0x2207FFFFFFFFFFFF#64 = .command (.tlbDoMiss 0x7FFFF#19 0xFFFFFFFF#32) := by
  decide

theorem wit_OpcodeRowsAreDisjoint :
    (Instr.vmRead 0#32 false).row ∈ opcodeTable ∧
    (Instr.vmRead 0#32 false).row.admits 0x33000001FFFFFFFF#64 := by decide

theorem wit_StepRunsTheDecodedCommand :
    ({ small with inputs := [.command 0x1000000000000000#64] }).inputs = .command 0x1000000000000000#64 :: [] ∧
    decode 0x1000000000000000#64 = .command .bmFfz := by decide

theorem wit_IllegalWordIsRefused :
    ({ halted with inputs := [.command 0#64, .reset] }).inputs = .command 0#64 :: [.reset] ∧
    ¬ wellFormedWord 0#64 := by decide

theorem wit_HaltedRefusal : halted.fatal = true ∧ ∀ a, Instr.vmClear ≠ .vaDecode a := by
  refine ⟨by decide, fun a => by simp⟩

theorem wit_FatalStateIsFrozen :
    let s := { halted with inputs := [.command 0x3500000000000000#64] }
    s.fatal = true ∧ s.inputs.head? ≠ some .reset ∧
      step s = .next { halted with rsp := some 0xF000000000000000#64 } := by
  refine ⟨by decide, by decide, rfl⟩

theorem wit_StatusTable : small.fatal = false ∧ exec .bmFfz small = .next { small with rsp := some 0x100#64 } :=
  ⟨rfl, rfl⟩

theorem wit_ConfigurationIsFixed :
    step { small with inputs := [.command 0x1000000000000000#64] } = .next { small with rsp := some 0x100#64 } := rfl

theorem wit_DiscardedBitsAreIgnored : (0xF0180E05#32).toNat % 2 ^ 28 = (0x00180E05#32).toNat % 2 ^ 28 := by decide

theorem wit_BmFfzResult_first : small.fatal = false ∧ small.bm.length ≤ 65536 ∧ small.bm.firstFree 1 := by decide
theorem wit_BmFfzResult_last : (smallWith [] 0x7FFFFFFF#32).bm.firstFree 31 := by decide
theorem wit_BmFfzResult_full :
    (smallWith [] 0xFFFFFFFF#32).fatal = false ∧ (smallWith [] 0xFFFFFFFF#32).bm.full := by decide

theorem wit_BmFczResult_first : small.fatal = false ∧ small.bm.length ≤ 65536 ∧ small.bm.firstFreePair 1 := by decide
theorem wit_BmFczResult_last : (smallWith [] 0x3FFFFFFF#32).bm.firstFreePair 30 := by decide
theorem wit_BmFczResult_none : (smallWith [] 0x7FFFFFFF#32).fatal = false ∧ (smallWith [] 0x7FFFFFFF#32).bm.noPair := by decide

theorem wit_LaterPairNeverOverlaps :
    Bitmap.findConsecutiveZeros [0x1#32] = some 1 ∧ markedAt [0x1#32] [0x7#32] [1, 1 + 1] ∧
    Bitmap.findConsecutiveZeros [0x7#32] = some 3 := by
  refine ⟨by decide, ⟨by decide, fun n => ?_⟩, by decide⟩
  have h : ([0x7#32] : Bitmap) = (Bitmap.put [0x1#32] 1 true).put 2 true := by decide
  rw [h, Bitmap.cell_put _ _ _ _ (by decide), Bitmap.cell_put _ _ _ _ (by decide)]
  by_cases h1 : n = 1 <;> by_cases h2 : n = 2 <;> simp_all

theorem wit_SearchesAreMonotone :
    Bitmap.findFirstZero [0x7#32] = some 3 ∧ Bitmap.findConsecutiveZeros [0x7#32] = some 3 ∧
    ([0x7#32] : Bitmap).length = ([0x1#32] : Bitmap).length ∧
    ∀ n, Bitmap.cell [0x1#32] n = true → Bitmap.cell [0x7#32] n = true := by
  refine ⟨by decide, by decide, rfl, fun n h => ?_⟩
  have h0 : n = 0 := by simpa using (Bitmap.cell_fresh 1 n).symm.trans h
  subst h0; rfl

theorem wit_BmSetResult_in : small.fatal = false ∧ (0#16).toNat < small.bm.length ∧ (31#8).toNat < 32 := by decide
theorem wit_BmSetResult_reserved : (0#16).toNat < small.bm.length ∧ (0#8).toNat < 32 := by decide
theorem wit_BmSetResult_row : small.bm.length ≤ (1#16).toNat := by decide
theorem wit_BmSetResult_col : 32 ≤ (32#8).toNat := by decide

/-- BM_CLEAR, TLB_RESET and VM_CLEAR ask only for a clear latch. -/
theorem wit_clear_latch : small.fatal = false ∧ small.fcode = 0#4 := by decide

theorem wit_TlbHitIdxResult_first :
    twoKeys.fatal = false ∧ twoKeys.tlb.length ≤ 256 ∧ twoKeys.tlb.firstHit 10#19 0 ⟨true, 10#19, 100#32, 0⟩ := by decide
theorem wit_TlbHitIdxResult_last : twoKeys.tlb.firstHit 20#19 1 ⟨true, 20#19, 200#32, 1⟩ := by decide
theorem wit_TlbHitIdxResult_absent : small.fatal = false ∧ small.tlb.lacks 0#19 := by decide

theorem wit_TlbDoHitResult :
    twoKeys.fatal = false ∧ twoKeys.tlb[(1#8).toNat]? = some ⟨true, 20#19, 200#32, 1⟩ := by decide
theorem wit_TlbDoHitRefused_index : twoKeys.fatal = false ∧ twoKeys.tlb.length ≤ (2#8).toNat := by decide
theorem wit_TlbDoHitRefused_unused :
    small.fatal = false ∧ ∃ e, small.tlb[(0#8).toNat]? = some e ∧ (e.valid = false ∨ e.key ≠ 0#19) :=
  ⟨rfl, _, rfl, .inl rfl⟩
theorem wit_TlbDoHitRefused_key :
    twoKeys.fatal = false ∧ ∃ e, twoKeys.tlb[(0#8).toNat]? = some e ∧ (e.valid = false ∨ e.key ≠ 11#19) :=
  ⟨rfl, _, rfl, .inr (by decide)⟩

theorem wit_TlbDoHitRefused_answer :
    exec (.tlbDoHit 11#19 0#8) twoKeys = .next { twoKeys with rsp := some 0xD000000000000000#64 } ∧
    (0xD000000000000000#64).extractLsb' 60 4 = 0xD#4 := ⟨next_of_ran (by decide), by decide⟩

theorem wit_TlbDoMissResult_first : twoKeys.fatal = false ∧ twoKeys.tlb.victimAt 0 := by decide
theorem wit_TlbDoMissResult_last :
    Tlb.victimAt [⟨true, 10#19, 100#32, 1⟩, ⟨true, 20#19, 200#32, 0⟩] 1 := by decide

theorem wit_CountersStayAPermutation :
    twoKeys.tlb.ranked ∧ twoKeys.tlb ≠ [] ∧
    step { twoKeys with inputs := [.command 0x2100000A00000000#64] } =
      .next { twoKeys with
        tlb := [⟨true, 10#19, 100#32, 1⟩, ⟨true, 20#19, 200#32, 0⟩]
        rsp := some 0x64#64 } := ⟨by decide, by decide, rfl⟩

theorem wit_ReplacementIsExactLru_hit :
    twoKeys.tlb.ranked ∧ twoKeys.tlb.recency = [0, 1] ∧
    exec (.tlbDoHit 10#19 0#8) twoKeys =
      .next { twoKeys with
        tlb := [⟨true, 10#19, 100#32, 1⟩, ⟨true, 20#19, 200#32, 0⟩]
        rsp := some 0x64#64 } := ⟨by decide, by decide, rfl⟩

theorem wit_ReplacementIsExactLru_miss :
    exec (.tlbDoMiss 30#19 300#32) twoKeys =
      .next { twoKeys with
        tlb := [⟨true, 30#19, 300#32, 1⟩, ⟨true, 20#19, 200#32, 0⟩]
        rsp := some 0#64 } := rfl

theorem wit_MissesFillInOrder : ([(10#19, 100#32), (20#19, 200#32)] : List (Key × Word)).length ≤ 2 ∧ 1 < 2 := by decide

theorem wit_VmCreatePtResult_none : small.fatal = false ∧ s32 0#32 ≤ 0 ∧ s32 0xFFFFFFFF#32 ≤ 0 := by decide
theorem wit_VmCreatePtResult_both : 0 < s32 15360#32 ∧ (15360#32).toNat / 512 + 1 < small.bm.bits := by decide
theorem wit_VmCreatePtResult_frame0 : 0 < s32 1#32 ∧ (1#32).toNat / 512 + 1 < small.bm.bits := by decide
theorem wit_VmCreatePtResult_first : 0 < s32 15872#32 ∧ (15872#32).toNat / 512 + 1 = small.bm.bits := by decide
theorem wit_VmCreatePtResult_out : 0 < s32 16384#32 ∧ small.bm.bits ≤ (16384#32).toNat / 512 := by decide

/-- Segment 4 holds −1, segment 9 the last index of PM, segment 5 a table at 512. -/
def preloaded : State := smallWith [(4, 0xFFFFFFFF#32), (5, 512#32), (9, 524287#32)] 0x7#32

/-- For VmCreatePageResult and VmGetPtResult. -/
theorem wit_pageIndex_out :
    preloaded.fatal = false ∧ preloaded.pageIndex 4#9 0#10 < 0 ∧ pmSize ≤ preloaded.pageIndex 9#9 1#10 := by decide
theorem wit_pageIndex_in :
    0 ≤ preloaded.pageIndex 4#9 1#10 ∧ preloaded.pageIndex 9#9 0#10 < pmSize ∧
    0 ≤ preloaded.pageIndex 5#9 0#10 ∧ preloaded.pageIndex 5#9 0#10 < pmSize := by decide
theorem wit_VmCreatePageResult_marks : 0 < s32 15872#32 ∧ (15872#32).toNat / 512 < preloaded.bm.bits := by decide
theorem wit_VmCreatePageResult_out : 0 < s32 16384#32 ∧ preloaded.bm.bits ≤ (16384#32).toNat / 512 := by decide

/-- Segment 1: a table at 512 with page 0 at 1536, page 1 invalid, page 2 unallocated; segment 2 invalid. -/
def mapped : State := smallWith [(1, 512#32), (2, 0xFFFFFFFF#32), (512, 1536#32), (513, 0xFFFFFFFF#32)] 0xF#32

theorem wit_DirectAccessResolved :
    mapped.fatal = false ∧ mapped.resolvesTo (segmentOf 0x00080000#32) (pageOf 0x00080000#32) 1536#32 := by decide
theorem wit_DirectAccessPageFault_segment : s32 (mapped.segEntry (segmentOf 0x00100000#32)) = -1 := by decide
theorem wit_DirectAccessPageFault_page :
    mapped.pageReadable (segmentOf 0x00080200#32) (pageOf 0x00080200#32) ∧
    s32 (mapped.pageEntry (segmentOf 0x00080200#32) (pageOf 0x00080200#32)) = -1 := by decide
theorem wit_DirectReadUnbacked_segment : s32 (mapped.segEntry (segmentOf 0x00180000#32)) = 0 := by decide
theorem wit_DirectReadUnbacked_page :
    mapped.pageReadable (segmentOf 0x00080400#32) (pageOf 0x00080400#32) ∧
    s32 (mapped.pageEntry (segmentOf 0x00080400#32) (pageOf 0x00080400#32)) = 0 := by decide
-- E3: segment 4 holds −2 and the index is −1; segment 9 holds 524287 and the index is 524288
theorem wit_DirectAccessOutOfRange :
    let s := smallWith [(4, 0xFFFFFFFE#32), (9, 524287#32)] 0x1#32
    s.fatal = false ∧ s.tableBacked (segmentOf 0x00200200#32) ∧ s.tableBacked (segmentOf 0x00480200#32) ∧
    s.pageIndex (segmentOf 0x00200200#32) (pageOf 0x00200200#32) < 0 ∧
    pmSize ≤ s.pageIndex (segmentOf 0x00480200#32) (pageOf 0x00480200#32) := by decide

theorem wit_WriteAllocatesPage :
    mapped.fatal = false ∧ mapped.bm.length ≤ 65536 ∧
    mapped.pageReadable (segmentOf 0x00080400#32) (pageOf 0x00080400#32) ∧
    mapped.pageEntry (segmentOf 0x00080400#32) (pageOf 0x00080400#32) = 0#32 ∧ mapped.bm.firstFree 4 := by decide

theorem wit_WriteAllocatesTableAndPage :
    small.fatal = false ∧ small.segEntry (segmentOf 0x00180E05#32) = 0#32 ∧ small.bm.firstFreePair 1 ∧
    512 * 1 + (pageOf 0x00180E05#32).toNat < pmSize ∧
    small.pm.read (512 * 1 + (pageOf 0x00180E05#32).toNat) = 0#32 ∧
    1 ≤ 3 ∧ 3 < small.bm.bits ∧ small.bm.cell 3 = false ∧ 3 ≠ 1 ∧ 3 ≠ 1 + 1 ∧
    (∀ j, j < 3 → 1 ≤ j → small.bm.cell j = true ∨ j = 1 ∨ j = 1 + 1) := by decide

theorem wit_WriteExhausted_table :
    (smallWith [] 0x7FFFFFFF#32).segEntry (segmentOf 0#32) = 0#32 ∧ (smallWith [] 0x7FFFFFFF#32).bm.noPair := by decide
theorem wit_WriteExhausted_page :
    let s := smallWith [(0, 512#32)] 0xFFFFFFFF#32
    s.fatal = false ∧ s.pageReadable (segmentOf 0#32) (pageOf 0#32) ∧ s.pageEntry (segmentOf 0#32) (pageOf 0#32) = 0#32 ∧
    s.bm.full := by decide
-- E5
theorem wit_WriteExhausted_partial :
    let s := smallWith [] 0xFFFFFFF9#32
    s.fatal = false ∧ s.segEntry (segmentOf 0#32) = 0#32 ∧ s.bm.firstFreePair 1 ∧
    s.pm.read (512 * 1 + (pageOf 0#32).toNat) = 0#32 ∧
    (∀ j, j < s.bm.bits → 1 ≤ j → s.bm.cell j = true ∨ j = 1 ∨ j = 1 + 1) := by decide

theorem wit_WriteRetriesAfterAllocation :
    small.fatal = false ∧ small.bm.length ≤ 65536 ∧ small.segEntry (segmentOf 0x00180E05#32) = 0#32 ∧
    small.bm.firstFreePair 1 ∧ mapped.fatal = false ∧ mapped.bm.length ≤ 65536 ∧
    mapped.pageReadable (segmentOf 0x00080400#32) (pageOf 0x00080400#32) ∧
    mapped.pageEntry (segmentOf 0x00080400#32) (pageOf 0x00080400#32) = 0#32 ∧ mapped.bm.firstFree 4 := by decide

theorem wit_WalkEndsWithinThreePasses : State.reset.bm.length ≤ 65536 := by decide

theorem wit_ReadsNeverAllocate :
    exec (.vmRead 0x00180E05#32 true) small = .next { small with rsp := some 0x2400000000000000#64 } ∧
    exec (.vmRead 0x00180E05#32 false) small = .next { small with rsp := some 0x2000000000000000#64 } :=
  ⟨next_of_ran (by decide), next_of_ran (by decide)⟩

/-- S5's end state. -/
def written : State :=
  { small with pm := [(3, 512#32), (519, 1536#32)], bm := [0xF#32], rsp := some 0x605#64 }

/-- For WritesOnlyFillZeros and ResolvedWriteIsStable. -/
theorem wit_ResolvedWriteIsStable :
    exec (.vmWrite 0x00180E05#32 false) small = .next written ∧ written.rsp = some 0x605#64 ∧
    (0x605#64).extractLsb' 60 4 = 0#4 := ⟨next_of_ran (by decide), rfl, by decide⟩

/-- `written` with the resolved key cached. -/
def cached : State := { written with tlb := [⟨true, 3079#19, 1536#32, 1⟩, ⟨false, 0#19, 0#32, 0⟩] }

theorem wit_TlbPathHit :
    cached.fatal = false ∧ cached.tlb.firstHit (keyOf 0x00180E05#32) 0 ⟨true, 3079#19, 1536#32, 1⟩ := by decide
theorem wit_TlbPathMiss_resolved :
    small.fatal = false ∧ small.tlb.lacks (keyOf 0x00180E05#32) ∧ small.tlb.victimAt 0 ∧
    exec (accessCommand true 0x00180E05#32 false) small = .next written ∧ written.rsp = some 0x605#64 ∧
    (0x605#64).extractLsb' 60 4 = 0#4 :=
  ⟨rfl, by decide, by decide, next_of_ran (by decide), rfl, by decide⟩
-- E6: a fatal failure on the TLB path
theorem wit_TlbPathMiss_fatal :
    (smallWith [] 0xFFFFFFFF#32).tlb.lacks (keyOf 0#32) ∧
    exec (accessCommand true 0#32 false) (smallWith [] 0xFFFFFFFF#32) =
      .next { smallWith [] 0xFFFFFFFF#32 with fatal := true, fcode := 0x8#4, rsp := some 0x8000000000000000#64 } ∧
    (0x8000000000000000#64).extractLsb' 60 4 ≠ 0#4 := ⟨by decide, next_of_ran (by decide), by decide⟩

/-- For TlbPathAgreesWithDirectPath and AccessesKeepTheTlbCoherent. -/
theorem wit_tlbCoherent :
    cached.tlbCoherent ∧ cached.tlb.ranked ∧ cached.tlb ≠ [] ∧
    exec (accessCommand false 0x00180E05#32 false) cached = .next cached := by
  refine ⟨?_, by decide, by decide, next_of_ran (by decide)⟩
  unfold State.tlbCoherent; decide

theorem wit_ResetInputResets : ({ halted with inputs := [.reset] }).inputs = .reset :: [] := rfl

theorem wit_ClearAndTlbResetIsReset :
    cached.fatal = false ∧ cached.fcode = 0#4 ∧
    exec .vmClear cached = .next { cached with pm := [], bm := [0x1#32], rsp := some 0#64 } ∧
    exec .tlbReset { cached with pm := [], bm := [0x1#32], rsp := some 0#64 } =
      .next { cached with pm := [], bm := [0x1#32], rsp := some 0#64, tlb := Tlb.fresh 2 } := ⟨rfl, rfl, rfl, rfl⟩

theorem wit_InvariantAtReset : (Config.mk 65536 256).wf ∧ (Config.mk 1 1).wf := by decide

theorem wit_Inv : cached.Inv where
  memory := by decide
  config := by decide
  hardwired := by decide
  ranked := by decide
  unused := by decide
  latch := .inl ⟨rfl, rfl⟩
  response := fun r h => ⟨{ status := .ok, data := 0x605#32 }, (Option.some.inj h).symm.trans (by decide), by simp⟩

/-- `cached` with S5's write presented again. -/
def cachedBusy : State := { cached with inputs := [.command 0x3300000200180E05#64] }

/-- For InvariantIsKept and EveryCommandIsAnswered. -/
theorem wit_InvariantIsKept :
    cachedBusy.Inv ∧ step cachedBusy = .next cached ∧ cachedBusy.inputs = .command 0x3300000200180E05#64 :: [] :=
  ⟨⟨wit_Inv.memory, wit_Inv.config, wit_Inv.hardwired, wit_Inv.ranked, wit_Inv.unused, wit_Inv.latch, wit_Inv.response⟩,
    next_of_ran (by decide), rfl⟩

/-- The default block with one table, for segment 3, at frames 1 and 2. -/
def oneTable : State :=
  { State.reset with pm := [(3, 512#32)], bm := 0x7#32 :: List.replicate 31 0#32 }

theorem oneTable_read (j : Nat) : oneTable.pm.read j = if j = 3 then 512#32 else 0#32 := rfl

theorem oneTable_segEntry (seg : BitVec 9) : oneTable.segEntry seg = if seg = 3#9 then 512#32 else 0#32 := by
  rw [State.segEntry, oneTable_read]
  by_cases h : seg = 3#9
  · simp [h]
  · have : seg.toNat ≠ 3 := fun e => h (BitVec.eq_of_toNat_eq (by simpa using e))
    simp [h, this]

theorem oneTable_base {seg : BitVec 9} (h : 0 < s32 (oneTable.segEntry seg)) : seg = 3#9 := by
  by_contra hne
  rw [oneTable_segEntry, if_neg hne] at h
  exact absurd h (by decide)

theorem oneTable_pageEntry (page : BitVec 10) : oneTable.pageEntry 3#9 page = 0#32 := by
  have hi : oneTable.pageIndex 3#9 page = 512 + (page.toNat : Int) := by
    rw [State.pageIndex, oneTable_segEntry, if_pos rfl, tableIndex]
    rw [show s32 512#32 = 512 by decide]
  rw [State.pageEntry, hi, oneTable_read, if_neg (by omega)]

theorem oneTable_no_page {seg : BitVec 9} {page : BitVec 10} {f : Nat} : ¬ oneTable.pageFrame seg page f := by
  rintro ⟨h, hp, -⟩
  have := oneTable_base h
  subst this
  rw [oneTable_pageEntry] at hp
  exact absurd hp (by decide)

theorem oneTable_tableFrame {seg : BitVec 9} {f : Nat} :
    oneTable.tableFrame seg f ↔ seg = 3#9 ∧ (f = 1 ∨ f = 2) := by
  constructor
  · rintro ⟨h, hf⟩
    have := oneTable_base h
    subst this
    exact ⟨rfl, by simpa [oneTable_segEntry, frameOf] using hf⟩
  · rintro ⟨rfl, hf⟩
    refine ⟨by rw [oneTable_segEntry]; decide, ?_⟩
    simpa [oneTable_segEntry, frameOf] using hf

theorem oneTable_cell : ∀ f, f < 1024 → oneTable.bm.cell f = decide (f < 3) := by decide +kernel

/-- A state inside the data model. -/
theorem wit_InDataModel : oneTable.InDataModel where
  rows := by decide
  segments := fun seg => by
    rw [oneTable_segEntry]
    split <;> decide
  pages := fun seg page h => by
    have := oneTable_base h
    subst this
    rw [oneTable_pageEntry]; decide
  tablesApart := fun seg seg' f h h' => by
    rw [(oneTable_tableFrame.mp h).1, (oneTable_tableFrame.mp h').1]
  pagesApart := fun _ _ _ _ _ h => absurd h oneTable_no_page
  apart := fun _ _ _ _ _ => oneTable_no_page
  mirror := fun f hf => by
    rw [oneTable_cell f hf]
    simp only [oneTable_tableFrame, oneTable_no_page, exists_const, or_false, exists_eq_left, decide_eq_true_eq]
    omega
  freeZero := fun f hf hc j _ => by
    rw [oneTable_cell f hf] at hc
    have : ¬ f < 3 := by simpa using hc
    rw [oneTable_read, if_neg (by simp only [frameSize]; omega)]

theorem wit_DataModelIsKept :
    exec (.vmWrite 0x00180E05#32 false) oneTable =
      .next { oneTable with
        pm := [(3, 512#32), (519, 1536#32)]
        bm := 0xF#32 :: List.replicate 31 0#32
        rsp := some 0x605#64 } := next_of_ran (by decide)

theorem wit_WellFormedPreload_table :
    oneTable.segEntry 4#9 = 0#32 ∧ preloadAddress 2 1536#32 ∧ preloadAddress 2 523264#32 ∧
    oneTable.bm.cell (frameOf 523264#32) = false ∧ oneTable.bm.cell (frameOf 523264#32 + 1) = false := by decide

theorem wit_WellFormedPreload_page :
    0 < s32 (oneTable.segEntry 3#9) ∧ oneTable.pageEntry 3#9 1023#10 = 0#32 ∧ preloadAddress 1 523776#32 ∧
    oneTable.bm.cell (frameOf 523776#32) = false := by decide

end Sys2Proof.Tests
end

section
/-! The document's data model (10_state.md R30, 70_reset_and_hazards.md R234) is kept by every command but
preload, BM_SET and BM_CLEAR. A frame in use has one owner, a table or a page; an allocation adds one owner of
frames that were free, and every other command leaves PM and the bitmap as they are or clears both. -/

namespace Sys2Proof.Machine

/-! ## Entries that are bases (20_memory.md R57) -/

theorem s32_of_pos {a : Word} (h : 0 < s32 a) : s32 a = a.toNat := by
  have hc := BitVec.toInt_eq_toNat_cond a
  have hlt := a.isLt
  unfold s32 at *
  split at hc <;> omega

theorem s32_of_lt {a : Word} (h : a.toNat < 2 ^ 31) : s32 a = a.toNat :=
  BitVec.toInt_eq_toNat_of_lt (by omega)

/-- A positive entry is the base of a frame after frame 0, with room for what it names. -/
theorem base_of_preloadAddress {count : Nat} {a : Word} (h : preloadAddress count a) (hpos : 0 < s32 a) :
    a.toNat = frameSize * frameOf a ∧ 1 ≤ frameOf a ∧ frameOf a + count ≤ nFrames := by
  unfold frameOf
  simp only [preloadAddress, frameSize, pmSize, nFrames] at *
  omega

/-- An entry that is neither −1 nor 0 is positive (43_translation_sequencer.md R167). -/
theorem pos_of_preloadAddress {count : Nat} {a : Word} (h : preloadAddress count a) (hne : s32 a ≠ -1)
    (hnz : s32 a ≠ 0) : 0 < s32 a := by
  obtain h | h | ⟨-, hge, hle⟩ := h
  · exact absurd h hne
  · exact absurd h hnz
  · simp only [frameSize, pmSize] at hge hle
    rw [s32_of_lt (by omega)]
    omega

theorem toNat_frameBase {n : Nat} (h : n < nFrames) : (frameBase n).toNat = frameSize * n := by
  simp only [frameBase, frameSize, nFrames, BitVec.toNat_ofNat] at *
  omega

theorem frameOf_frameBase {n : Nat} (h : n < nFrames) : frameOf (frameBase n) = n := by
  rw [frameOf, toNat_frameBase h, Nat.mul_div_cancel_left n (by decide)]

theorem s32_frameBase_pos {n : Nat} (h1 : 1 ≤ n) (h : n < nFrames) : 0 < s32 (frameBase n) := by
  have hn := toNat_frameBase h
  simp only [frameSize, nFrames] at *
  rw [s32_of_lt (by omega)]
  omega

theorem preloadAddress_frameBase {count n : Nat} (h1 : 1 ≤ n) (h : n < nFrames) (hc : n + count ≤ nFrames) :
    preloadAddress count (frameBase n) := by
  have hn := toNat_frameBase h
  simp only [preloadAddress, frameSize, pmSize, nFrames] at *
  omega

/-- The page entries of a table lie in its two frames (20_memory.md R58). -/
theorem tableIndex_of_base {a : Word} (h : preloadAddress 2 a) (hpos : 0 < s32 a) (page : BitVec 10) :
    tableIndex a page = ((frameSize * frameOf a + page.toNat : Nat) : Int) := by
  rw [tableIndex, s32_of_pos hpos, (base_of_preloadAddress h hpos).1]
  push_cast
  rfl

/-! ## Marking -/

theorem markedAt_put {b : Bitmap} {n : Nat} (h1 : 1 ≤ n) (h : n < b.bits) : markedAt b (b.put n true) [n] := by
  refine ⟨by simp, fun m => ?_⟩
  rw [Bitmap.cell_put b n m true h]
  by_cases hm : m = n <;> simp [hm]
  omega

theorem markedAt_put_pair {b : Bitmap} {n : Nat} (h1 : 1 ≤ n) (h : n + 1 < b.bits) :
    markedAt b ((b.put n true).put (n + 1) true) [n, n + 1] := by
  obtain ⟨-, hfst⟩ := markedAt_put h1 (show n < b.bits by omega)
  obtain ⟨-, hsnd⟩ := markedAt_put (b := b.put n true) (show 1 ≤ n + 1 by omega) (by simpa using h)
  refine ⟨by simp, fun m => ?_⟩
  rw [hsnd, hfst]
  simp [Bool.or_assoc]

/-! ## Owners: what a frame in use is used for -/

/-- A table, by its segment, or a page. -/
inductive Owner where
  | table (seg : BitVec 9)
  | page (seg : BitVec 9) (page : BitVec 10)

/-- Frame `f` is the owner's. -/
def State.owns (s : State) : Owner → Nat → Prop
  | .table seg, f => s.tableFrame seg f
  | .page seg page, f => s.pageFrame seg page f

theorem State.owns_table {s : State} {seg : BitVec 9} {f : Nat} :
    s.owns (.table seg) f ↔
      0 < s32 (s.segEntry seg) ∧ (f = frameOf (s.segEntry seg) ∨ f = frameOf (s.segEntry seg) + 1) := Iff.rfl

theorem State.owns_page {s : State} {seg : BitVec 9} {page : BitVec 10} {f : Nat} :
    s.owns (.page seg page) f ↔
      0 < s32 (s.segEntry seg) ∧ 0 < s32 (s.pageEntry seg page) ∧ f = frameOf (s.pageEntry seg page) := Iff.rfl

/-- No frame has two owners: `tablesApart`, `pagesApart` and `apart` in one. -/
theorem State.InDataModel.owner_unique {s : State} (h : s.InDataModel) {o o' : Owner} {f : Nat}
    (ho : s.owns o f) (ho' : s.owns o' f) : o = o' := by
  cases o with
  | table seg =>
    cases o' with
    | table seg' => rw [h.tablesApart seg seg' f ho ho']
    | page seg' page' => exact absurd ho' (h.apart seg seg' page' f ho)
  | page seg page =>
    cases o' with
    | table seg' => exact absurd ho (h.apart seg' seg page f ho')
    | page seg' page' =>
      obtain ⟨rfl, rfl⟩ := h.pagesApart seg page seg' page' f ho ho'
      rfl

theorem State.exists_owns {s : State} {f : Nat} :
    (∃ o, s.owns o f) ↔ (∃ seg, s.tableFrame seg f) ∨ ∃ seg page, s.pageFrame seg page f := by
  constructor
  · rintro ⟨seg | ⟨seg, page⟩, ho⟩
    · exact .inl ⟨seg, ho⟩
    · exact .inr ⟨seg, page, ho⟩
  · rintro (⟨seg, ho⟩ | ⟨seg, page, ho⟩)
    · exact ⟨.table seg, ho⟩
    · exact ⟨.page seg page, ho⟩

theorem State.InDataModel.cell_iff {s : State} (h : s.InDataModel) {f : Nat} (hf : f < nFrames) :
    s.bm.cell f = true ↔ f = 0 ∨ ∃ o, s.owns o f := by
  rw [h.mirror f hf, State.exists_owns]

theorem State.InDataModel.not_owns_of_free {s : State} (h : s.InDataModel) {f : Nat} (hf : f < nFrames)
    (hfree : s.bm.cell f = false) (o : Owner) : ¬ s.owns o f := fun ho => by
  have := (h.cell_iff hf).mpr (.inr ⟨o, ho⟩)
  simp [hfree] at this

/-- The data model is about PM and the bitmap alone. -/
theorem State.InDataModel.of_same {s t : State} (h : s.InDataModel) (hpm : t.pm = s.pm) (hbm : t.bm = s.bm) :
    t.InDataModel := by
  obtain ⟨pm, bm, tlb, fatal, fcode, rsp, inputs⟩ := t
  obtain rfl : pm = s.pm := hpm
  obtain rfl : bm = s.bm := hbm
  exact ⟨h.rows, h.segments, h.pages, h.tablesApart, h.pagesApart, h.apart, h.mirror, h.freeZero⟩

/-- When an owner takes frames that were free, still no frame has two owners. -/
theorem State.InDataModel.owner_unique_of_added {s t : State} (h : s.InDataModel) {o : Owner} {fs : List Nat}
    (hfree : ∀ f ∈ fs, f < nFrames ∧ s.bm.cell f = false)
    (howns : ∀ o' f, t.owns o' f ↔ s.owns o' f ∨ (o' = o ∧ f ∈ fs)) {o₁ o₂ : Owner} {f : Nat}
    (h₁ : t.owns o₁ f) (h₂ : t.owns o₂ f) : o₁ = o₂ := by
  have hnone : f ∈ fs → ∀ o', ¬ s.owns o' f := fun hf => h.not_owns_of_free (hfree f hf).1 (hfree f hf).2
  rcases (howns o₁ f).mp h₁ with h₁ | ⟨rfl, hf₁⟩
  · rcases (howns o₂ f).mp h₂ with h₂ | ⟨rfl, hf₂⟩
    · exact h.owner_unique h₁ h₂
    · exact absurd h₁ (hnone hf₂ o₁)
  · rcases (howns o₂ f).mp h₂ with h₂ | ⟨rfl, -⟩
    · exact absurd h₂ (hnone hf₁ o₂)
    · rfl

/-- One owner `o` takes the free frames `fs`, and one word of a frame in use is written. -/
theorem State.InDataModel.add_owner {s t : State} (h : s.InDataModel) {o : Owner} {fs : List Nat} {i : Nat} {v : Word}
    (hfree : ∀ f ∈ fs, f < nFrames ∧ s.bm.cell f = false) (hused : s.bm.cell (i / frameSize) = true)
    (hstore : storedAt s.pm t.pm i v) (hmark : markedAt s.bm t.bm fs)
    (howns : ∀ o' f, t.owns o' f ↔ s.owns o' f ∨ (o' = o ∧ f ∈ fs))
    (hsegments : ∀ seg, preloadAddress 2 (t.segEntry seg))
    (hpages : ∀ seg page, 0 < s32 (t.segEntry seg) → preloadAddress 1 (t.pageEntry seg page)) : t.InDataModel := by
  obtain ⟨hlen, hcell⟩ := hmark
  have hunique := fun {o₁ o₂ f} => h.owner_unique_of_added hfree howns (o₁ := o₁) (o₂ := o₂) (f := f)
  exact {
    rows := hlen.trans h.rows
    segments := hsegments
    pages := hpages
    tablesApart := fun seg seg' _ h₁ h₂ =>
      Owner.table.inj (hunique (o₁ := .table seg) (o₂ := .table seg') h₁ h₂)
    pagesApart := fun seg page seg' page' _ h₁ h₂ =>
      Owner.page.inj (hunique (o₁ := .page seg page) (o₂ := .page seg' page') h₁ h₂)
    apart := fun seg seg' page _ h₁ h₂ =>
      Owner.noConfusion (hunique (o₁ := .table seg) (o₂ := .page seg' page) h₁ h₂)
    mirror := fun f hf => by
      rw [← State.exists_owns, hcell, Bool.or_eq_true, h.cell_iff hf, decide_eq_true_eq, or_assoc]
      simp only [howns, exists_or, exists_and_right, exists_eq, true_and]
    freeZero := fun f hf hc j hj => by
      obtain ⟨hc, -⟩ : s.bm.cell f = false ∧ f ∉ fs := by simpa [hcell] using hc
      have hdiv : (frameSize * f + j) / frameSize = f := by
        rw [Nat.mul_add_div (by decide), Nat.div_eq_of_lt hj, Nat.add_zero]
      have hne : frameSize * f + j ≠ i := by
        rintro rfl
        simp [hdiv, hc] at hused
      rw [hstore, if_neg hne, h.freeZero f hf hc j hj] }

/-! ## Where the entries of tables and pages stand -/

theorem State.InDataModel.pageIndex_eq {s : State} (h : s.InDataModel) {seg : BitVec 9}
    (hbase : 0 < s32 (s.segEntry seg)) (page : BitVec 10) :
    s.pageIndex seg page = ((frameSize * frameOf (s.segEntry seg) + page.toNat : Nat) : Int) :=
  tableIndex_of_base (h.segments seg) hbase page

/-- A page entry stands in a frame of its table. -/
theorem State.InDataModel.tableFrame_pageIndex {s : State} (h : s.InDataModel) {seg : BitVec 9}
    (hbase : 0 < s32 (s.segEntry seg)) (page : BitVec 10) :
    s.tableFrame seg ((s.pageIndex seg page).toNat / frameSize) := by
  refine ⟨hbase, ?_⟩
  have hpage := page.isLt
  rw [h.pageIndex_eq hbase page, Int.toNat_natCast, Nat.mul_add_div (by decide)]
  simp only [frameSize]
  omega

/-- A page entry stands in PM, after frame 0. -/
theorem State.InDataModel.pageIndex_bounds {s : State} (h : s.InDataModel) {seg : BitVec 9}
    (hbase : 0 < s32 (s.segEntry seg)) (page : BitVec 10) :
    frameSize ≤ (s.pageIndex seg page).toNat ∧ inPm (s.pageIndex seg page) = true := by
  obtain ⟨-, hge, hle⟩ := base_of_preloadAddress (h.segments seg) hbase
  have hpage := page.isLt
  rw [inPm_iff, h.pageIndex_eq hbase page, Int.toNat_natCast]
  simp only [frameSize, nFrames, pmSize] at *
  omega

/-- Different pages have different entries. -/
theorem State.InDataModel.pageIndex_inj {s : State} (h : s.InDataModel) {seg seg' : BitVec 9} {page page' : BitVec 10}
    (hbase : 0 < s32 (s.segEntry seg)) (hbase' : 0 < s32 (s.segEntry seg'))
    (heq : (s.pageIndex seg page).toNat = (s.pageIndex seg' page').toNat) : seg = seg' ∧ page = page' := by
  have hframe := h.tableFrame_pageIndex hbase page
  rw [heq] at hframe
  obtain rfl := h.tablesApart _ _ _ hframe (h.tableFrame_pageIndex hbase' page')
  rw [h.pageIndex_eq hbase, h.pageIndex_eq hbase, Int.toNat_natCast, Int.toNat_natCast, Nat.add_left_cancel_iff] at heq
  exact ⟨rfl, BitVec.eq_of_toNat_eq heq⟩

/-- The page entries a table would have on two free frames are all 0 (70_reset_and_hazards.md R234). -/
theorem State.InDataModel.read_freeTable {s : State} (h : s.InDataModel) {addr : Word} (haddr : preloadAddress 2 addr)
    (hpos : 0 < s32 addr) (hfree : ∀ f ∈ [frameOf addr, frameOf addr + 1], s.bm.cell f = false) (page : BitVec 10) :
    s.pm.read (tableIndex addr page).toNat = 0#32 := by
  obtain ⟨-, -, hle⟩ := base_of_preloadAddress haddr hpos
  have hpage := page.isLt
  have hsplit : frameSize * frameOf addr + page.toNat =
      frameSize * (frameOf addr + page.toNat / frameSize) + page.toNat % frameSize := by
    rw [Nat.mul_add, Nat.add_assoc, Nat.div_add_mod]
  have hhalf : page.toNat / frameSize = 0 ∨ page.toNat / frameSize = 1 := by
    simp only [frameSize]
    omega
  rw [tableIndex_of_base haddr hpos, Int.toNat_natCast, hsplit]
  refine h.freeZero _ (by omega) (hfree _ ?_) _ (Nat.mod_lt _ (by decide))
  rcases hhalf with hhalf | hhalf <;> simp [hhalf]

/-! ## Recording a table -/

/-- A write to a segment entry, said of all segment entries. -/
theorem segEntry_of_storedAt_segment {s t : State} {seg : BitVec 9} {addr : Word}
    (hstore : storedAt s.pm t.pm seg.toNat addr) (seg' : BitVec 9) :
    t.segEntry seg' = if seg' = seg then addr else s.segEntry seg' := by
  simp only [State.segEntry, hstore, BitVec.toNat_inj]

/-- A write to a segment entry leaves the page entries of the other tables. -/
theorem State.InDataModel.pageEntry_of_storedAt_segment {s t : State} (h : s.InDataModel) {seg seg' : BitVec 9}
    {addr : Word} (hstore : storedAt s.pm t.pm seg.toNat addr) (hne : seg' ≠ seg)
    (hbase : 0 < s32 (s.segEntry seg')) (page : BitVec 10) : t.pageEntry seg' page = s.pageEntry seg' page := by
  have hindex : t.pageIndex seg' page = s.pageIndex seg' page := by
    rw [State.pageIndex, segEntry_of_storedAt_segment hstore, if_neg hne, State.pageIndex]
  have hge := (h.pageIndex_bounds hbase page).1
  have hlt := seg.isLt
  simp only [frameSize] at hge
  rw [State.pageEntry, hindex, hstore, if_neg (by omega), State.pageEntry]

/-- The page entries of a table recorded on two free frames are all 0. -/
theorem State.InDataModel.pageEntry_of_new_table {s t : State} (h : s.InDataModel) {seg : BitVec 9} {addr : Word}
    (haddr : preloadAddress 2 addr) (hpos : 0 < s32 addr)
    (hfree : ∀ f ∈ [frameOf addr, frameOf addr + 1], s.bm.cell f = false)
    (hstore : storedAt s.pm t.pm seg.toNat addr) (page : BitVec 10) : t.pageEntry seg page = 0#32 := by
  have hindex : t.pageIndex seg page = tableIndex addr page := by
    rw [State.pageIndex, segEntry_of_storedAt_segment hstore, if_pos rfl]
  have hne : (tableIndex addr page).toNat ≠ seg.toNat := by
    have hlt := seg.isLt
    obtain ⟨-, hge, -⟩ := base_of_preloadAddress haddr hpos
    rw [tableIndex_of_base haddr hpos, Int.toNat_natCast]
    simp only [frameSize]
    omega
  rw [State.pageEntry, hindex, hstore, if_neg hne, h.read_freeTable haddr hpos hfree]

/-- An unbacked segment is given a table on two free frames (43_translation_sequencer.md R160, R169). -/
theorem State.InDataModel.record_table {s t : State} (h : s.InDataModel) {seg : BitVec 9} {addr : Word}
    (hnone : s32 (s.segEntry seg) ≤ 0) (haddr : preloadAddress 2 addr) (hpos : 0 < s32 addr)
    (hfree : ∀ f ∈ [frameOf addr, frameOf addr + 1], s.bm.cell f = false)
    (hstore : storedAt s.pm t.pm seg.toNat addr) (hmark : markedAt s.bm t.bm [frameOf addr, frameOf addr + 1]) :
    t.InDataModel := by
  have hseg := segEntry_of_storedAt_segment hstore
  have hnew : ∀ page, s32 (t.pageEntry seg page) = 0 := fun page => by
    rw [h.pageEntry_of_new_table haddr hpos hfree hstore, s32, BitVec.toInt_zero]
  have hold := fun {seg'} (hne : seg' ≠ seg) hbase page => h.pageEntry_of_storedAt_segment hstore hne hbase page
  have hframes : ∀ f ∈ [frameOf addr, frameOf addr + 1], f < nFrames ∧ s.bm.cell f = false := fun f hf => by
    refine ⟨?_, hfree f hf⟩
    obtain ⟨-, -, hle⟩ := base_of_preloadAddress haddr hpos
    simp only [List.mem_cons, List.not_mem_nil, or_false] at hf
    omega
  have hused : s.bm.cell (seg.toNat / frameSize) = true := by
    rw [Nat.div_eq_of_lt seg.isLt, Bitmap.cell_zero]
  refine h.add_owner (o := .table seg) hframes hused hstore hmark ?howns ?hsegments ?hpages
  case howns =>
    intro o f
    cases o with
    | table seg' =>
      by_cases he : seg' = seg
      · subst he; simp [State.owns_table, hseg, hpos, not_lt.mpr hnone]
      · simp [State.owns_table, hseg, he]
    | page seg' page =>
      by_cases he : seg' = seg
      · subst he; simp [State.owns_page, hnew, not_lt.mpr hnone]
      · by_cases hbase : 0 < s32 (s.segEntry seg')
        · simp [State.owns_page, hseg, he, hold he hbase]
        · simp [State.owns_page, hseg, he, hbase]
  case hsegments =>
    intro seg'
    rw [hseg]
    split
    · exact haddr
    · exact h.segments seg'
  case hpages =>
    intro seg' page hbase
    by_cases he : seg' = seg
    · subst he
      exact .inr (.inl (hnew page))
    · rw [hseg, if_neg he] at hbase
      rw [hold he hbase]
      exact h.pages seg' page hbase

/-! ## Recording a page -/

/-- A write to a page entry leaves the segment entries. -/
theorem State.InDataModel.segEntry_of_storedAt_page {s t : State} (h : s.InDataModel) {seg : BitVec 9}
    {page : BitVec 10} {addr : Word} (hbase : 0 < s32 (s.segEntry seg))
    (hstore : storedAt s.pm t.pm (s.pageIndex seg page).toNat addr) (seg' : BitVec 9) :
    t.segEntry seg' = s.segEntry seg' := by
  have hge := (h.pageIndex_bounds hbase page).1
  have hlt := seg'.isLt
  simp only [frameSize] at hge
  rw [State.segEntry, hstore, if_neg (by omega), State.segEntry]

/-- A write to a page entry, said of all page entries. -/
theorem State.InDataModel.pageEntry_of_storedAt_page {s t : State} (h : s.InDataModel) {seg seg' : BitVec 9}
    {page : BitVec 10} {addr : Word} (hbase : 0 < s32 (s.segEntry seg))
    (hstore : storedAt s.pm t.pm (s.pageIndex seg page).toNat addr) (hbase' : 0 < s32 (s.segEntry seg'))
    (page' : BitVec 10) :
    t.pageEntry seg' page' = if seg' = seg ∧ page' = page then addr else s.pageEntry seg' page' := by
  have hindex : t.pageIndex seg' page' = s.pageIndex seg' page' := by
    rw [State.pageIndex, h.segEntry_of_storedAt_page hbase hstore, State.pageIndex]
  have hsame : (s.pageIndex seg' page').toNat = (s.pageIndex seg page).toNat ↔ seg' = seg ∧ page' = page := by
    refine ⟨h.pageIndex_inj hbase' hbase, ?_⟩
    rintro ⟨rfl, rfl⟩
    rfl
  simp only [State.pageEntry, hindex, hstore _, hsame]

/-- An unbacked page of a table is given a free frame (43_translation_sequencer.md R161, R169). -/
theorem State.InDataModel.record_page {s t : State} (h : s.InDataModel) {seg : BitVec 9} {page : BitVec 10}
    {addr : Word} (hbase : 0 < s32 (s.segEntry seg)) (hnone : s32 (s.pageEntry seg page) ≤ 0)
    (haddr : preloadAddress 1 addr) (hpos : 0 < s32 addr) (hfree : s.bm.cell (frameOf addr) = false)
    (hstore : storedAt s.pm t.pm (s.pageIndex seg page).toNat addr) (hmark : markedAt s.bm t.bm [frameOf addr]) :
    t.InDataModel := by
  have hseg := h.segEntry_of_storedAt_page hbase hstore
  have hpage := fun {seg'} hbase' page' => h.pageEntry_of_storedAt_page (seg' := seg') hbase hstore hbase' page'
  have hframes : ∀ f ∈ [frameOf addr], f < nFrames ∧ s.bm.cell f = false := fun f hf => by
    obtain ⟨-, -, hle⟩ := base_of_preloadAddress haddr hpos
    obtain rfl := List.mem_singleton.mp hf
    exact ⟨by omega, hfree⟩
  have hused : s.bm.cell ((s.pageIndex seg page).toNat / frameSize) = true := by
    have hlt := ((inPm_iff _).mp (h.pageIndex_bounds hbase page).2).2
    refine (h.cell_iff ?_).mpr (.inr ⟨.table seg, h.tableFrame_pageIndex hbase page⟩)
    simp only [frameSize, nFrames, pmSize] at *
    omega
  refine h.add_owner (o := .page seg page) hframes hused hstore hmark ?howns ?hsegments ?hpages
  case howns =>
    intro o f
    cases o with
    | table seg' => simp [State.owns_table, hseg]
    | page seg' page' =>
      by_cases hbase' : 0 < s32 (s.segEntry seg')
      · by_cases he : seg' = seg ∧ page' = page
        · obtain ⟨rfl, rfl⟩ := he
          simp [State.owns_page, hseg, hpage, hbase, hpos, not_lt.mpr hnone]
        · simp [State.owns_page, hseg, hpage, hbase', he]
      · have he : seg' ≠ seg := by
          rintro rfl
          exact hbase' hbase
        simp [State.owns_page, hseg, hbase', he]
  case hsegments =>
    intro seg'
    rw [hseg]
    exact h.segments seg'
  case hpages =>
    intro seg' page' hbase'
    rw [hseg] at hbase'
    rw [hpage hbase']
    split
    · exact haddr
    · exact h.pages seg' page' hbase'

/-! ## Where a run ends -/

/-- The state a run ends in, normally or by a fatal failure, satisfies `P`. -/
def Run.EndsIn {α : Type} (P : State → Prop) (r : Run α) : Prop := ∀ t, r.state? = some t → P t

section
variable {α β : Type} {P : State → Prop}

theorem endsIn_ok {a : α} {s : State} (h : P s) : (Run.ok a s).EndsIn P := by
  rintro _ ⟨⟩
  exact h

theorem endsIn_fatal {c : FatalCode} {m : Marker} {s : State} (h : P s) : (Run.fatal c m s : Run α).EndsIn P := by
  rintro _ ⟨⟩
  exact h

theorem endsIn_fault {f : Fault} : (Run.fault f : Run α).EndsIn P := by
  rintro _ ⟨⟩

theorem andThen_endsIn {r : Run α} {k : α → State → Run β} (hr : r.EndsIn P)
    (hk : ∀ a s, P s → (k a s).EndsIn P) : (r.andThen k).EndsIn P := by
  cases r with
  | ok a s => exact hk a s (hr s rfl)
  | fatal c m s => exact endsIn_fatal (hr s rfl)
  | fault f => exact endsIn_fault

theorem marked_endsIn {mk : Marker} {r : Run α} (hr : r.EndsIn P) : (r.marked mk).EndsIn P := by
  cases r with
  | ok a s => exact hr
  | fatal c m s => exact endsIn_fatal (hr s rfl)
  | fault f => exact endsIn_fault

theorem memRead_endsIn {i : Int} {s : State} (h : P s) : (memRead i s).EndsIn P := by
  by_cases hi : inPm i = true
  · rw [memRead_in hi]; exact endsIn_ok h
  · rw [memRead_out (by simpa using hi)]; exact endsIn_fatal h

theorem findFirstZero_endsIn {s : State} (h : P s) : (findFirstZero s).EndsIn P := by
  cases hf : s.bm.findFirstZero with
  | some n => rw [findFirstZero_some hf]; exact endsIn_ok h
  | none => rw [findFirstZero_none hf]; exact endsIn_fatal h

theorem findConsecutiveZeros_endsIn {s : State} (h : P s) : (findConsecutiveZeros s).EndsIn P := by
  cases hf : s.bm.findConsecutiveZeros with
  | some n => rw [findConsecutiveZeros_some hf]; exact endsIn_ok h
  | none => rw [findConsecutiveZeros_none hf]; exact endsIn_fatal h

end

theorem finish_inDataModel {r : Run Reply} {t : State} (hr : r.EndsIn State.InDataModel) (h : finish r = .next t) :
    t.InDataModel := by
  rcases finish_eq_next.mp h with ⟨rep, u, rfl, rfl⟩ | ⟨c, m, u, rfl, rfl⟩
  · exact (hr u rfl).of_same (answer_pm rep u) (answer_bm rep u)
  · exact (hr u rfl).of_same (takeFatal_pm c m u) (takeFatal_bm c m u)

/-- A command keeps the data model when its own pseudocode ends inside it. -/
theorem command_inDataModel {body : State → Run Reply} {s t : State} (hs : s.InDataModel)
    (hbody : (body s).EndsIn State.InDataModel) (h : command body s = .next t) : t.InDataModel := by
  cases hlatch : s.fatal with
  | true =>
    rw [command_halted hlatch] at h
    cases h
    exact hs.of_same (answer_pm _ s) (answer_bm _ s)
  | false =>
    rw [command_running hlatch] at h
    exact finish_inDataModel hbody h

/-! ## The TLB holds no part of the data model -/

theorem doHit_inDataModel {i : Nat} {e : TlbEntry} {s : State} (hs : s.InDataModel) :
    (doHit i e s).EndsIn State.InDataModel := endsIn_ok (hs.of_same rfl rfl)

theorem doMiss_inDataModel {k : Key} {frame : Word} {s : State} (hs : s.InDataModel) :
    (doMiss k frame s).EndsIn State.InDataModel := by
  rw [doMiss_eq]
  split
  · exact endsIn_ok (hs.of_same rfl rfl)
  · exact endsIn_fault

theorem cacheIfResolved_inDataModel {k : Key} {o : WalkEnd} {s : State} (hs : s.InDataModel) :
    (cacheIfResolved k o s).EndsIn State.InDataModel := by
  cases o with
  | pageFault => exact endsIn_ok hs
  | error => exact endsIn_ok hs
  | resolved pa frame => exact doMiss_inDataModel hs

/-! ## Demand allocation and the walk -/

/-- One cell per frame (00_scope.md R6). -/
theorem State.InDataModel.bits_eq {s : State} (h : s.InDataModel) : s.bm.bits = nFrames := by
  simp [Bitmap.bits, h.rows, bmWidth, nFrames]

theorem allocTable_inDataModel {seg : BitVec 9} {s : State} (hs : s.InDataModel) (hnone : s32 (s.segEntry seg) = 0) :
    (allocTable seg s).EndsIn State.InDataModel := by
  cases hf : s.bm.findConsecutiveZeros with
  | none => rw [allocTable_none hf]; exact endsIn_fatal hs
  | some n =>
    obtain ⟨hge, hlt, ⟨hfree, hfree'⟩, -⟩ := Bitmap.findConsecutiveZeros_eq_some.mp hf
    have hmark := markedAt_put_pair hge hlt
    rw [hs.bits_eq] at hlt
    have hn : n < nFrames := by omega
    rw [allocTable_some hf]
    refine endsIn_ok (hs.record_table hnone.le (preloadAddress_frameBase hge hn (by omega))
      (s32_frameBase_pos hge hn) ?_ (fun j => Memory.read_write s.pm seg.toNat j _) ?_)
    · simp [frameOf_frameBase hn, hfree, hfree']
    · rwa [frameOf_frameBase hn]

theorem allocPage_inDataModel {seg : BitVec 9} {page : BitVec 10} {s : State} (hs : s.InDataModel)
    (hbase : 0 < s32 (s.segEntry seg)) (hnone : s32 (s.pageEntry seg page) = 0) :
    (allocPage (s.pageIndex seg page) s).EndsIn State.InDataModel := by
  cases hf : s.bm.findFirstZero with
  | none => rw [allocPage_none hf]; exact endsIn_fatal hs
  | some n =>
    obtain ⟨hge, hlt, hfree, -⟩ := Bitmap.findFirstZero_eq_some.mp hf
    have hmark := markedAt_put hge hlt
    rw [hs.bits_eq] at hlt
    rw [allocPage_some (hs.pageIndex_bounds hbase page).2 hf]
    refine endsIn_ok (hs.record_page hbase hnone.le (preloadAddress_frameBase hge hlt (by omega))
      (s32_frameBase_pos hge hlt) ?_ (fun j => Memory.read_write s.pm _ j _) ?_)
    · rwa [frameOf_frameBase hlt]
    · rwa [frameOf_frameBase hlt]

/-- A walk, however it ends, keeps the data model: each pass allocates at most once, for an entry that was 0. -/
theorem walkPasses_inDataModel {passes : Nat} {seg : BitVec 9} {page : BitVec 10} {off : BitVec 9} {write : Bool}
    {s : State} (hs : s.InDataModel) : (walkPasses passes seg page off write s).EndsIn State.InDataModel := by
  induction passes generalizing s with
  | zero => exact endsIn_fault
  | succ passes ih =>
    rw [walkPasses_succ]
    simp only
    split
    · exact endsIn_ok hs
    next hne =>
    split
    · next hnone =>
      split
      · exact andThen_endsIn (allocTable_inDataModel hs hnone) fun _ _ hu => ih hu
      · exact endsIn_ok hs
    next hnz =>
    split
    · split
      · exact endsIn_ok hs
      split
      · next hnone =>
        have hbase : 0 < s32 (s.segEntry seg) := pos_of_preloadAddress (hs.segments seg) hne hnz
        split
        · exact andThen_endsIn (allocPage_inDataModel hs hbase hnone) fun _ _ hu => ih hu
        · exact endsIn_ok hs
      · exact endsIn_ok hs
    · exact endsIn_fatal hs

theorem walk_inDataModel {a : Word} {write : Bool} {s : State} (hs : s.InDataModel) :
    (walk a write s).EndsIn State.InDataModel := walkPasses_inDataModel hs

theorem tlbMissPath_inDataModel {a : Word} {write : Bool} {s : State} (hs : s.InDataModel) :
    (tlbMissPath a write s).EndsIn State.InDataModel :=
  marked_endsIn <| andThen_endsIn (walk_inDataModel hs) fun _ _ hu =>
    andThen_endsIn (cacheIfResolved_inDataModel hu) fun _ _ hv => endsIn_ok hv

theorem tlbPath_inDataModel {a : Word} {write : Bool} {s : State} (hs : s.InDataModel) :
    (tlbPath a write s).EndsIn State.InDataModel := by
  unfold tlbPath
  split
  · exact tlbMissPath_inDataModel hs
  split
  · exact tlbMissPath_inDataModel hs
  · exact andThen_endsIn (doHit_inDataModel hs) fun _ _ hu => endsIn_ok hu

/-- An access on either path keeps the data model (43_translation_sequencer.md R165). -/
theorem access_inDataModel {a : Word} {write useTlb : Bool} {s : State} (hs : s.InDataModel) :
    (access a write useTlb s).EndsIn State.InDataModel := by
  unfold access
  split
  · exact tlbPath_inDataModel hs
  · exact andThen_endsIn (walk_inDataModel hs) fun _ _ hu => endsIn_ok hu

/-! ## Clear -/

/-- With PM all 0 and the bitmap clear there is no table and no page (43_translation_sequencer.md R175). -/
theorem inDataModel_of_cleared {s : State} (hpm : s.pm = Memory.cleared) (hrows : s.bm.length = 32)
    (hcell : ∀ n, s.bm.cell n = decide (n = 0)) : s.InDataModel := by
  have hseg : ∀ seg, s.segEntry seg = 0#32 := fun seg => by rw [State.segEntry, hpm]; rfl
  have hnobase : ∀ seg, ¬ 0 < s32 (s.segEntry seg) := fun seg => by rw [hseg]; decide
  exact {
    rows := hrows
    segments := fun seg => by rw [hseg]; decide
    pages := fun seg _ hbase => absurd hbase (hnobase seg)
    tablesApart := fun seg _ _ h => absurd h.1 (hnobase seg)
    pagesApart := fun seg _ _ _ _ h => absurd h.1 (hnobase seg)
    apart := fun seg _ _ _ h => absurd h.1 (hnobase seg)
    mirror := fun f _ => by simp [hcell, hnobase]
    freeZero := fun f _ _ j _ => by rw [hpm]; rfl }

/-! ## Every command -/

theorem execVaDecode_inDataModel {a : Word} {s t : State} (hs : s.InDataModel)
    (h : execVaDecode a s = .next t) : t.InDataModel := finish_inDataModel (endsIn_ok hs) h

theorem execBmFfz_inDataModel {s t : State} (hs : s.InDataModel) (h : execBmFfz s = .next t) : t.InDataModel :=
  command_inDataModel hs (andThen_endsIn (findFirstZero_endsIn hs) fun _ _ hu => endsIn_ok hu) h

theorem execBmFcz_inDataModel {s t : State} (hs : s.InDataModel) (h : execBmFcz s = .next t) : t.InDataModel :=
  command_inDataModel hs (andThen_endsIn (findConsecutiveZeros_endsIn hs) fun _ _ hu => endsIn_ok hu) h

theorem execTlbHitIdx_inDataModel {key : Key} {s t : State} (hs : s.InDataModel)
    (h : execTlbHitIdx key s = .next t) : t.InDataModel := by
  refine command_inDataModel hs ?_ h
  split
  · exact endsIn_ok hs
  · exact endsIn_ok hs

theorem execTlbDoHit_inDataModel {key : Key} {idx : BitVec 8} {s t : State} (hs : s.InDataModel)
    (h : execTlbDoHit key idx s = .next t) : t.InDataModel := by
  refine command_inDataModel hs ?_ h
  split
  · exact endsIn_ok hs
  split
  · exact andThen_endsIn (doHit_inDataModel hs) fun _ _ hu => endsIn_ok hu
  · exact endsIn_ok hs

theorem execTlbDoMiss_inDataModel {key : Key} {frame : Word} {s t : State} (hs : s.InDataModel)
    (h : execTlbDoMiss key frame s = .next t) : t.InDataModel :=
  command_inDataModel hs (andThen_endsIn (doMiss_inDataModel hs) fun _ _ hu => endsIn_ok hu) h

theorem execTlbReset_inDataModel {s t : State} (hs : s.InDataModel) (h : execTlbReset s = .next t) :
    t.InDataModel := by
  refine command_inDataModel hs ?_ h
  exact endsIn_ok (hs.of_same (resetTlb_pm s) (resetTlb_bm s))

theorem execVmGetPt_inDataModel {seg : BitVec 9} {page : BitVec 10} {s t : State} (hs : s.InDataModel)
    (h : execVmGetPt seg page s = .next t) : t.InDataModel :=
  command_inDataModel hs (andThen_endsIn (memRead_endsIn hs) fun _ _ hu =>
    andThen_endsIn (memRead_endsIn hu) fun _ _ hv => endsIn_ok hv) h

theorem execVmRead_inDataModel {a : Word} {useTlb : Bool} {s t : State} (hs : s.InDataModel)
    (h : execVmRead a useTlb s = .next t) : t.InDataModel := command_inDataModel hs (access_inDataModel hs) h

theorem execVmWrite_inDataModel {a : Word} {useTlb : Bool} {s t : State} (hs : s.InDataModel)
    (h : execVmWrite a useTlb s = .next t) : t.InDataModel := command_inDataModel hs (access_inDataModel hs) h

theorem execVmClear_inDataModel {s t : State} (hs : s.InDataModel) (h : execVmClear s = .next t) :
    t.InDataModel := by
  have hrows : s.bm.clear.length = 32 := (Bitmap.length_clear s.bm).trans hs.rows
  refine command_inDataModel hs ?_ h
  exact endsIn_ok (inDataModel_of_cleared rfl hrows (Bitmap.cell_clear s.bm))

/-- Settles O58, command by command: the searches, the decomposer and the TLB's commands write neither PM nor the
bitmap, an access allocates only free frames, and a clear leaves no table. -/
theorem dataModelIsKept : Obligations.DataModelIsKept := by
  unfold Obligations.DataModelIsKept
  intro s t i hs hset hclear hcreatePt hcreatePage h
  cases i with
  | vaDecode a => exact execVaDecode_inDataModel hs h
  | bmFfz => exact execBmFfz_inDataModel hs h
  | bmFcz => exact execBmFcz_inDataModel hs h
  | bmSet row col val => exact absurd rfl (hset row col val)
  | bmClear => exact absurd rfl hclear
  | tlbHitIdx key => exact execTlbHitIdx_inDataModel hs h
  | tlbDoHit key idx => exact execTlbDoHit_inDataModel hs h
  | tlbDoMiss key frame => exact execTlbDoMiss_inDataModel hs h
  | tlbReset => exact execTlbReset_inDataModel hs h
  | vmCreatePt seg addr => exact absurd rfl (hcreatePt seg addr)
  | vmCreatePage page seg addr => exact absurd rfl (hcreatePage page seg addr)
  | vmGetPt seg page => exact execVmGetPt_inDataModel hs h
  | vmRead a useTlb => exact execVmRead_inDataModel hs h
  | vmWrite a useTlb => exact execVmWrite_inDataModel hs h
  | vmClear => exact execVmClear_inDataModel hs h

end Sys2Proof.Machine
end

section
/-! An access keeps the TLB coherent with the page tables (20_memory.md R67). A walk writes PM only where it found 0
(43_translation_sequencer.md R170), so no word that a cached translation rests on changes; a hit moves recency ranks
alone; and what a miss inserts is the entry its walk has just resolved to (R172). -/

namespace Sys2Proof.Machine

/-- A word that reads as the integer 0 is the word 0 (00_scope.md R10). -/
theorem s32_eq_zero {v : Word} : s32 v = 0 ↔ v = 0#32 := by
  rw [s32, ← BitVec.toInt_inj, BitVec.toInt_zero]

/-! ## Words that are not 0 stay (43_translation_sequencer.md R170) -/

/-- Every non-zero word of `m` stands unchanged in `m'`. -/
def Memory.KeptBy (m m' : Memory) : Prop := ∀ i, m.read i ≠ 0#32 → m'.read i = m.read i

theorem Memory.KeptBy.refl (m : Memory) : m.KeptBy m := fun _ _ => rfl

theorem Memory.KeptBy.write {m m' : Memory} (h : m.KeptBy m') {i : Nat} (hi : m'.read i = 0#32) (v : Word) :
    m.KeptBy (m'.write i v) := by
  intro j hj
  have hne : j ≠ i := by
    rintro rfl
    rw [h j hj] at hi
    exact hj hi
  rw [Memory.read_write, if_neg hne, h j hj]

theorem allocTable_keeps {m : Memory} {seg : BitVec 9} {s : State} (hm : m.KeptBy s.pm)
    (hnone : s.pm.read seg.toNat = 0#32) : (allocTable seg s).EndsIn fun t => m.KeptBy t.pm := by
  cases hf : s.bm.findConsecutiveZeros with
  | none => rw [allocTable_none hf]; exact endsIn_fatal hm
  | some n => rw [allocTable_some hf]; exact endsIn_ok (hm.write hnone _)

theorem allocPage_keeps {m : Memory} {i : Int} {s : State} (hm : m.KeptBy s.pm) (hi : inPm i = true)
    (hnone : s.pm.read i.toNat = 0#32) : (allocPage i s).EndsIn fun t => m.KeptBy t.pm := by
  cases hf : s.bm.findFirstZero with
  | none => rw [allocPage_none hf]; exact endsIn_fatal hm
  | some n => rw [allocPage_some hi hf]; exact endsIn_ok (hm.write hnone _)

/-- A walk, however it ends, changes no word that was not 0. -/
theorem walkPasses_keeps {m : Memory} {passes : Nat} {seg : BitVec 9} {page : BitVec 10} {off : BitVec 9}
    {write : Bool} {s : State} (hm : m.KeptBy s.pm) :
    (walkPasses passes seg page off write s).EndsIn fun t => m.KeptBy t.pm := by
  induction passes generalizing s with
  | zero => exact endsIn_fault
  | succ passes ih =>
    rw [walkPasses_succ]
    simp only
    split
    · exact endsIn_ok hm
    split
    · next hnone =>
      split
      · exact andThen_endsIn (allocTable_keeps hm (s32_eq_zero.mp hnone)) fun _ _ hu => ih hu
      · exact endsIn_ok hm
    split
    · next hi =>
      split
      · exact endsIn_ok hm
      split
      · next hnone =>
        split
        · exact andThen_endsIn (allocPage_keeps hm hi (s32_eq_zero.mp hnone)) fun _ _ hu => ih hu
        · exact endsIn_ok hm
      · exact endsIn_ok hm
    · exact endsIn_fatal hm

theorem walk_keeps {a : Word} {write : Bool} {s : State} : (walk a write s).EndsIn fun t => s.pm.KeptBy t.pm :=
  walkPasses_keeps (.refl s.pm)

/-! ## What a translation rests on -/

/-- A resolved translation rests on two words that are not 0, the segment entry and the page entry. -/
theorem State.resolvesTo_of_kept {s t : State} {seg : BitVec 9} {page : BitVec 10} {frame : Word}
    (h : s.resolvesTo seg page frame) (hm : s.pm.KeptBy t.pm) : t.resolvesTo seg page frame := by
  obtain ⟨⟨⟨hst, hst0⟩, hlo, hhi⟩, rfl, hpt, hpt0⟩ := h
  have hseg : t.segEntry seg = s.segEntry seg := hm _ (mt s32_eq_zero.mpr hst0)
  have hindex : t.pageIndex seg page = s.pageIndex seg page := by rw [State.pageIndex, hseg, State.pageIndex]
  have hpage : t.pageEntry seg page = s.pageEntry seg page := by
    rw [State.pageEntry, hindex]
    exact hm _ (mt s32_eq_zero.mpr hpt0)
  rw [← hseg] at hst hst0
  rw [← hindex] at hlo hhi
  exact ⟨⟨⟨hst, hst0⟩, hlo, hhi⟩, hpage, hpt, hpt0⟩

/-- A walk that ends resolved ends in a state where the pair resolves to the frame word it reports
(43_translation_sequencer.md R166 step 6). -/
theorem walkPasses_resolved {passes : Nat} {seg : BitVec 9} {page : BitVec 10} {off : BitVec 9} {write : Bool}
    {s t : State} {pa frame : Word} (h : walkPasses passes seg page off write s = .ok (.resolved pa frame) t) :
    t.resolvesTo seg page frame := by
  induction passes generalizing s with
  | zero => cases h
  | succ passes ih =>
    rw [walkPasses_succ] at h
    simp only at h
    split at h
    · cases h
    next hst =>
    split at h
    · split at h
      · obtain ⟨-, u, -, hu⟩ := andThen_eq_ok.mp h
        exact ih hu
      · cases h
    next hst0 =>
    split at h
    · next hi =>
      split at h
      · cases h
      next hpt =>
      split at h
      · split at h
        · obtain ⟨-, u, -, hu⟩ := andThen_eq_ok.mp h
          exact ih hu
        · cases h
      next hpt0 =>
      cases h
      exact ⟨⟨⟨hst, hst0⟩, (inPm_iff _).mp hi⟩, rfl, hpt, hpt0⟩
    · cases h

/-- A field inside a key is a field of the address, nine bits further up (40_va_decomposer.md R110). -/
theorem extractLsb'_keyOf (a : Word) {lo n : Nat} (h : lo + n ≤ 19) :
    (keyOf a).extractLsb' lo n = a.extractLsb' (9 + lo) n := by
  ext i hi
  have hin : lo + i < 19 := by omega
  simp [keyOf, hin, Nat.add_assoc]

theorem keySegment_keyOf (a : Word) : keySegment (keyOf a) = segmentOf a := extractLsb'_keyOf a (by decide)

theorem keyPage_keyOf (a : Word) : keyPage (keyOf a) = pageOf a := extractLsb'_keyOf a (by decide)

theorem walk_resolved {a : Word} {write : Bool} {s t : State} {pa frame : Word}
    (h : walk a write s = .ok (.resolved pa frame) t) :
    t.resolvesTo (keySegment (keyOf a)) (keyPage (keyOf a)) frame := by
  rw [keySegment_keyOf, keyPage_keyOf]
  exact walkPasses_resolved h

/-! ## What the updates of the TLB leave cached -/

/-- A hit moves recency ranks alone (42_tlb.md R143). -/
theorem Tlb.mem_promote {t : Tlb} {i : Nat} {e x : TlbEntry} (he : e ∈ t) (hx : x ∈ t.promote i e) :
    ∃ y ∈ t, y.valid = x.valid ∧ y.key = x.key ∧ y.frame = x.frame := by
  rcases List.mem_or_eq_of_mem_set hx with hx | rfl
  · obtain ⟨y, hy, rfl⟩ := List.mem_map.mp hx
    exact ⟨y, hy, by simp⟩
  · exact ⟨e, he, rfl, rfl, rfl⟩

/-- A miss caches the new pair, and otherwise moves recency ranks alone (42_tlb.md R146). -/
theorem Tlb.mem_insert {t : Tlb} {k : Key} {frame : Word} {x : TlbEntry} (hx : x ∈ t.insert k frame) :
    (x.key = k ∧ x.frame = frame) ∨ ∃ y ∈ t, y.valid = x.valid ∧ y.key = x.key ∧ y.frame = x.frame := by
  obtain ⟨y, hy, rfl⟩ := List.mem_map.mp hx
  split
  · exact .inl ⟨rfl, rfl⟩
  · exact .inr ⟨y, hy, rfl, rfl, rfl⟩

/-! ## Coherence -/

theorem State.tlbCoherent.of_kept {s t : State} (hs : s.tlbCoherent) (htlb : t.tlb = s.tlb)
    (hm : s.pm.KeptBy t.pm) : t.tlbCoherent := fun e he hv =>
  State.resolvesTo_of_kept (hs e (htlb ▸ he) hv) hm

theorem walk_tlbCoherent {a : Word} {write : Bool} {s : State} (hs : s.tlbCoherent) :
    (walk a write s).EndsIn State.tlbCoherent := fun t ht => hs.of_kept (walk_same ht).tlb (walk_keeps t ht)

theorem doHit_tlbCoherent {i : Nat} {e : TlbEntry} {s : State} (hs : s.tlbCoherent) (he : e ∈ s.tlb) :
    (doHit i e s).EndsIn State.tlbCoherent := by
  refine endsIn_ok fun x hx hv => ?_
  obtain ⟨y, hy, hvalid, hkey, hframe⟩ := Tlb.mem_promote he hx
  rw [← hkey, ← hframe]
  exact hs y hy (hvalid.trans hv)

theorem doMiss_tlbCoherent {k : Key} {frame : Word} {s : State} (hs : s.tlbCoherent)
    (hk : s.resolvesTo (keySegment k) (keyPage k) frame) : (doMiss k frame s).EndsIn State.tlbCoherent := by
  rw [doMiss_eq]
  split
  · refine endsIn_ok fun x hx hv => ?_
    rcases Tlb.mem_insert hx with ⟨rfl, rfl⟩ | ⟨y, hy, hvalid, hkey, hframe⟩
    · exact hk
    · rw [← hkey, ← hframe]
      exact hs y hy (hvalid.trans hv)
  · exact endsIn_fault

/-- Sequencing, where what follows may rest on how the first part ended. -/
theorem andThen_endsIn_of_ok {α β : Type} {P : State → Prop} {r : Run α} {k : α → State → Run β} (hr : r.EndsIn P)
    (hk : ∀ a u, r = .ok a u → (k a u).EndsIn P) : (r.andThen k).EndsIn P := by
  cases r with
  | ok a u => exact hk a u rfl
  | fatal c m u => exact endsIn_fatal (hr u rfl)
  | fault f => exact endsIn_fault

/-- The insertion after a walk caches the translation the walk has just found (43_translation_sequencer.md R172). -/
theorem cacheIfResolved_tlbCoherent {a : Word} {write : Bool} {o : WalkEnd} {s t : State} (hs : s.tlbCoherent)
    (h : walk a write s = .ok o t) : (cacheIfResolved (keyOf a) o t).EndsIn State.tlbCoherent := by
  have ht : t.tlbCoherent := walk_tlbCoherent hs t (by rw [h]; rfl)
  cases o with
  | pageFault => exact endsIn_ok ht
  | error => exact endsIn_ok ht
  | resolved pa frame => exact doMiss_tlbCoherent ht (walk_resolved h)

theorem tlbMissPath_tlbCoherent {a : Word} {write : Bool} {s : State} (hs : s.tlbCoherent) :
    (tlbMissPath a write s).EndsIn State.tlbCoherent :=
  marked_endsIn <| andThen_endsIn_of_ok (walk_tlbCoherent hs) fun _ _ hu =>
    andThen_endsIn (cacheIfResolved_tlbCoherent hs hu) fun _ _ hv => endsIn_ok hv

theorem tlbPath_tlbCoherent {a : Word} {write : Bool} {s : State} (hs : s.tlbCoherent) :
    (tlbPath a write s).EndsIn State.tlbCoherent := by
  unfold tlbPath
  split
  · exact tlbMissPath_tlbCoherent hs
  split
  · exact tlbMissPath_tlbCoherent hs
  · next he =>
    exact andThen_endsIn (doHit_tlbCoherent hs (List.mem_of_getElem? he)) fun _ _ hu => endsIn_ok hu

theorem access_tlbCoherent {a : Word} {write useTlb : Bool} {s : State} (hs : s.tlbCoherent) :
    (access a write useTlb s).EndsIn State.tlbCoherent := by
  unfold access
  split
  · exact tlbPath_tlbCoherent hs
  · exact andThen_endsIn (walk_tlbCoherent hs) fun _ _ hu => endsIn_ok hu

/-- What neither answering nor the fatal latch touches is kept by a command whose own pseudocode keeps it. -/
theorem command_keeps {P : State → Prop} {body : State → Run Reply} {s t : State}
    (hanswer : ∀ r u, P u → P (answer r u)) (hfatal : ∀ c m u, P u → P (takeFatal c m u)) (hs : P s)
    (hbody : (body s).EndsIn P) (h : command body s = .next t) : P t := by
  cases hlatch : s.fatal with
  | true =>
    rw [command_halted hlatch] at h
    cases h
    exact hanswer _ s hs
  | false =>
    rw [command_running hlatch] at h
    rcases finish_eq_next.mp h with ⟨r, u, hu, rfl⟩ | ⟨c, m, u, hu, rfl⟩
    · exact hanswer r u (hbody u (by rw [hu]; rfl))
    · exact hfatal c m u (hbody u (by rw [hu]; rfl))

theorem exec_accessCommand (write : Bool) (a : Word) (t : Bool) (s : State) :
    exec (accessCommand write a t) s = command (access a write t) s := by
  cases write <;> rfl

/-- Settles O49: the walk changes no word a cached translation rests on, and both updates of the TLB leave only
translations that hold; answering touches neither PM nor the TLB. -/
theorem accessesKeepTheTlbCoherent : Obligations.AccessesKeepTheTlbCoherent := by
  unfold Obligations.AccessesKeepTheTlbCoherent
  intro s u a w t hs h
  rw [exec_accessCommand] at h
  exact command_keeps (fun _ _ hv => hv) (fun _ _ _ hv => hv) hs (access_tlbCoherent hs) h

end Sys2Proof.Machine
end

section
/-! The encoding (30_encoding.md R80 to R93). First what each field of a format's word holds, and how a word is put
back together from its fields. From these the decoder and the encoder are inverse to each other, and the words a row
of the opcode table admits are exactly the words of that row's commands. -/

namespace Sys2Proof

/-! ## Slices of a word -/

section
open BitVec

theorem extractLsb'_above {m n lo len : Nat} {x : BitVec m} {y : BitVec n} {f : BitVec len}
    (h : x.extractLsb' lo len = f) : (x ++ y).extractLsb' (lo + n) len = f := by
  rw [extractLsb'_append_eq_of_le (Nat.le_add_left n lo), Nat.add_sub_cancel, h]

theorem extractLsb'_within {m n lo len : Nat} {x : BitVec m} {y : BitVec n} {f : BitVec len} (hlen : lo + len ≤ n)
    (h : y.extractLsb' lo len = f) : (x ++ y).extractLsb' lo len = f := by
  rw [extractLsb'_append_eq_of_add_le hlen, h]

theorem getLsbD_above {m n i : Nat} {x : BitVec m} {y : BitVec n} {b : Bool} (h : x.getLsbD i = b) :
    (x ++ y).getLsbD (i + n) = b := by
  rw [getLsbD_append, if_neg (by omega), Nat.add_sub_cancel, h]

theorem getLsbD_append_ofBool {m : Nat} {x : BitVec m} {b : Bool} : (x ++ ofBool b).getLsbD 0 = b := by
  rw [getLsbD_append, if_pos Nat.one_pos, getLsbD_ofBool, decide_eq_true rfl, Bool.true_and]

theorem ofBool_getLsbD_eq_extractLsb' {w : Nat} (x : BitVec w) (i : Nat) :
    ofBool (x.getLsbD i) = x.extractLsb' i 1 := by
  ext j hj
  obtain rfl : j = 0 := by omega
  simp

theorem zeroBits_iff {cw : CommandWord} {lo n : Nat} : zeroBits cw lo n = true ↔ cw.extractLsb' lo n = 0#n :=
  beq_iff_eq

theorem getLsbD_of_zeroBits {cw : CommandWord} {lo n i : Nat} (h : zeroBits cw lo n = true) (hlo : lo ≤ i)
    (hhi : i < lo + n) : cw.getLsbD i = false := by
  have hbit := congrArg (fun x => x.getLsbD (i - lo)) (zeroBits_iff.mp h)
  simpa [show i - lo < n by omega, show lo + (i - lo) = i by omega] using hbit

theorem zeroBits_of_zeroBits {cw : CommandWord} {lo n lo' n' : Nat} (h : zeroBits cw lo n = true) (hlo : lo ≤ lo')
    (hhi : lo' + n' ≤ lo + n) : zeroBits cw lo' n' = true := by
  rw [zeroBits_iff]
  ext j hj
  simpa using getLsbD_of_zeroBits h (by omega) (by omega)

/-- VA_DECODE asks T and W to be 0 besides the zero field of format V (30_encoding.md R84, R92). -/
theorem zeroBits_vaDecode_iff {cw : CommandWord} :
    zeroBits cw 32 24 = true ↔ zeroBits cw 34 22 = true ∧ wField cw = false ∧ tField cw = false := by
  constructor
  · intro h
    exact ⟨zeroBits_of_zeroBits h (by decide) (by decide), getLsbD_of_zeroBits h (by decide) (by decide),
      getLsbD_of_zeroBits h (by decide) (by decide)⟩
  · rintro ⟨hz, hw, ht⟩
    have hjoin : cw.extractLsb' 34 22 ++ ofBool (wField cw) ++ ofBool (tField cw) = cw.extractLsb' 32 24 := by
      rw [wField, tField, ofBool_getLsbD_eq_extractLsb', ofBool_getLsbD_eq_extractLsb']
      simp (disch := omega) only [extractLsb'_append_extractLsb'_eq_extractLsb']
    rw [zeroBits_iff, ← hjoin, zeroBits_iff.mp hz, hw, ht]
    rfl

/-! ## The fields of each format's word (30_encoding.md R83 to R87) -/

@[simp] theorem zeroBits_formatZ (opc : BitVec 8) : zeroBits (formatZ opc) 0 56 = true :=
  zeroBits_iff.mpr extractLsb'_append_eq_right

section
variable (opc : BitVec 8) (w t : Bool) (a : Word)

@[simp] theorem dataField_formatV : dataField (formatV opc w t a) = a := extractLsb'_append_eq_right

@[simp] theorem tField_formatV : tField (formatV opc w t a) = t := getLsbD_above getLsbD_append_ofBool

@[simp] theorem wField_formatV : wField (formatV opc w t a) = w := getLsbD_above (getLsbD_above getLsbD_append_ofBool)

@[simp] theorem zeroBits_formatV : zeroBits (formatV opc w t a) 34 22 = true :=
  zeroBits_iff.mpr <| extractLsb'_above <| extractLsb'_above <| extractLsb'_above extractLsb'_append_eq_right

end

section
variable (opc : BitVec 8) (row : BitVec 16) (col : BitVec 8) (val : Bool)

@[simp] theorem valField_formatB : valField (formatB opc row col val) = val := getLsbD_append_ofBool

@[simp] theorem colField_formatB : colField (formatB opc row col val) = col :=
  extractLsb'_above <| extractLsb'_above extractLsb'_append_eq_right

@[simp] theorem rowField_formatB : rowField (formatB opc row col val) = row :=
  extractLsb'_above <| extractLsb'_above <| extractLsb'_above extractLsb'_append_eq_right

@[simp] theorem zeroBits_formatB_high : zeroBits (formatB opc row col val) 32 24 = true :=
  zeroBits_iff.mpr <|
    extractLsb'_above <| extractLsb'_above <| extractLsb'_above <| extractLsb'_above extractLsb'_append_eq_right

@[simp] theorem zeroBits_formatB_low : zeroBits (formatB opc row col val) 1 7 = true :=
  zeroBits_iff.mpr <| extractLsb'_above extractLsb'_append_eq_right

end

section
variable (opc : BitVec 8) (key : Key) (data : Word)

@[simp] theorem dataField_formatK : dataField (formatK opc key data) = data := extractLsb'_append_eq_right

@[simp] theorem keyField_formatK : keyField (formatK opc key data) = key :=
  extractLsb'_above extractLsb'_append_eq_right

@[simp] theorem zeroBits_formatK : zeroBits (formatK opc key data) 51 5 = true :=
  zeroBits_iff.mpr <| extractLsb'_above <| extractLsb'_above extractLsb'_append_eq_right

@[simp] theorem segField_formatK (seg : BitVec 9) (page : BitVec 10) :
    segField (formatK opc (seg ++ page) data) = seg :=
  extractLsb'_above <| extractLsb'_within (by decide) extractLsb'_append_eq_left

@[simp] theorem pageField_formatK (seg : BitVec 9) (page : BitVec 10) :
    pageField (formatK opc (seg ++ page) data) = page :=
  extractLsb'_above <| extractLsb'_within (by decide) extractLsb'_append_eq_right

@[simp] theorem zeroBits_page_formatK (seg : BitVec 9) : zeroBits (formatK opc (seg ++ 0#10) data) 32 10 = true :=
  zeroBits_iff.mpr (pageField_formatK opc data seg 0#10)

@[simp] theorem idxField_formatK (idx : BitVec 8) : idxField (formatK opc key (0#24 ++ idx)) = idx :=
  extractLsb'_within (by decide) extractLsb'_append_eq_right

@[simp] theorem zeroBits_aboveIdx_formatK (idx : BitVec 8) :
    zeroBits (formatK opc key (0#24 ++ idx)) 8 24 = true :=
  zeroBits_iff.mpr <| extractLsb'_within (by decide) extractLsb'_append_eq_left

@[simp] theorem zeroBits_data_formatK : zeroBits (formatK opc key 0#32) 0 32 = true :=
  zeroBits_iff.mpr (dataField_formatK opc key 0#32)

end

/-! ## A word put back together from its fields -/

theorem formatZ_of_fields {cw : CommandWord} {opc : BitVec 8} (hopc : (opcField cw).toNat = opc.toNat)
    (hz : zeroBits cw 0 56 = true) : formatZ opc = cw := by
  obtain rfl := eq_of_toNat_eq hopc
  rw [formatZ, opcField, ← zeroBits_iff.mp hz]
  exact extractLsb'_append_extractLsb'

theorem formatV_of_fields {cw : CommandWord} {opc : BitVec 8} {w t : Bool} (hopc : (opcField cw).toNat = opc.toNat)
    (hz : zeroBits cw 34 22 = true) (hw : wField cw = w) (ht : tField cw = t) :
    formatV opc w t (dataField cw) = cw := by
  obtain rfl := eq_of_toNat_eq hopc
  subst hw ht
  rw [formatV, opcField, wField, tField, dataField, ofBool_getLsbD_eq_extractLsb', ofBool_getLsbD_eq_extractLsb',
    ← zeroBits_iff.mp hz]
  simp (disch := omega) only [extractLsb'_append_extractLsb'_eq_extractLsb']
  exact extractLsb'_eq_self

theorem formatB_of_fields {cw : CommandWord} {opc : BitVec 8} (hopc : (opcField cw).toNat = opc.toNat)
    (hhigh : zeroBits cw 32 24 = true) (hlow : zeroBits cw 1 7 = true) :
    formatB opc (rowField cw) (colField cw) (valField cw) = cw := by
  obtain rfl := eq_of_toNat_eq hopc
  rw [formatB, opcField, rowField, colField, valField, ofBool_getLsbD_eq_extractLsb', ← zeroBits_iff.mp hhigh,
    ← zeroBits_iff.mp hlow]
  simp (disch := omega) only [extractLsb'_append_extractLsb'_eq_extractLsb']
  exact extractLsb'_eq_self

theorem formatK_of_fields {cw : CommandWord} {opc : BitVec 8} {key : Key} {data : Word}
    (hopc : (opcField cw).toNat = opc.toNat) (hz : zeroBits cw 51 5 = true) (hkey : keyField cw = key)
    (hdata : dataField cw = data) :
    formatK opc key data = cw := by
  obtain rfl := eq_of_toNat_eq hopc
  subst hkey hdata
  rw [formatK, opcField, keyField, dataField, ← zeroBits_iff.mp hz]
  simp (disch := omega) only [extractLsb'_append_extractLsb'_eq_extractLsb']
  exact extractLsb'_eq_self

/-- KEY is SEG‖PAGE (30_encoding.md R81). -/
theorem keyField_eq_append (cw : CommandWord) : keyField cw = segField cw ++ pageField cw :=
  (extractLsb'_append_extractLsb'_eq_extractLsb' (start₁ := 32) (len₁ := 10) rfl).symm

theorem keyField_of_zero_page {cw : CommandWord} (h : zeroBits cw 32 10 = true) :
    keyField cw = segField cw ++ 0#10 := by
  rw [keyField_eq_append, pageField, zeroBits_iff.mp h]

theorem dataField_of_zero_aboveIdx {cw : CommandWord} (h : zeroBits cw 8 24 = true) :
    dataField cw = 0#24 ++ idxField cw := by
  rw [← zeroBits_iff.mp h]
  exact (extractLsb'_append_extractLsb'_eq_extractLsb' (start₁ := 0) (len₁ := 8) rfl).symm

end

/-! ## The decoder and the encoder -/

theorem whenZero_eq_command {ok : Bool} {i j : Instr} : whenZero ok i = .command j ↔ ok = true ∧ i = j := by
  cases ok <;> simp [whenZero]

/-- The decoder reads the opcode the format wrote, finds its zero fields 0, and takes the operands as written. -/
theorem decode_encode (i : Instr) : decode (encode i) = .command i := by
  cases i with
  | bmFfz | bmFcz | bmClear | tlbReset | vmClear =>
    simp [decode, encode, Laws.opcField_formatZ, whenZero_eq_command]
  | vaDecode => simp [decode, encode, Laws.opcField_formatV, whenZero_eq_command, zeroBits_vaDecode_iff]
  | vmRead | vmWrite => simp [decode, encode, Laws.opcField_formatV, whenZero_eq_command]
  | bmSet => simp [decode, encode, Laws.opcField_formatB, whenZero_eq_command]
  | tlbHitIdx | tlbDoHit | tlbDoMiss | vmCreatePt | vmCreatePage | vmGetPt =>
    simp [decode, encode, Laws.opcField_formatK, whenZero_eq_command]

/-- Settles O1: each format's fields are read back from the word they were written to. -/
theorem decodeOfEncode : Obligations.DecodeOfEncode := decode_encode

/-- The opcode, the zero fields the decoder checked and the operands it took are all the bits of the word; the
cases stand in the order of the opcodes. -/
theorem encode_of_decode {cw : CommandWord} {i : Instr} (h : decode cw = .command i) : encode i = cw := by
  unfold decode at h
  split at h
  case h_15 => cases h
  all_goals obtain ⟨hz, rfl⟩ := whenZero_eq_command.mp h
  · next hopc =>
    obtain ⟨hz, hw, ht⟩ := zeroBits_vaDecode_iff.mp hz
    exact formatV_of_fields hopc hz hw ht
  · next hopc => exact formatZ_of_fields hopc hz
  · next hopc => exact formatZ_of_fields hopc hz
  · next hopc =>
    obtain ⟨hhigh, hlow⟩ := Bool.and_eq_true_iff.mp hz
    exact formatB_of_fields hopc hhigh hlow
  · next hopc => exact formatZ_of_fields hopc hz
  · next hopc =>
    obtain ⟨hz, hdata⟩ := Bool.and_eq_true_iff.mp hz
    exact formatK_of_fields hopc hz rfl (zeroBits_iff.mp hdata)
  · next hopc =>
    obtain ⟨hz, hidx⟩ := Bool.and_eq_true_iff.mp hz
    exact formatK_of_fields hopc hz rfl (dataField_of_zero_aboveIdx hidx)
  · next hopc => exact formatK_of_fields hopc hz rfl rfl
  · next hopc => exact formatZ_of_fields hopc hz
  · next hopc =>
    obtain ⟨hz, hpage⟩ := Bool.and_eq_true_iff.mp hz
    exact formatK_of_fields hopc hz (keyField_of_zero_page hpage) rfl
  · next hopc => exact formatK_of_fields hopc hz (keyField_eq_append cw) rfl
  · next hopc =>
    obtain ⟨hz, hdata⟩ := Bool.and_eq_true_iff.mp hz
    exact formatK_of_fields hopc hz (keyField_eq_append cw) (zeroBits_iff.mp hdata)
  · next hopc =>
    cases hw : wField cw with
    | false => exact formatV_of_fields hopc hz hw rfl
    | true => exact formatV_of_fields hopc hz hw rfl
  · next hopc => exact formatZ_of_fields hopc hz

/-- Settles O2: a legal word is its opcode, its zero fields and its operands put back together. -/
theorem encodeOfDecode : Obligations.EncodeOfDecode := fun _ _ => encode_of_decode

/-- The decoder inverts the encoder, and accepts nothing else. -/
theorem decode_eq_command {cw : CommandWord} {i : Instr} : decode cw = .command i ↔ encode i = cw :=
  ⟨encode_of_decode, fun h => h ▸ decode_encode i⟩

/-! ## The opcode table (30_encoding.md R92, R93) -/

theorem Instr.row_mem_opcodeTable (i : Instr) : i.row ∈ opcodeTable := by
  cases i <;> simp [opcodeTable, Instr.row]

theorem exists_row_of_mem_opcodeTable {r : OpcodeRow} (h : r ∈ opcodeTable) : ∃ i : Instr, i.row = r := by
  obtain ⟨i, -, hi⟩ := List.mem_map.mp h
  exact ⟨i, hi⟩

section
open BitVec
variable {opc : BitVec 8} {mask : CommandWord}

/-- A mask of format V that tests the opcode and the zero field keeps of T, W and A what it has ones for. -/
theorem formatV_and {w t mw mt : Bool} {a ma : Word}
    (hmask : mask = allOnes 8 ++ allOnes 22 ++ ofBool mw ++ ofBool mt ++ ma) :
    formatV opc w t a &&& mask = formatV opc (w && mw) (t && mt) (a &&& ma) := by
  rw [hmask, formatV, formatV, and_append, and_append, and_append, and_append, and_allOnes, zero_and,
    ofBool_and_ofBool, ofBool_and_ofBool]

/-- As `formatV_and`, for format B. -/
theorem formatB_and {row mrow : BitVec 16} {col mcol : BitVec 8} {val mval : Bool}
    (hmask : mask = allOnes 8 ++ allOnes 24 ++ mrow ++ mcol ++ allOnes 7 ++ ofBool mval) :
    formatB opc row col val &&& mask = formatB opc (row &&& mrow) (col &&& mcol) (val && mval) := by
  rw [hmask, formatB, formatB, and_append, and_append, and_append, and_append, and_append, and_allOnes, zero_and,
    zero_and, ofBool_and_ofBool]

/-- As `formatV_and`, for format K. -/
theorem formatK_and {key mkey : Key} {data mdata : Word}
    (hmask : mask = allOnes 8 ++ allOnes 5 ++ mkey ++ mdata) :
    formatK opc key data &&& mask = formatK opc (key &&& mkey) (data &&& mdata) := by
  rw [hmask, formatK, formatK, and_append, and_append, and_append, and_allOnes, zero_and]

/-- Under its row's mask only the opcode of a command's word is left, and W for an access. -/
theorem admits_encode (i : Instr) : i.row.admits (encode i) := by
  cases i with
  | bmFfz | bmFcz | bmClear | tlbReset | vmClear => decide
  | vaDecode =>
    refine (formatV_and (mw := true) (mt := true) (ma := 0#32) rfl).trans ?_
    rw [and_zero]; rfl
  | vmRead | vmWrite =>
    refine (formatV_and (mw := true) (mt := false) (ma := 0#32) rfl).trans ?_
    rw [and_zero, Bool.and_false]; rfl
  | bmSet =>
    refine (formatB_and (mrow := 0#16) (mcol := 0#8) (mval := false) rfl).trans ?_
    rw [and_zero, and_zero, Bool.and_false]; rfl
  | tlbHitIdx | vmGetPt =>
    refine (formatK_and (mkey := 0#19) (mdata := allOnes 32) rfl).trans ?_
    rw [and_zero]; rfl
  | tlbDoHit =>
    refine (formatK_and (mkey := 0#19) (mdata := allOnes 24 ++ 0#8) rfl).trans ?_
    rw [and_zero, and_append, and_zero]; rfl
  | tlbDoMiss | vmCreatePage =>
    refine (formatK_and (mkey := 0#19) (mdata := 0#32) rfl).trans ?_
    rw [and_zero, and_zero]; rfl
  | vmCreatePt =>
    refine (formatK_and (mkey := 0#9 ++ allOnes 10) (mdata := 0#32) rfl).trans ?_
    rw [and_zero, and_append, and_zero]; rfl

/-- A slice all of whose bits the mask tests holds what the pattern has there. -/
theorem slice_of_mask {cw mask pattern : CommandWord} (h : cw &&& mask = pattern) (lo : Nat) {n : Nat} {f : BitVec n}
    (hmask : mask.extractLsb' lo n = allOnes n := by decide) (hpattern : pattern.extractLsb' lo n = f := by decide) :
    cw.extractLsb' lo n = f := by
  have hslice := congrArg (extractLsb' lo n) h
  rwa [extractLsb'_and, hmask, and_allOnes, hpattern] at hslice

theorem bit_of_mask {cw mask pattern : CommandWord} (h : cw &&& mask = pattern) (k : Nat) {b : Bool}
    (hmask : mask.getLsbD k = true := by decide) (hpattern : pattern.getLsbD k = b := by decide) :
    cw.getLsbD k = b := by
  rw [← hpattern, ← h, getLsbD_and, hmask, Bool.and_true]

theorem opcode_of_mask {cw mask pattern : CommandWord} {opc : BitVec 8} (h : cw &&& mask = pattern)
    (hmask : mask.extractLsb' 56 8 = allOnes 8 := by decide) (hpattern : pattern.extractLsb' 56 8 = opc := by decide) :
    (opcField cw).toNat = opc.toNat := congrArg BitVec.toNat (slice_of_mask h 56 hmask hpattern)

theorem zeroBits_of_mask {cw mask pattern : CommandWord} {lo n : Nat} (h : cw &&& mask = pattern)
    (hmask : mask.extractLsb' lo n = allOnes n := by decide) (hpattern : pattern.extractLsb' lo n = 0#n := by decide) :
    zeroBits cw lo n = true := zeroBits_iff.mpr (slice_of_mask h lo hmask hpattern)

/-- Every word a row admits is the word of a command of that row, the one with the word's own fields as operands. -/
theorem exists_encode_of_admits {i : Instr} {cw : CommandWord} (h : i.row.admits cw) :
    ∃ j : Instr, j.row = i.row ∧ encode j = cw := by
  cases i <;> dsimp only [OpcodeRow.admits, Instr.row] at h
  case bmFfz | bmFcz | bmClear | tlbReset | vmClear =>
    exact ⟨_, rfl, formatZ_of_fields (opcode_of_mask h) (zeroBits_of_mask h)⟩
  case vaDecode =>
    exact ⟨.vaDecode (dataField cw), rfl,
      formatV_of_fields (opcode_of_mask h) (zeroBits_of_mask h) (bit_of_mask h 33) (bit_of_mask h 32)⟩
  case vmRead =>
    exact ⟨.vmRead (dataField cw) (tField cw), rfl,
      formatV_of_fields (opcode_of_mask h) (zeroBits_of_mask h) (bit_of_mask h 33) rfl⟩
  case vmWrite =>
    exact ⟨.vmWrite (dataField cw) (tField cw), rfl,
      formatV_of_fields (opcode_of_mask h) (zeroBits_of_mask h) (bit_of_mask h 33) rfl⟩
  case bmSet =>
    exact ⟨.bmSet (rowField cw) (colField cw) (valField cw), rfl,
      formatB_of_fields (opcode_of_mask h) (zeroBits_of_mask h) (zeroBits_of_mask h)⟩
  case tlbHitIdx =>
    exact ⟨.tlbHitIdx (keyField cw), rfl,
      formatK_of_fields (opcode_of_mask h) (zeroBits_of_mask h) rfl (slice_of_mask h 0)⟩
  case tlbDoHit =>
    exact ⟨.tlbDoHit (keyField cw) (idxField cw), rfl,
      formatK_of_fields (opcode_of_mask h) (zeroBits_of_mask h) rfl (dataField_of_zero_aboveIdx (zeroBits_of_mask h))⟩
  case tlbDoMiss =>
    exact ⟨.tlbDoMiss (keyField cw) (dataField cw), rfl,
      formatK_of_fields (opcode_of_mask h) (zeroBits_of_mask h) rfl rfl⟩
  case vmCreatePt =>
    exact ⟨.vmCreatePt (segField cw) (dataField cw), rfl,
      formatK_of_fields (opcode_of_mask h) (zeroBits_of_mask h) (keyField_of_zero_page (zeroBits_of_mask h)) rfl⟩
  case vmCreatePage =>
    exact ⟨.vmCreatePage (pageField cw) (segField cw) (dataField cw), rfl,
      formatK_of_fields (opcode_of_mask h) (zeroBits_of_mask h) (keyField_eq_append cw) rfl⟩
  case vmGetPt =>
    exact ⟨.vmGetPt (segField cw) (pageField cw), rfl,
      formatK_of_fields (opcode_of_mask h) (zeroBits_of_mask h) (keyField_eq_append cw) (slice_of_mask h 0)⟩

end

/-- Settles O3: a decoded word is its command's own word, which the command's row admits; and a word that a row admits
is a command's own word, which decodes. -/
theorem decoderAcceptsTheTablesWords : Obligations.DecoderAcceptsTheTablesWords := by
  have hadmits : ∀ (cw : CommandWord) (i : Instr), decode cw = .command i → i.row.admits cw := by
    intro cw i h
    have hrow := admits_encode i
    rwa [encode_of_decode h] at hrow
  refine ⟨fun cw => ⟨?_, ?_⟩, hadmits⟩
  · rintro ⟨i, h⟩
    exact ⟨i.row, i.row_mem_opcodeTable, hadmits cw i h⟩
  · rintro ⟨r, hr, h⟩
    obtain ⟨i, rfl⟩ := exists_row_of_mem_opcodeTable hr
    obtain ⟨j, -, hj⟩ := exists_encode_of_admits h
    exact ⟨j, decode_eq_command.mpr hj⟩

/-- Settles O4: two rows that admit a word have a command each with that word, and the word decodes to only one. -/
theorem opcodeRowsAreDisjoint : Obligations.OpcodeRowsAreDisjoint := by
  refine ⟨rfl, fun cw r q hr hq hadmitsR hadmitsQ => ?_⟩
  obtain ⟨i, rfl⟩ := exists_row_of_mem_opcodeTable hr
  obtain ⟨j, rfl⟩ := exists_row_of_mem_opcodeTable hq
  obtain ⟨i', hi, hwordI⟩ := exists_encode_of_admits hadmitsR
  obtain ⟨j', hj, hwordJ⟩ := exists_encode_of_admits hadmitsQ
  have heq : Decoded.command i' = .command j' :=
    (decode_eq_command.mpr hwordI).symm.trans (decode_eq_command.mpr hwordJ)
  rw [← hi, ← hj, Decoded.command.inj heq]

end Sys2Proof
end

section
/-! What the remaining rules of the encoding chapter say of a response and of a step: where the fields of a response
stand and how it is rendered (30_encoding.md R88, R98), and that a step runs the command it takes (R94). -/

namespace Sys2Proof.Machine

/-! ## The response word -/

section
open BitVec
variable (r : Reply)

@[simp] theorem rspStatus_word : rspStatus r.word = r.status.code :=
  extractLsb'_above <| extractLsb'_above extractLsb'_append_eq_left

@[simp] theorem rspMarker_word : rspMarker r.word = r.marker.code :=
  extractLsb'_above <| extractLsb'_above extractLsb'_append_eq_right

theorem reservedBits_word : r.word.extractLsb' 32 26 = 0#26 := extractLsb'_above extractLsb'_append_eq_right

@[simp] theorem rspData_word : rspData r.word = r.data := extractLsb'_append_eq_right

end

/-- Settles O6: each field lies above exactly the fields that `Reply.word` puts below it. -/
theorem responseWordLayout : Obligations.ResponseWordLayout :=
  fun r => ⟨rspStatus_word r, rspMarker_word r, reservedBits_word r, rspData_word r⟩

theorem markerTokens_word (r : Reply) :
    markerTokens r.word = match r.marker with | .hit => [Token.hit] | .miss => [Token.miss] | .none => [] := by
  rw [markerTokens, rspMarker_word]
  cases r.marker <;> rfl

theorem outcomeTokens_word (r : Reply) :
    outcomeTokens r.word = match r.status with
      | .ok => [Token.address r.data.toInt] | .pf => [Token.pageFault] | .err => [Token.error] | _ => [] := by
  rw [outcomeTokens, rspStatus_word, rspData_word]
  cases r.status <;> rfl

/-- Settles O60: the host reads marker and status back from the word, and no two codes are the same. -/
theorem tokensOfResponses : Obligations.TokensOfResponses :=
  fun r => congrArg₂ (· ++ ·) (markerTokens_word r) (outcomeTokens_word r)

/-! ## The step -/

theorem step_command {s : State} {cw : CommandWord} {rest : List HostEvent} {i : Instr}
    (hinputs : s.inputs = .command cw :: rest) (hdecode : decode cw = .command i) :
    step s = exec i (takeInput rest s) := by
  simp only [step, hinputs, hdecode]

/-- Settles O7: the step takes the word off the inputs before it decodes it. -/
theorem stepRunsTheDecodedCommand : Obligations.StepRunsTheDecodedCommand := fun _ _ _ _ => step_command

end Sys2Proof.Machine
end

section
/-! No step changes BM_ROWS or TLB_CAP (30_encoding.md R94). Each operation on the bitmap or the TLB keeps its number
of rows or entries, and PM, the latch and the ports are no part of the configuration. -/

namespace Sys2Proof.Machine

theorem State.config_eq_of_lengths {s t : State} (hrows : t.bm.length = s.bm.length)
    (hcap : t.tlb.length = s.tlb.length) : t.config = s.config := by
  rw [State.config, State.config, hrows, hcap]

/-- The block was built with `c`. -/
def State.BuiltAs (c : Config) (s : State) : Prop := s.config = c

section
variable {c : Config} {s : State}

theorem State.BuiltAs.of_lengths {t : State} (hs : s.BuiltAs c) (hrows : t.bm.length = s.bm.length)
    (hcap : t.tlb.length = s.tlb.length) : t.BuiltAs c := (State.config_eq_of_lengths hrows hcap).trans hs

/-! ## The shared operations -/

theorem memWrite_builtAs {i : Int} {v : Word} (hs : s.BuiltAs c) : (memWrite i v s).EndsIn (State.BuiltAs c) := by
  by_cases hi : inPm i = true
  · rw [memWrite_in hi]; exact endsIn_ok hs
  · rw [memWrite_out (by simpa using hi)]; exact endsIn_fatal hs

theorem bitmapSet_builtAs {row col : Nat} {v : Bool} (hs : s.BuiltAs c) :
    (bitmapSet row col v s).EndsIn (State.BuiltAs c) := by
  rw [bitmapSet_eq]
  split
  · exact endsIn_ok (hs.of_lengths (Bitmap.length_put _ _ _) rfl)
  · exact endsIn_fatal hs

theorem mark_builtAs {f : Nat} (hs : s.BuiltAs c) : (mark f s).EndsIn (State.BuiltAs c) := bitmapSet_builtAs hs

theorem doHit_builtAs {i : Nat} {e : TlbEntry} (hs : s.BuiltAs c) : (doHit i e s).EndsIn (State.BuiltAs c) :=
  endsIn_ok (hs.of_lengths rfl (Tlb.length_promote _ _ _))

theorem doMiss_builtAs {k : Key} {frame : Word} (hs : s.BuiltAs c) :
    (doMiss k frame s).EndsIn (State.BuiltAs c) := by
  rw [doMiss_eq]
  split
  · exact endsIn_ok (hs.of_lengths rfl (Tlb.length_insert _ _ _))
  · exact endsIn_fault

theorem walk_builtAs {a : Word} {write : Bool} (hs : s.BuiltAs c) : (walk a write s).EndsIn (State.BuiltAs c) := by
  intro t ht
  have hsame := walk_same ht
  exact hs.of_lengths hsame.rows (congrArg List.length hsame.tlb)

theorem cacheIfResolved_builtAs {k : Key} {o : WalkEnd} (hs : s.BuiltAs c) :
    (cacheIfResolved k o s).EndsIn (State.BuiltAs c) := by
  cases o with
  | pageFault => exact endsIn_ok hs
  | error => exact endsIn_ok hs
  | resolved pa frame => exact doMiss_builtAs hs

theorem tlbMissPath_builtAs {a : Word} {write : Bool} (hs : s.BuiltAs c) :
    (tlbMissPath a write s).EndsIn (State.BuiltAs c) :=
  marked_endsIn <| andThen_endsIn (walk_builtAs hs) fun _ _ hu =>
    andThen_endsIn (cacheIfResolved_builtAs hu) fun _ _ hv => endsIn_ok hv

theorem access_builtAs {a : Word} {write useTlb : Bool} (hs : s.BuiltAs c) :
    (access a write useTlb s).EndsIn (State.BuiltAs c) := by
  unfold access
  split
  · unfold tlbPath
    split
    · exact tlbMissPath_builtAs hs
    split
    · exact tlbMissPath_builtAs hs
    · exact andThen_endsIn (doHit_builtAs hs) fun _ _ hu => endsIn_ok hu
  · exact andThen_endsIn (walk_builtAs hs) fun _ _ hu => endsIn_ok hu

/-! ## Every command -/

theorem command_builtAs {body : State → Run Reply} {t : State} (hs : s.BuiltAs c)
    (hbody : (body s).EndsIn (State.BuiltAs c)) (h : command body s = .next t) : t.BuiltAs c :=
  command_keeps (fun _ _ hu => hu) (fun _ _ _ hu => hu) hs hbody h

theorem exec_builtAs {i : Instr} {t : State} (hs : s.BuiltAs c) (h : exec i s = .next t) : t.BuiltAs c := by
  cases i <;> dsimp only [exec] at h
  case vaDecode a => cases h; exact hs
  case bmFfz => exact command_builtAs hs (andThen_endsIn (findFirstZero_endsIn hs) fun _ _ hu => endsIn_ok hu) h
  case bmFcz => exact command_builtAs hs (andThen_endsIn (findConsecutiveZeros_endsIn hs) fun _ _ hu => endsIn_ok hu) h
  case bmSet row col val =>
    exact command_builtAs hs (andThen_endsIn (bitmapSet_builtAs hs) fun _ _ hu => endsIn_ok hu) h
  case bmClear =>
    refine command_builtAs hs ?_ h
    exact endsIn_ok (hs.of_lengths (Bitmap.length_clear _) rfl)
  case tlbHitIdx key =>
    refine command_builtAs hs ?_ h
    split
    · exact endsIn_ok hs
    · exact endsIn_ok hs
  case tlbDoHit key idx =>
    refine command_builtAs hs ?_ h
    split
    · exact endsIn_ok hs
    split
    · exact andThen_endsIn (doHit_builtAs hs) fun _ _ hu => endsIn_ok hu
    · exact endsIn_ok hs
  case tlbDoMiss key frame =>
    exact command_builtAs hs (andThen_endsIn (doMiss_builtAs hs) fun _ _ hu => endsIn_ok hu) h
  case tlbReset =>
    refine command_builtAs hs ?_ h
    exact endsIn_ok (hs.of_lengths rfl (Tlb.length_reset _))
  case vmCreatePt seg addr =>
    refine command_builtAs hs (andThen_endsIn (memWrite_builtAs hs) fun _ _ hu => ?_) h
    split
    · exact andThen_endsIn (mark_builtAs hu) fun _ _ hv =>
        andThen_endsIn (mark_builtAs hv) fun _ _ hw => endsIn_ok hw
    · exact endsIn_ok hu
  case vmCreatePage page seg addr =>
    refine command_builtAs hs (andThen_endsIn (memRead_endsIn hs) fun _ _ hu =>
      andThen_endsIn (memWrite_builtAs hu) fun _ _ hv => ?_) h
    split
    · exact andThen_endsIn (mark_builtAs hv) fun _ _ hw => endsIn_ok hw
    · exact endsIn_ok hv
  case vmGetPt seg page =>
    exact command_builtAs hs (andThen_endsIn (memRead_endsIn hs) fun _ _ hu =>
      andThen_endsIn (memRead_endsIn hu) fun _ _ hv => endsIn_ok hv) h
  case vmRead a useTlb => exact command_builtAs hs (access_builtAs hs) h
  case vmWrite a useTlb => exact command_builtAs hs (access_builtAs hs) h
  case vmClear =>
    refine command_builtAs hs ?_ h
    exact endsIn_ok (hs.of_lengths (Bitmap.length_clear _) rfl)

end

theorem takeReset_config (rest : List HostEvent) (s : State) : (takeReset rest s).config = s.config :=
  State.config_eq_of_lengths (Bitmap.length_fresh _) (Tlb.length_fresh _)

/-- Everything a step that has a next state can be. -/
theorem step_eq_next {s t : State} (h : step s = .next t) :
    t = s ∨ (∃ rest, s.inputs = .reset :: rest ∧ t = takeReset rest s) ∨
      ∃ cw rest, s.inputs = .command cw :: rest ∧
        ((∃ i, decode cw = .command i ∧ exec i (takeInput rest s) = .next t) ∨
          ∃ why, decode cw = .illegal why ∧ t = answerIllegal (takeInput rest s)) := by
  unfold step at h
  split at h
  · cases h; exact .inl rfl
  · next rest hinputs => cases h; exact .inr (.inl ⟨rest, hinputs, rfl⟩)
  · next cw rest hinputs =>
    refine .inr (.inr ⟨cw, rest, hinputs, ?_⟩)
    split at h
    · next i hdecode => exact .inl ⟨i, hdecode, h⟩
    · next why hdecode => cases h; exact .inr ⟨why, hdecode, rfl⟩

/-- Settles O12: a RESET builds fresh files of the old lengths, and every command keeps both lengths. -/
theorem configurationIsFixed : Obligations.ConfigurationIsFixed := by
  unfold Obligations.ConfigurationIsFixed
  intro s t h
  rcases step_eq_next h with rfl | ⟨rest, -, rfl⟩ | ⟨cw, rest, -, ⟨i, -, hexec⟩ | ⟨why, -, rfl⟩⟩
  · rfl
  · exact takeReset_config rest s
  · exact exec_builtAs (s := takeInput rest s) rfl hexec
  · rfl

end Sys2Proof.Machine
end

section
/-! The address decomposer (40_va_decomposer.md R110 to R113). The kept bits of an address are key‖offset and a key is
segment‖page; the sums of R113 are these two equations read as numbers. Every command that takes an address reads it
through its slices alone (R111), so through the kept bits alone. -/

namespace Sys2Proof.Machine

/-! ## The slices put together again (R110, R113) -/

/-- `k = s ‖ p`. -/
theorem keyOf_eq_append (a : Word) : keyOf a = segmentOf a ++ pageOf a :=
  (BitVec.extractLsb'_append_extractLsb'_eq_extractLsb' (start₁ := 9) (len₁ := 10) rfl).symm

/-- `A[27:0] = k ‖ w`. -/
theorem keptBits_eq_append (a : Word) : a.extractLsb' 0 28 = keyOf a ++ offsetOf a :=
  (BitVec.extractLsb'_append_extractLsb'_eq_extractLsb' (start₁ := 0) (len₁ := 9) rfl).symm

theorem toNat_keptBits (a : Word) : (a.extractLsb' 0 28).toNat = a.toNat % 2 ^ 28 := by
  rw [BitVec.extractLsb'_toNat, Nat.shiftRight_zero]

theorem toNat_keyOf (a : Word) : (keyOf a).toNat = (segmentOf a).toNat * 2 ^ 10 + (pageOf a).toNat := by
  rw [keyOf_eq_append, Laws.toNat_append_sum]

theorem toNat_key_offset (a : Word) : (keyOf a).toNat * 2 ^ 9 + (offsetOf a).toNat = a.toNat % 2 ^ 28 := by
  rw [← toNat_keptBits, keptBits_eq_append, Laws.toNat_append_sum]

theorem toNat_segment_page_offset (a : Word) :
    (segmentOf a).toNat * 2 ^ 19 + (pageOf a).toNat * 2 ^ 9 + (offsetOf a).toNat = a.toNat % 2 ^ 28 := by
  rw [← toNat_key_offset, toNat_keyOf]
  ring

section
variable (head : BitVec 4) (seg : BitVec 9) (page : BitVec 10) (off : BitVec 9)

@[simp] theorem segmentOf_append : segmentOf (head ++ seg ++ page ++ off) = seg :=
  extractLsb'_above <| extractLsb'_above BitVec.extractLsb'_append_eq_right

@[simp] theorem pageOf_append : pageOf (head ++ seg ++ page ++ off) = page :=
  extractLsb'_above BitVec.extractLsb'_append_eq_right

@[simp] theorem offsetOf_append : offsetOf (head ++ seg ++ page ++ off) = off :=
  BitVec.extractLsb'_append_eq_right

end

/-- Settles O14: the sums are the two concatenations read as numbers, and each slice of a concatenation is its piece. -/
theorem slicingRoundTrip : Obligations.SlicingRoundTrip :=
  ⟨fun a => ⟨toNat_segment_page_offset a, toNat_key_offset a, toNat_keyOf a⟩,
    fun _ _ _ _ => ⟨segmentOf_append .., pageOf_append .., offsetOf_append ..⟩⟩

/-! ## The discarded bits (R111) -/

/-- Everything an access makes of its address it makes of the key and the offset. -/
theorem access_congr {a b : Word} (hkey : keyOf a = keyOf b) (hoff : offsetOf a = offsetOf b)
    (write useTlb : Bool) (s : State) : access a write useTlb s = access b write useTlb s := by
  have hseg : segmentOf a = segmentOf b := by rw [← keySegment_keyOf, hkey, keySegment_keyOf]
  have hpage : pageOf a = pageOf b := by rw [← keyPage_keyOf, hkey, keyPage_keyOf]
  have hwalk (u : State) : walk a write u = walk b write u := by rw [walk, hseg, hpage, hoff, walk]
  cases useTlb with
  | false => simp only [access, hwalk, Bool.false_eq_true, if_false]
  | true =>
    have hmiss : tlbMissPath a write s = tlbMissPath b write s := by simp only [tlbMissPath, hwalk, hkey]
    have hhit (i : Nat) (e : TlbEntry) : tlbHitPath a i e s = tlbHitPath b i e s := by simp only [tlbHitPath, hoff]
    simp only [access, tlbPath, hkey, hmiss, hhit, if_true]

section
variable {a b : Word} (h : a.toNat % 2 ^ 28 = b.toNat % 2 ^ 28)
include h

theorem keptBits_congr : a.extractLsb' 0 28 = b.extractLsb' 0 28 := by
  apply BitVec.eq_of_toNat_eq
  rw [toNat_keptBits, toNat_keptBits, h]

theorem undiscarded_congr : undiscarded a = undiscarded b := by
  rw [undiscarded, keptBits_congr h, undiscarded]

theorem key_append_offset_congr : keyOf a ++ offsetOf a = keyOf b ++ offsetOf b := by
  rw [← keptBits_eq_append, keptBits_congr h, keptBits_eq_append]

theorem keyOf_congr : keyOf a = keyOf b := by
  have hslice := congrArg (BitVec.extractLsb' 9 19) (key_append_offset_congr h)
  rwa [BitVec.extractLsb'_append_eq_left, BitVec.extractLsb'_append_eq_left] at hslice

theorem offsetOf_congr : offsetOf a = offsetOf b := by
  have hslice := congrArg (BitVec.extractLsb' 0 9) (key_append_offset_congr h)
  rwa [BitVec.extractLsb'_append_eq_right, BitVec.extractLsb'_append_eq_right] at hslice

end

/-- Settles O15: VA_DECODE answers with the kept bits, and an access reads the key and the offset, which are kept. -/
theorem discardedBitsAreIgnored : Obligations.DiscardedBitsAreIgnored := by
  unfold Obligations.DiscardedBitsAreIgnored
  intro a b t s h
  have haccess (write : Bool) : exec (accessCommand write a t) s = exec (accessCommand write b t) s := by
    rw [exec_accessCommand, exec_accessCommand]
    exact congrArg (command · s) (funext (access_congr (keyOf_congr h) (offsetOf_congr h) write t))
  refine ⟨?_, haccess false, haccess true⟩
  show execVaDecode a s = execVaDecode b s
  rw [execVaDecode, undiscarded_congr h, execVaDecode]

/-! ## VA_DECODE (R112) -/

/-- OK and no marker are coded 0, so only DATA shows in the word (30_encoding.md R88, R90, R91). -/
theorem word_ok (d : Word) : Reply.word { status := .ok, data := d } = BitVec.ofNat 64 d.toNat := by
  have hword : Reply.word { status := .ok, data := d } = 0#32 ++ d :=
    congrArg (· ++ d) (by decide : Status.ok.code ++ Marker.none.code ++ 0#26 = 0#32)
  have hd : d.toNat < 2 ^ 64 := d.isLt.trans (by decide)
  apply BitVec.eq_of_toNat_eq
  rw [hword, Laws.toNat_append_sum, BitVec.toNat_ofNat, BitVec.toNat_ofNat, Nat.mod_eq_of_lt hd, Nat.zero_mod,
    Nat.zero_mul, Nat.zero_add]

theorem toNat_undiscarded (a : Word) : (undiscarded a).toNat = a.toNat % 2 ^ 28 := by
  rw [undiscarded, BitVec.toNat_setWidth_of_le (by decide), toNat_keptBits]

/-- The word's upper half is fixed: the operation code and the zero bits above the address (30_encoding.md R84). -/
theorem encode_vaDecode (a : Word) : encode (.vaDecode a) = 0x01000000#32 ++ a :=
  congrArg (· ++ a) (by decide : 0x01#8 ++ 0#22 ++ BitVec.ofBool false ++ BitVec.ofBool false = 0x01000000#32)

/-- Settles O13: VA_DECODE is run without asking the latch, and its reply is answered on the state as it stands. -/
theorem vaDecodeResult : Obligations.VaDecodeResult := by
  unfold Obligations.VaDecodeResult
  refine fun a => ⟨encode_vaDecode a, fun s => ?_⟩
  have hexec : exec (.vaDecode a) s = .next (answer { status := .ok, data := undiscarded a } s) := rfl
  rw [hexec, answer, word_ok, toNat_undiscarded]

end Sys2Proof.Machine
end

section
/-! The bitmap scanner (41_bitmap_scanner.md). What each search finds is said in the terms of the cells, and what R131
says of two searches follows from that alone; BM_FFZ and BM_FCZ report what a search finds, or its failure. -/

namespace Sys2Proof.Machine

/-! ## The searches, in the terms of the cells (R121, R123, R125) -/

section
variable {b : Bitmap} {n : Nat}

theorem Bitmap.findFirstZero_of_firstFree (h : b.firstFree n) : b.findFirstZero = some n := by
  obtain ⟨hge, hlt, hfree, hlow⟩ := h
  exact findFirstZero_eq_some.mpr ⟨hge, hlt, hfree, fun m h1 hm => hlow m hm h1⟩

theorem Bitmap.findFirstZero_of_full (h : b.full) : b.findFirstZero = none :=
  findFirstZero_eq_none.mpr fun m h1 hm => h m hm h1

theorem Bitmap.findConsecutiveZeros_of_firstFreePair (h : b.firstFreePair n) : b.findConsecutiveZeros = some n := by
  obtain ⟨hge, hlt, hfree, hnext, hlow⟩ := h
  exact findConsecutiveZeros_eq_some.mpr ⟨hge, hlt, ⟨hfree, hnext⟩, fun m h1 hm => hlow m hm h1⟩

theorem Bitmap.findConsecutiveZeros_of_noPair (h : b.noPair) : b.findConsecutiveZeros = none :=
  findConsecutiveZeros_eq_none.mpr fun m h1 hm => h m (Nat.lt_of_succ_lt hm) h1 hm

/-- A free cell in range is an upper bound on what the search finds. -/
theorem Bitmap.exists_findFirstZero_le (hge : 1 ≤ n) (hlt : n < b.bits) (hfree : b.cell n = false) :
    ∃ m, b.findFirstZero = some m ∧ m ≤ n := by
  cases hf : b.findFirstZero with
  | none => simp [findFirstZero_eq_none.mp hf n hge hlt] at hfree
  | some m =>
    obtain ⟨-, -, -, hlow⟩ := findFirstZero_eq_some.mp hf
    refine ⟨m, rfl, Nat.le_of_not_lt fun hm => ?_⟩
    simp [hlow n hge hm] at hfree

/-- A free pair in range is an upper bound on what the search finds. -/
theorem Bitmap.exists_findConsecutiveZeros_le (hge : 1 ≤ n) (hlt : n + 1 < b.bits) (hfree : b.cell n = false)
    (hnext : b.cell (n + 1) = false) : ∃ m, b.findConsecutiveZeros = some m ∧ m ≤ n := by
  cases hf : b.findConsecutiveZeros with
  | none => simpa [hfree, hnext] using findConsecutiveZeros_eq_none.mp hf n hge hlt
  | some m =>
    obtain ⟨-, -, -, hlow⟩ := findConsecutiveZeros_eq_some.mp hf
    refine ⟨m, rfl, Nat.le_of_not_lt fun hm => ?_⟩
    simpa [hfree, hnext] using hlow n hge hm

end

/-- Settles O20: the cell or pair found later was free already, so the earlier search found that one or a lower one. -/
theorem searchesAreMonotone : Obligations.SearchesAreMonotone := by
  unfold Obligations.SearchesAreMonotone
  intro b b' hlen hmono
  have hbits : b'.bits = b.bits := congrArg (bmWidth * ·) hlen
  have hfree {n : Nat} (h : b'.cell n = false) : b.cell n = false := by
    rw [← Bool.not_eq_true] at h ⊢
    exact mt (hmono n) h
  constructor
  · intro n' h
    obtain ⟨hge, hlt, hn, -⟩ := Bitmap.findFirstZero_eq_some.mp h
    exact Bitmap.exists_findFirstZero_le hge (hbits ▸ hlt) (hfree hn)
  · intro n' h
    obtain ⟨hge, hlt, ⟨hn, hnext⟩, -⟩ := Bitmap.findConsecutiveZeros_eq_some.mp h
    exact Bitmap.exists_findConsecutiveZeros_le hge (hbits ▸ hlt) (hfree hn) (hfree hnext)

/-- Settles O19: both cells of the marked pair are 1 and both cells of the later pair are 0, so they share none. -/
theorem laterPairNeverOverlaps : Obligations.LaterPairNeverOverlaps := by
  unfold Obligations.LaterPairNeverOverlaps
  rintro b b' n n' - ⟨-, hcell⟩ hlater
  obtain ⟨-, -, ⟨hfree, hnext⟩, -⟩ := Bitmap.findConsecutiveZeros_eq_some.mp hlater
  have hmarked : b'.cell n = true := by simp [hcell]
  have hmarked' : b'.cell (n + 1) = true := by simp [hcell]
  refine ⟨?_, ?_, ?_⟩ <;> rintro rfl
  · simp [hnext] at hmarked
  · simp [hfree] at hmarked
  · simp [hfree] at hmarked'

/-! ## The scan procedure (R124) -/

/-- The search of R123 begun at cell `n`. -/
def Bitmap.pairFrom (b : Bitmap) (n : Nat) : Option Nat :=
  (List.range' n (b.bits - (n + 1))).find? fun m => !b.cell m && !b.cell (m + 1)

theorem Bitmap.pairFrom_one (b : Bitmap) : b.pairFrom 1 = b.findConsecutiveZeros := rfl

section
variable {b : Bitmap} {n : Nat}

theorem Bitmap.pairFrom_of_bits_le (h : b.bits ≤ n + 1) : b.pairFrom n = none := by
  rw [pairFrom, Nat.sub_eq_zero_of_le h, List.range'_zero, List.find?_nil]

theorem Bitmap.pairFrom_cons (h : n + 1 < b.bits) :
    b.pairFrom n = if b.cell n = false ∧ b.cell (n + 1) = false then some n else b.pairFrom (n + 1) := by
  have hlen : b.bits - (n + 1) = b.bits - (n + 1 + 1) + 1 := by omega
  rw [pairFrom, hlen, List.range'_succ, List.find?_cons]
  cases b.cell n <;> cases b.cell (n + 1) <;> rfl

/-- No pair begins at a cell that is 1, nor at a 0 followed by a 1. -/
theorem Bitmap.pairFrom_succ (h : b.cell n = true ∨ b.cell (n + 1) = true) : b.pairFrom n = b.pairFrom (n + 1) := by
  by_cases hlt : n + 1 < b.bits
  · rw [pairFrom_cons hlt, if_neg]
    rcases h with h | h <;> simp [h]
  · rw [pairFrom_of_bits_le (by omega), pairFrom_of_bits_le (by omega)]

/-- A move by two cells is two moves by one, the second past the 1 that ended the first. -/
theorem Bitmap.pairScan_eq_pairFrom {fuel : Nat} (hfuel : b.bits ≤ fuel + n) : b.pairScan fuel n = b.pairFrom n := by
  induction fuel generalizing n with
  | zero => rw [pairScan, pairFrom_of_bits_le (by omega)]
  | succ fuel ih =>
    rw [pairScan]
    split
    · next hend => rw [pairFrom_of_bits_le hend]
    next hlt =>
    split
    · next hcell => rw [ih (by omega), pairFrom_succ (.inl hcell)]
    next hfree =>
    split
    · next hnext => rw [ih (by omega), pairFrom_succ (.inr hnext), pairFrom_succ (.inl hnext)]
    · next hnext => rw [pairFrom_cons (by omega), if_pos (by simpa using And.intro hfree hnext)]

end

/-- Settles O18: one move per cell is fuel enough, and no move passes the beginning of a free pair. -/
theorem scanProcedureAgrees : Obligations.ScanProcedureAgrees := fun b =>
  (Bitmap.pairScan_eq_pairFrom (Nat.le_add_right _ _)).trans b.pairFrom_one

/-! ## How a command that runs is answered -/

section
variable {body : State → Run Reply} {s t : State}

theorem command_eq_answer {r : Reply} (hlatch : s.fatal = false) (h : body s = .ok r t) :
    command body s = .next (answer r t) := by rw [command_running hlatch, h, finish]

theorem command_eq_takeFatal {c : FatalCode} {m : Marker} (hlatch : s.fatal = false) (h : body s = .fatal c m t) :
    command body s = .next (takeFatal c m t) := by rw [command_running hlatch, h, finish]

end

/-- The response of a failure without marker is its status code alone (30_encoding.md R88). -/
theorem takeFatal_none (c : FatalCode) (s : State) :
    takeFatal c .none s = { s with fatal := true, fcode := c.code, rsp := some (c.code ++ 0#60) } := by
  cases c <;> rfl

/-! ## BM_FFZ and BM_FCZ (R121, R123) -/

/-- ROW and COL of a position as one number (30_encoding.md R89); the bound is that of 00_scope.md R6. -/
theorem toNat_positionData {b : Bitmap} {n : Nat} (hrows : b.length ≤ 65536) (hn : n < b.bits) :
    (positionData n).toNat = n / 32 * 2 ^ 16 + n % 32 * 2 ^ 8 := by
  simp only [Bitmap.bits, bmWidth] at hn
  rw [positionData, Laws.toNat_append_sum, Laws.toNat_append_sum, BitVec.toNat_ofNat, BitVec.toNat_ofNat,
    BitVec.toNat_ofNat]
  simp only [bmWidth]
  omega

/-- The command that reports the position a search finds. -/
def searchCommand (search : State → Run Nat) : State → Host.Outcome State Fault Refusal :=
  command fun s => (search s).andThen fun n s => .ok { status := .ok, data := positionData n } s

theorem exec_bmFfz (s : State) : exec .bmFfz s = searchCommand findFirstZero s := rfl

theorem exec_bmFcz (s : State) : exec .bmFcz s = searchCommand findConsecutiveZeros s := rfl

section
variable {search : State → Run Nat} {s : State} (hlatch : s.fatal = false)
include hlatch

theorem searchCommand_found {n : Nat} (hrows : s.bm.length ≤ 65536) (hn : n < s.bm.bits) (h : search s = .ok n s) :
    searchCommand search s =
      .next { s with rsp := some (BitVec.ofNat 64 (n / 32 * 2 ^ 16 + n % 32 * 2 ^ 8)) } := by
  rw [searchCommand, command_eq_answer hlatch (by rw [h, andThen_ok]), answer, word_ok, toNat_positionData hrows hn]

theorem searchCommand_failed (h : search s = .fatal .alloc .none s) :
    searchCommand search s =
      .next { s with fatal := true, fcode := 0x8#4, rsp := some 0x8000000000000000#64 } := by
  rw [searchCommand, command_eq_takeFatal hlatch (by rw [h, andThen_fatal]), takeFatal_none]
  rfl

end

/-- Settles O16: the lowest free cell is what the search finds, and with none it fails. -/
theorem bmFfzResult : Obligations.BmFfzResult := by
  unfold Obligations.BmFfzResult
  refine ⟨by decide, fun s hlatch hrows => ⟨fun n hn => ?found, fun hfull => ?failed⟩⟩
  case found =>
    have ⟨_, hlt, _⟩ := hn
    rw [exec_bmFfz]
    exact searchCommand_found hlatch hrows hlt (findFirstZero_some (Bitmap.findFirstZero_of_firstFree hn))
  case failed =>
    rw [exec_bmFfz]
    exact searchCommand_failed hlatch (findFirstZero_none (Bitmap.findFirstZero_of_full hfull))

/-- Settles O17: the lowest free pair is what the search finds, and with none it fails. -/
theorem bmFczResult : Obligations.BmFczResult := by
  unfold Obligations.BmFczResult
  refine ⟨by decide, fun s hlatch hrows => ⟨fun n hn => ?found, fun hnone => ?failed⟩⟩
  case found =>
    have ⟨_, hlt, _⟩ := hn
    rw [exec_bmFcz]
    exact searchCommand_found hlatch hrows (Nat.lt_of_succ_lt hlt)
      (findConsecutiveZeros_some (Bitmap.findConsecutiveZeros_of_firstFreePair hn))
  case failed =>
    rw [exec_bmFcz]
    exact searchCommand_failed hlatch (findConsecutiveZeros_none (Bitmap.findConsecutiveZeros_of_noPair hnone))

/-! ## BM_SET (R126, R127) -/

/-- The word's upper half is fixed: the operation code and the zero bits above the row (30_encoding.md R85). -/
theorem encode_bmSet (row : BitVec 16) (col : BitVec 8) (val : Bool) :
    encode (.bmSet row col val) = 0x12000000#32 ++ row ++ col ++ (0#7 ++ BitVec.ofBool val) := by
  have hhigh : 0x12#8 ++ 0#24 = 0x12000000#32 := by decide
  rw [encode, formatB, hhigh]
  exact (BitVec.append_assoc ..).trans (BitVec.cast_eq ..)

section
variable {s : State} {row : BitVec 16} {col : BitVec 8} {val : Bool} (hlatch : s.fatal = false)
include hlatch

theorem exec_bmSet_in (hrow : row.toNat < s.bm.length) (hcol : col.toNat < bmWidth) :
    exec (.bmSet row col val) s =
      .next { s with bm := s.bm.put (bmWidth * row.toNat + col.toNat) val, rsp := some 0#64 } := by
  show execBmSet row col val s = _
  rw [execBmSet, command_eq_answer hlatch (by rw [bitmapSet_eq, if_pos ⟨hrow, hcol⟩, andThen_ok]), answer, word_ok]
  rfl

theorem exec_bmSet_out (h : s.bm.length ≤ row.toNat ∨ bmWidth ≤ col.toNat) :
    exec (.bmSet row col val) s =
      .next { s with fatal := true, fcode := 0x9#4, rsp := some 0x9000000000000000#64 } := by
  have hout : ¬ (row.toNat < s.bm.length ∧ col.toNat < bmWidth) := by omega
  show execBmSet row col val s = _
  rw [execBmSet, command_eq_takeFatal hlatch (by rw [bitmapSet_eq, if_neg hout, andThen_fatal]), takeFatal_none]
  rfl

end

/-- Settles O21: in range the bitmap is written at the position's raster index, which is a cell of it. -/
theorem bmSetResult : Obligations.BmSetResult := by
  unfold Obligations.BmSetResult
  refine ⟨encode_bmSet, fun s row col val hlatch => ⟨fun hrow hcol => ?_, exec_bmSet_out hlatch⟩⟩
  have hcell : bmWidth * row.toNat + col.toNat < s.bm.bits := by
    simp only [Bitmap.bits, bmWidth]
    omega
  refine ⟨_, exec_bmSet_in hlatch hrow hcol, Bitmap.length_put .., fun n => ?_⟩
  rw [Bitmap.cell_put _ _ _ _ hcell]
  refine if_congr (and_congr_right ?_) rfl rfl
  rintro rfl
  rfl

/-! ## BM_CLEAR (R129) -/

theorem exec_bmClear {s : State} (hlatch : s.fatal = false) :
    exec .bmClear s = .next { s with bm := s.bm.clear, rsp := some 0#64 } := by
  show execBmClear s = _
  rw [execBmClear, command_running hlatch, finish, answer, word_ok]
  rfl

/-- Settles O22: the bitmap is left at its reset value. -/
theorem bmClearResult : Obligations.BmClearResult := by
  unfold Obligations.BmClearResult
  exact ⟨by decide, fun s hlatch => ⟨_, exec_bmClear hlatch, Bitmap.length_clear _, Bitmap.cell_clear _⟩⟩

end Sys2Proof.Machine
end

section
/-! The recency counters (42_tlb.md R150, R151). A hit on the entry of rank `v` and a miss, which replaces the entry of
rank 0, move every counter by the same function of its value, `rankAfterUse`. That function only reorders
0 .. TLB_CAP − 1, so the counters stay a permutation; and it keeps the order of the other ranks, so the slots keep their
recency order but for the one in use, which moves to the recent end. -/

namespace Sys2Proof.Machine

/-! ## The ranks after a use -/

/-- The rank that `r` becomes when the entry of rank `v` is used, among `cap` entries (42_tlb.md R143, R146). -/
def rankAfterUse (cap v r : Nat) : Nat := if r = v then cap - 1 else if v < r then r - 1 else r

section
variable {cap v r : Nat}

theorem rankAfterUse_self : rankAfterUse cap v v = cap - 1 := if_pos rfl

theorem rankAfterUse_of_lt (h : r < v) : rankAfterUse cap v r = r := by
  rw [rankAfterUse, if_neg h.ne, if_neg h.not_gt]

theorem rankAfterUse_of_gt (h : v < r) : rankAfterUse cap v r = r - 1 := by
  rw [rankAfterUse, if_neg h.ne', if_pos h]

theorem rankAfterUse_lt (hv : v < cap) (hr : r < cap) : rankAfterUse cap v r < cap := by
  rcases lt_trichotomy r v with h | rfl | h
  · rwa [rankAfterUse_of_lt h]
  · rw [rankAfterUse_self]
    omega
  · rw [rankAfterUse_of_gt h]
    omega

/-- The ranks other than `v` in their old order and `v` last become the ranks in order. -/
theorem map_rankAfterUse (hv : v < cap) :
    ((List.range cap).erase v ++ [v]).map (rankAfterUse cap v) = List.range cap := by
  have hbelow : (List.range v).map (rankAfterUse cap v) = List.range v :=
    (List.map_congr_left fun r hr => rankAfterUse_of_lt (List.mem_range.mp hr)).trans (List.map_id' _)
  have habove : (List.range' (v + 1) (cap - (v + 1))).map (rankAfterUse cap v) = List.range' v (cap - (v + 1)) :=
    (List.map_congr_left fun r hr => rankAfterUse_of_gt (List.mem_range'_1.mp hr).1).trans
      (List.map_sub_range' (Nat.le_add_left 1 v) _)
  have hlast : v + (cap - (v + 1)) = cap - 1 := by omega
  have hcap : v + (cap - (v + 1) + 1) = cap := by omega
  rw [List.erase_range, Nat.min_eq_right hv.le, List.map_append, List.map_append, hbelow, habove, List.map_singleton,
    rankAfterUse_self, List.append_assoc, ← hlast, ← List.range'_1_concat, List.range_eq_range', List.range_eq_range']
  simpa [hcap] using List.range'_append_1 (s := 0) (m := v) (n := cap - (v + 1) + 1)

theorem map_rankAfterUse_perm (hv : v < cap) :
    ((List.range cap).map (rankAfterUse cap v)).Perm (List.range cap) := by
  have hperm : (List.range cap).Perm ((List.range cap).erase v ++ [v]) :=
    (List.perm_cons_erase (List.mem_range.mpr hv)).trans (List.perm_append_singleton _ _).symm
  exact (hperm.map _).trans (.of_eq (map_rankAfterUse hv))

end

/-! ## The counters of an entry file -/

/-- `t'` has the counters that a use of `t`'s entry of rank `v` leaves. -/
def Tlb.UsedAt (v : Nat) (t t' : Tlb) : Prop :=
  t'.map TlbEntry.lru = (t.map TlbEntry.lru).map (rankAfterUse t.length v)

/-- The slot of the entry of rank `r`. -/
def Tlb.slotOf (t : Tlb) (r : Nat) : Nat := t.findIdx fun e => e.lru == r

section
variable {t t' : Tlb} {i r v : Nat}

theorem Tlb.recency_eq (t : Tlb) : t.recency = (List.range t.length).map t.slotOf := rfl

theorem Tlb.ranked_fresh (cap : Nat) : (Tlb.fresh cap).ranked := by
  rw [Tlb.ranked, Tlb.length_fresh, Tlb.fresh, List.map_map]
  exact .of_eq (List.map_id _)

theorem Tlb.ranked.nodup (ht : t.ranked) : (t.map TlbEntry.lru).Nodup := ht.nodup_iff.mpr List.nodup_range

theorem Tlb.ranked.lt_length (ht : t.ranked) {e : TlbEntry} (he : e ∈ t) : e.lru < t.length :=
  List.mem_range.mp (ht.mem_iff.mp (List.mem_map_of_mem he))

/-- With the counters a permutation, a rank has exactly one slot. -/
theorem Tlb.ranked.lru_eq_iff (ht : t.ranked) (hr : r < t.length) :
    t[i]?.map TlbEntry.lru = some r ↔ i = t.slotOf r := by
  have hslot : t.slotOf r = (t.map TlbEntry.lru).idxOf r := (List.findIdx_map t TlbEntry.lru (· == r)).symm
  have hat : (t.map TlbEntry.lru)[t.slotOf r]? = some r := by
    rw [hslot]
    exact List.getElem?_idxOf (ht.mem_iff.mpr (List.mem_range.mpr hr))
  rw [← List.getElem?_map]
  constructor
  · intro hi
    obtain ⟨hlt, -⟩ := List.getElem?_eq_some_iff.mp hi
    exact (List.getElem?_inj hlt ht.nodup).mp (hi.trans hat.symm)
  · rintro rfl
    exact hat

theorem Tlb.ranked.lru_slotOf (ht : t.ranked) (hr : r < t.length) :
    t[t.slotOf r]?.map TlbEntry.lru = some r := (ht.lru_eq_iff hr).mpr rfl

theorem Tlb.ranked.slotOf_lt (ht : t.ranked) (hr : r < t.length) : t.slotOf r < t.length := by
  obtain ⟨e, he, -⟩ := Option.map_eq_some_iff.mp (ht.lru_slotOf hr)
  exact (List.getElem?_eq_some_iff.mp he).1

theorem Tlb.ranked.slotOf_inj (ht : t.ranked) {q : Nat} (hq : q < t.length) (hr : r < t.length)
    (h : t.slotOf q = t.slotOf r) : q = r :=
  Option.some.inj ((ht.lru_slotOf hq).symm.trans (h ▸ ht.lru_slotOf hr))

theorem Tlb.ranked.victimAt (ht : t.ranked) (h : 0 < t.length) : t.victimAt (t.slotOf 0) :=
  ⟨ht.slotOf_lt h, fun _ _ => ht.lru_eq_iff h⟩

/-! ## A use reorders the counters and the slots -/

theorem Tlb.UsedAt.length_eq (h : t.UsedAt v t') : t'.length = t.length := by
  simpa using congrArg List.length h

theorem Tlb.UsedAt.ranked (h : t.UsedAt v t') (ht : t.ranked) (hv : v < t.length) : t'.ranked := by
  rw [Tlb.ranked, h.length_eq, h]
  exact (List.Perm.map _ ht).trans (map_rankAfterUse_perm hv)

theorem Tlb.UsedAt.slotOf (h : t.UsedAt v t') (ht : t.ranked) (hv : v < t.length) (hr : r < t.length) :
    t'.slotOf (rankAfterUse t.length v r) = t.slotOf r := by
  have hr' : rankAfterUse t.length v r < t'.length := h.length_eq.symm ▸ rankAfterUse_lt hv hr
  refine (((h.ranked ht hv).lru_eq_iff hr').mp ?_).symm
  rw [← List.getElem?_map, h, List.getElem?_map, List.getElem?_map, ht.lru_slotOf hr, Option.map_some]

theorem Tlb.ranked.recency_erase (ht : t.ranked) (hv : v < t.length) :
    t.recency.erase (t.slotOf v) = ((List.range t.length).erase v).map t.slotOf := by
  have hnodup : t.recency.Nodup := List.nodup_range.map_on fun q hq r hr =>
    ht.slotOf_inj (List.mem_range.mp hq) (List.mem_range.mp hr)
  have hlen : v < t.recency.length := by simpa [Tlb.recency_eq] using hv
  have hslot : t.recency[v] = t.slotOf v := by simp [Tlb.recency_eq]
  have hrank : (List.range t.length).erase v = (List.range t.length).eraseIdx v := by
    have herase := List.nodup_range.erase_getElem v (by simpa using hv)
    rwa [List.getElem_range] at herase
  rw [← hslot, hnodup.erase_getElem, hrank, Tlb.recency_eq, List.eraseIdx_map]

/-- The slot in use moves to the recent end, and the others keep their order (42_tlb.md R151). -/
theorem Tlb.UsedAt.recency (h : t.UsedAt v t') (ht : t.ranked) (hv : v < t.length) :
    t'.recency = t.recency.erase (t.slotOf v) ++ [t.slotOf v] := by
  have hslots : ((List.range t.length).erase v ++ [v]).map (t'.slotOf ∘ rankAfterUse t.length v) =
      ((List.range t.length).erase v ++ [v]).map t.slotOf := by
    refine List.map_congr_left fun r hr => h.slotOf ht hv ?_
    rcases List.mem_append.mp hr with hr | hr
    · exact List.mem_range.mp (List.mem_of_mem_erase hr)
    · exact List.mem_singleton.mp hr ▸ hv
  calc t'.recency
      = (((List.range t.length).erase v ++ [v]).map (rankAfterUse t.length v)).map t'.slotOf := by
        rw [map_rankAfterUse hv, Tlb.recency_eq, h.length_eq]
    _ = ((List.range t.length).erase v ++ [v]).map t.slotOf := by rw [List.map_map, hslots]
    _ = t.recency.erase (t.slotOf v) ++ [t.slotOf v] := by
        rw [ht.recency_erase hv, List.map_append, List.map_singleton]

/-! ## Hits and misses are uses (R143, R146) -/

theorem Tlb.ranked.usedAt_promote (ht : t.ranked) {e : TlbEntry} (he : t[i]? = some e) :
    t.UsedAt e.lru (t.promote i e) := by
  have hi : i < t.length := (List.getElem?_eq_some_iff.mp he).1
  refine List.ext_getElem? fun j => ?_
  rw [List.getElem?_map, Tlb.getElem?_promote _ _ _ _ hi, List.getElem?_map, List.getElem?_map, Option.map_map]
  split
  · next hj => rw [hj, he, Option.map_some, Option.map_some, Function.comp_apply, rankAfterUse_self]
  next hj =>
  rw [Option.map_map]
  refine Option.map_congr fun x hx => ?_
  have hrank : x.lru ≠ e.lru := fun h => by
    have hinj := List.getElem?_inj (j := i) (l := t.map TlbEntry.lru)
      (by simpa using (List.getElem?_eq_some_iff.mp hx).1) ht.nodup
    exact hj (hinj.mp (by simp [hx, he, h]))
  simp only [Function.comp_apply, TlbEntry.stepDown_lru, rankAfterUse, if_neg hrank]

theorem Tlb.usedAt_insert (t : Tlb) (k : Key) (frame : Word) : t.UsedAt 0 (t.insert k frame) := by
  rw [Tlb.UsedAt, Tlb.insert, List.map_map, List.map_map]
  refine List.map_congr_left fun e _ => ?_
  simp only [Function.comp_apply, rankAfterUse]
  split
  · rfl
  · next h => rw [if_pos (Nat.pos_of_ne_zero h)]

theorem Tlb.ranked.promote (ht : t.ranked) {e : TlbEntry} (he : t[i]? = some e) : (t.promote i e).ranked :=
  (ht.usedAt_promote he).ranked ht (ht.lt_length (List.mem_of_getElem? he))

theorem Tlb.ranked.insert (ht : t.ranked) (k : Key) (frame : Word) : (t.insert k frame).ranked := by
  cases t with
  | nil => exact .refl _
  | cons e t => exact (Tlb.usedAt_insert _ k frame).ranked ht (Nat.zero_lt_succ _)

end

end Sys2Proof.Machine
end

section
/-! What every step keeps. A step changes the state by a few updates only: a word written inside PM, a cell of the
bitmap, a hit, a miss or the reconstruction of the TLB, a clear, and what stands at the ports. A property that each of
these keeps is kept by every step; the permutation of the counters (42_tlb.md R150) and the invariant of every
reachable state are two such properties. -/

namespace Sys2Proof.Machine

/-! ## The updates a step is made of -/

/-- DATA is 0 unless STATUS is OK (30_encoding.md R89). -/
def Reply.Legal (r : Reply) : Prop := r.status ≠ .ok → r.data = 0#32

/-- Each update of the state that a step is made of keeps `P`. -/
structure KeptByUpdates (P : State → Prop) : Prop where
  memory : ∀ {s i} v, i < pmSize → P s → P { s with pm := s.pm.write i v }
  cell : ∀ {s} n v, P s → P { s with bm := s.bm.put n v }
  promote : ∀ {s i e}, s.tlb[i]? = some e → P s → P { s with tlb := s.tlb.promote i e }
  insert : ∀ {s} k frame, P s → P { s with tlb := s.tlb.insert k frame }
  clearedMemory : ∀ {s}, P s → P { s with pm := Memory.cleared }
  clearedBitmap : ∀ {s}, P s → P (clearBitmap s)
  resetTlb : ∀ {s}, P s → P (resetTlb s)
  answer : ∀ {s} {r : Reply}, r.Legal → P s → P (answer r s)
  takeFatal : ∀ {s} c m, P s → P (takeFatal c m s)
  takeInput : ∀ {s} rest, P s → P (takeInput rest s)
  takeReset : ∀ {s} rest, P s → P (takeReset rest s)

/-- A command's run that ends where `P` holds, with a legal reply where it replies. -/
inductive Run.RepliesIn (P : State → Prop) : Run Reply → Prop
  | ok {r s} : r.Legal → P s → RepliesIn P (.ok r s)
  | fatal {c m s} : P s → RepliesIn P (.fatal c m s)
  | fault {f} : RepliesIn P (.fault f)

section
variable {P : State → Prop}

/-- A reply with STATUS = OK may carry any DATA. -/
theorem repliesIn_ok {d : Word} {m : Marker} {s : State} (hs : P s) :
    (Run.ok { status := .ok, marker := m, data := d } s).RepliesIn P := .ok (fun h => absurd rfl h) hs

/-- A reply without DATA may have any STATUS. -/
theorem repliesIn_noData {st : Status} {m : Marker} {s : State} (hs : P s) :
    (Run.ok { status := st, marker := m } s).RepliesIn P := .ok (fun _ => rfl) hs

theorem andThen_repliesIn {α : Type} {r : Run α} {k : α → State → Run Reply} (hr : r.EndsIn P)
    (hk : ∀ a s, P s → (k a s).RepliesIn P) : (r.andThen k).RepliesIn P := by
  cases r with
  | ok a s => exact hk a s (hr s rfl)
  | fatal c m s => exact .fatal (hr s rfl)
  | fault f => exact .fault

theorem marked_repliesIn {mk : Marker} {r : Run Reply} (hr : r.RepliesIn P) : (r.marked mk).RepliesIn P := by
  cases hr with
  | ok hrep hs => exact .ok hrep hs
  | fatal hs => exact .fatal hs
  | fault => exact .fault

end

/-! ## The shared operations -/

namespace KeptByUpdates

section
variable {P : State → Prop} (hP : KeptByUpdates P) {s : State} (hs : P s)
include hP hs

theorem memWrite_endsIn {i : Int} {v : Word} : (memWrite i v s).EndsIn P := by
  by_cases hi : inPm i = true
  · have hlt : i.toNat < pmSize := by
      have := (inPm_iff i).mp hi
      omega
    rw [memWrite_in hi]
    exact endsIn_ok (hP.memory v hlt hs)
  · rw [memWrite_out (by simpa using hi)]
    exact endsIn_fatal hs

theorem bitmapSet_endsIn {row col : Nat} {v : Bool} : (bitmapSet row col v s).EndsIn P := by
  rw [bitmapSet_eq]
  split
  · exact endsIn_ok (hP.cell _ v hs)
  · exact endsIn_fatal hs

theorem mark_endsIn {f : Nat} : (mark f s).EndsIn P := hP.bitmapSet_endsIn hs

theorem doHit_endsIn {i : Nat} {e : TlbEntry} (he : s.tlb[i]? = some e) : (doHit i e s).EndsIn P :=
  endsIn_ok (hP.promote he hs)

theorem doMiss_endsIn {k : Key} {frame : Word} : (doMiss k frame s).EndsIn P := by
  rw [doMiss_eq]
  split
  · exact endsIn_ok (hP.insert k frame hs)
  · exact endsIn_fault

theorem allocTable_endsIn {seg : BitVec 9} : (allocTable seg s).EndsIn P :=
  andThen_endsIn (findConsecutiveZeros_endsIn hs) fun _ _ hu =>
    andThen_endsIn (hP.memWrite_endsIn hu) fun _ _ hv =>
      andThen_endsIn (hP.mark_endsIn hv) fun _ _ hw => hP.mark_endsIn hw

theorem allocPage_endsIn {i : Int} : (allocPage i s).EndsIn P :=
  andThen_endsIn (findFirstZero_endsIn hs) fun _ _ hu =>
    andThen_endsIn (hP.memWrite_endsIn hu) fun _ _ hv => hP.mark_endsIn hv

theorem walkPasses_endsIn {passes : Nat} {seg : BitVec 9} {page : BitVec 10} {off : BitVec 9} {write : Bool} :
    (walkPasses passes seg page off write s).EndsIn P := by
  induction passes generalizing s with
  | zero => exact endsIn_fault
  | succ passes ih =>
    refine andThen_endsIn (memRead_endsIn hs) fun st u hu => ?_
    split
    · exact endsIn_ok hu
    split
    · split
      · exact andThen_endsIn (hP.allocTable_endsIn hu) fun _ _ hv => ih hv
      · exact endsIn_ok hu
    refine andThen_endsIn (memRead_endsIn hu) fun pt v hv => ?_
    split
    · exact endsIn_ok hv
    split
    · split
      · exact andThen_endsIn (hP.allocPage_endsIn hv) fun _ _ hw => ih hw
      · exact endsIn_ok hv
    · exact endsIn_ok hv

theorem walk_endsIn {a : Word} {write : Bool} : (walk a write s).EndsIn P := hP.walkPasses_endsIn hs

theorem cacheIfResolved_endsIn {k : Key} {o : WalkEnd} : (cacheIfResolved k o s).EndsIn P := by
  cases o with
  | pageFault => exact endsIn_ok hs
  | error => exact endsIn_ok hs
  | resolved pa frame => exact hP.doMiss_endsIn hs

omit hP in
theorem walkEnd_repliesIn {m : Marker} {o : WalkEnd} : (Run.ok (o.reply m) s).RepliesIn P := by
  cases o with
  | pageFault => exact repliesIn_noData hs
  | error => exact repliesIn_noData hs
  | resolved pa frame => exact repliesIn_ok hs

theorem tlbMissPath_repliesIn {a : Word} {write : Bool} : (tlbMissPath a write s).RepliesIn P :=
  marked_repliesIn <| andThen_repliesIn (hP.walk_endsIn hs) fun _ _ hu =>
    andThen_repliesIn (hP.cacheIfResolved_endsIn hu) fun _ _ hv => walkEnd_repliesIn hv

theorem tlbPath_repliesIn {a : Word} {write : Bool} : (tlbPath a write s).RepliesIn P := by
  unfold tlbPath
  split
  · exact hP.tlbMissPath_repliesIn hs
  split
  · exact hP.tlbMissPath_repliesIn hs
  · next he => exact andThen_repliesIn (hP.doHit_endsIn hs he) fun _ _ hu => repliesIn_ok hu

theorem access_repliesIn {a : Word} {write useTlb : Bool} : (access a write useTlb s).RepliesIn P := by
  unfold access
  split
  · exact hP.tlbPath_repliesIn hs
  · exact andThen_repliesIn (hP.walk_endsIn hs) fun _ _ hu => walkEnd_repliesIn hu

/-! ## Every command, every step -/

omit hs in
theorem finish_keeps {r : Run Reply} {t : State} (hr : r.RepliesIn P) (h : finish r = .next t) : P t := by
  cases hr with
  | ok hrep hs => cases h; exact hP.answer hrep hs
  | fatal hs => cases h; exact hP.takeFatal _ _ hs
  | fault => cases h

theorem command_keeps {body : State → Run Reply} {t : State} (hbody : (body s).RepliesIn P)
    (h : command body s = .next t) : P t := by
  cases hlatch : s.fatal with
  | true =>
    rw [command_halted hlatch] at h
    cases h
    exact hP.answer (fun _ => rfl) hs
  | false =>
    rw [command_running hlatch] at h
    exact hP.finish_keeps hbody h

theorem exec_keeps {i : Instr} {t : State} (h : exec i s = .next t) : P t := by
  cases i <;> dsimp only [exec] at h
  case vaDecode a => exact hP.finish_keeps (repliesIn_ok hs) h
  case bmFfz =>
    exact hP.command_keeps hs (andThen_repliesIn (findFirstZero_endsIn hs) fun _ _ hu => repliesIn_ok hu) h
  case bmFcz =>
    exact hP.command_keeps hs (andThen_repliesIn (findConsecutiveZeros_endsIn hs) fun _ _ hu => repliesIn_ok hu) h
  case bmSet row col val =>
    exact hP.command_keeps hs (andThen_repliesIn (hP.bitmapSet_endsIn hs) fun _ _ hu => repliesIn_ok hu) h
  case bmClear =>
    refine hP.command_keeps hs ?_ h
    exact repliesIn_ok (hP.clearedBitmap hs)
  case tlbHitIdx key =>
    refine hP.command_keeps hs ?_ h
    split
    · exact repliesIn_ok hs
    · exact repliesIn_noData hs
  case tlbDoHit key idx =>
    refine hP.command_keeps hs ?_ h
    split
    · exact repliesIn_noData hs
    next he =>
    split
    · exact andThen_repliesIn (hP.doHit_endsIn hs he) fun _ _ hu => repliesIn_ok hu
    · exact repliesIn_noData hs
  case tlbDoMiss key frame =>
    exact hP.command_keeps hs (andThen_repliesIn (hP.doMiss_endsIn hs) fun _ _ hu => repliesIn_ok hu) h
  case tlbReset =>
    refine hP.command_keeps hs ?_ h
    exact repliesIn_ok (hP.resetTlb hs)
  case vmCreatePt seg addr =>
    refine hP.command_keeps hs (andThen_repliesIn (hP.memWrite_endsIn hs) fun _ _ hu => ?_) h
    split
    · exact andThen_repliesIn (hP.mark_endsIn hu) fun _ _ hv =>
        andThen_repliesIn (hP.mark_endsIn hv) fun _ _ hw => repliesIn_ok hw
    · exact repliesIn_ok hu
  case vmCreatePage page seg addr =>
    refine hP.command_keeps hs (andThen_repliesIn (memRead_endsIn hs) fun _ _ hu =>
      andThen_repliesIn (hP.memWrite_endsIn hu) fun _ _ hv => ?_) h
    split
    · exact andThen_repliesIn (hP.mark_endsIn hv) fun _ _ hw => repliesIn_ok hw
    · exact repliesIn_ok hv
  case vmGetPt seg page =>
    exact hP.command_keeps hs (andThen_repliesIn (memRead_endsIn hs) fun _ _ hu =>
      andThen_repliesIn (memRead_endsIn hu) fun _ _ hv => repliesIn_ok hv) h
  case vmRead a useTlb => exact hP.command_keeps hs (hP.access_repliesIn hs) h
  case vmWrite a useTlb => exact hP.command_keeps hs (hP.access_repliesIn hs) h
  case vmClear =>
    refine hP.command_keeps hs ?_ h
    exact repliesIn_ok (hP.clearedBitmap (hP.clearedMemory hs))

theorem step_keeps {t : State} (h : step s = .next t) : P t := by
  rcases step_eq_next h with rfl | ⟨rest, -, rfl⟩ | ⟨cw, rest, -, ⟨i, -, hexec⟩ | ⟨why, -, rfl⟩⟩
  · exact hs
  · exact hP.takeReset rest hs
  · exact hP.exec_keeps (hP.takeInput rest hs) hexec
  · exact hP.answer (fun _ => rfl) (hP.takeInput rest hs)

end

end KeptByUpdates

/-! ## The counters (42_tlb.md R150) -/

theorem ranked_keptByUpdates : KeptByUpdates fun s => s.tlb.ranked where
  memory _ _ hs := hs
  cell _ _ hs := hs
  promote he hs := hs.promote he
  insert k frame hs := hs.insert k frame
  clearedMemory hs := hs
  clearedBitmap hs := hs
  resetTlb _ := Tlb.ranked_fresh _
  answer _ hs := hs
  takeFatal _ _ hs := hs
  takeInput _ hs := hs
  takeReset _ _ := Tlb.ranked_fresh _

/-- Settles O28: every update of the TLB is a use of one entry or a reconstruction, and rank 0 has one slot. -/
theorem countersStayAPermutation : Obligations.CountersStayAPermutation := by
  unfold Obligations.CountersStayAPermutation
  refine ⟨fun c => Tlb.ranked_fresh _, fun s t hs h => ranked_keptByUpdates.step_keeps hs h, fun t ht hne => ?_⟩
  exact ⟨_, ht.victimAt (List.length_pos_iff.mpr hne)⟩

/-! ## The invariant of every reachable state -/

/-- No write reaches the stored cell (0,0) (10_state.md R27). -/
theorem Bitmap.corner_put (b : Bitmap) (n : Nat) (v : Bool) :
    ((b.put n v).getD 0 0#32).getLsbD 0 = (b.getD 0 0#32).getLsbD 0 := by
  rw [Bitmap.put]
  split
  · rfl
  next hn =>
  rw [List.getD_eq_getElem?_getD, List.getD_eq_getElem?_getD, List.getElem?_modify]
  split
  · next hrow =>
    have hcol : 0 ≠ n % bmWidth := by
      simp only [bmWidth] at *
      omega
    cases b[0]? with
    | none => rfl
    | some row => exact (Bitmap.row_put_bit row _ 0 (by decide) v).trans (if_neg hcol)
  · simp

theorem Bitmap.corner_fresh {rows : Nat} (h : 1 ≤ rows) : ((Bitmap.fresh rows).getD 0 0#32).getLsbD 0 = true := by
  have hrow : (Bitmap.fresh rows)[0]? = some 1#32 := by simp [Bitmap.fresh, Nat.pos_of_ne_zero (Nat.ne_of_gt h)]
  rw [List.getD_eq_getElem?_getD, hrow]
  rfl

/-- An unused entry's key and frame are 0 (10_state.md R32, R35). -/
def Tlb.UnusedZero (t : Tlb) : Prop := ∀ e ∈ t, e.valid = false → e.key = 0#19 ∧ e.frame = 0#32

theorem Tlb.unusedZero_fresh (cap : Nat) : (Tlb.fresh cap).UnusedZero := by
  intro e he _
  obtain ⟨i, -, rfl⟩ := List.mem_map.mp he
  exact ⟨rfl, rfl⟩

theorem Tlb.UnusedZero.promote {t : Tlb} (ht : t.UnusedZero) {i : Nat} {e : TlbEntry} (he : t[i]? = some e) :
    (t.promote i e).UnusedZero := by
  intro x hx hv
  obtain ⟨y, hy, hvalid, hkey, hframe⟩ := Tlb.mem_promote (List.mem_of_getElem? he) hx
  rw [← hkey, ← hframe]
  exact ht y hy (hvalid.trans hv)

theorem Tlb.UnusedZero.insert {t : Tlb} (ht : t.UnusedZero) (k : Key) (frame : Word) :
    (t.insert k frame).UnusedZero := by
  intro x hx hv
  obtain ⟨y, hy, rfl⟩ := List.mem_map.mp hx
  split at hv
  · cases hv
  · next h =>
    rw [if_neg h]
    exact ht y hy hv

theorem Reply.Legal.legalResponse {r : Reply} (h : r.Legal) : ∀ w, some r.word = some w → legalResponse w := by
  rintro _ ⟨⟩
  exact ⟨r, rfl, h⟩

theorem State.inv_resetWith {c : Config} (hc : c.wf) : (State.resetWith c).Inv where
  memory := Memory.wf_cleared
  config := by simpa [State.config] using hc
  hardwired := Bitmap.corner_fresh hc.1
  ranked := Tlb.ranked_fresh _
  unused := Tlb.unusedZero_fresh _
  latch := .inl ⟨rfl, rfl⟩
  response _ h := by cases h

theorem inv_keptByUpdates : KeptByUpdates State.Inv where
  memory v hi hs := { hs with memory := Memory.wf_write hs.memory hi }
  cell n v hs := { hs with
    config := by simpa [State.config] using hs.config
    hardwired := (Bitmap.corner_put _ n v).trans hs.hardwired }
  promote he hs := { hs with
    config := by simpa [State.config] using hs.config
    ranked := hs.ranked.promote he
    unused := Tlb.UnusedZero.promote hs.unused he }
  insert k frame hs := { hs with
    config := by simpa [State.config] using hs.config
    ranked := hs.ranked.insert k frame
    unused := Tlb.UnusedZero.insert hs.unused k frame }
  clearedMemory hs := { hs with memory := Memory.wf_cleared }
  clearedBitmap hs := { hs with
    config := by simpa [State.config] using hs.config
    hardwired := Bitmap.corner_fresh hs.config.1 }
  resetTlb hs := { hs with
    config := by simpa [State.config] using hs.config
    ranked := Tlb.ranked_fresh _
    unused := Tlb.unusedZero_fresh _ }
  answer hr hs := { hs with response := hr.legalResponse }
  takeFatal c m hs := { hs with
    latch := .inr ⟨rfl, c, rfl⟩
    response := Reply.Legal.legalResponse fun _ => rfl }
  takeInput _ hs := { hs with }
  takeReset _ hs := { State.inv_resetWith hs.config with }

/-- Settles O55: the reset values of `State.inv_resetWith`, and each update keeps every part of the invariant. -/
theorem invariantIsKept : Obligations.InvariantIsKept := fun _ _ hs h => inv_keptByUpdates.step_keeps hs h

end Sys2Proof.Machine
end

section
/-! The TLB's commands (42_tlb.md). What a lookup finds and what a hit or a miss leaves are said entry by entry, and the
recency order follows a hit and a miss as exact LRU does (R151) because each is a use of one entry. -/

namespace Sys2Proof.Machine

/-! ## Responses and command words -/

/-- The response of STATUS OK without marker is DATA alone (30_encoding.md R88). -/
theorem word_ok_eq_append (d : Word) : Reply.word { status := .ok, data := d } = 0#32 ++ d :=
  congrArg (· ++ d) (by decide : Status.ok.code ++ Marker.none.code ++ 0#26 = 0#32)

/-- IDX is the last field of format K's DATA (30_encoding.md R86). -/
theorem encode_tlbDoHit (key : Key) (idx : BitVec 8) :
    encode (.tlbDoHit key idx) = 0x21#8 ++ 0#5 ++ key ++ 0#24 ++ idx := by
  have hassoc (high : BitVec 32) : high ++ (0#24 ++ idx) = high ++ 0#24 ++ idx := by
    rw [BitVec.append_assoc, BitVec.cast_eq]
  exact hassoc (0x21#8 ++ 0#5 ++ key)

/-! ## Entries and victims, in the terms of the entry file (R141, R146) -/

section
variable {t : Tlb} {k : Key} {i v : Nat} {e : TlbEntry}

theorem TlbEntry.holds_iff : e.holds k = true ↔ e.valid = true ∧ e.key = k := by
  rw [TlbEntry.holds, Bool.and_eq_true, beq_iff_eq]

theorem Tlb.hitIndex_of_firstHit (h : t.firstHit k i e) : t.hitIndex k = some i := by
  obtain ⟨he, hvalid, hkey, hlow⟩ := h
  refine Tlb.hitIndex_eq_some.mpr ⟨⟨e, he, TlbEntry.holds_iff.mpr ⟨hvalid, hkey⟩⟩, fun j x hj hx => ?_⟩
  have hmem : x ∈ t.take i := List.mem_of_getElem? (i := j) (by rwa [List.getElem?_take_of_lt hj])
  exact Bool.not_eq_true _ ▸ mt TlbEntry.holds_iff.mp (hlow x hmem)

theorem Tlb.hitIndex_of_lacks (h : t.lacks k) : t.hitIndex k = none :=
  Tlb.hitIndex_eq_none.mpr fun e he => Bool.not_eq_true _ ▸ mt TlbEntry.holds_iff.mp (h e he)

theorem Tlb.victimAt.lru_eq_zero_iff (h : t.victimAt v) (he : t[i]? = some e) : e.lru = 0 ↔ i = v := by
  obtain ⟨-, hrank⟩ := h
  have hi := hrank i (List.getElem?_eq_some_iff.mp he).1
  rwa [he, Option.map_some, Option.some_inj] at hi

/-- No entry but the victim's has rank 0. -/
theorem Tlb.victimAt.hasVictim (h : t.victimAt v) : t.hasVictim = true := by
  have hv : v < t.length := h.1
  have hvictim : t[v].lru = 0 := (h.lru_eq_zero_iff (List.getElem?_eq_getElem hv)).mpr rfl
  have hothers : (t.eraseIdx v).countP (fun e => e.lru == 0) = 0 := by
    refine List.countP_eq_zero.mpr fun x hx hzero => ?_
    obtain ⟨j, hj, hne, rfl⟩ := List.mem_eraseIdx_iff_getElem.mp hx
    exact hne ((h.lru_eq_zero_iff (List.getElem?_eq_getElem hj)).mp (beq_iff_eq.mp hzero))
  rw [Tlb.hasVictim_iff, ← (List.getElem_cons_eraseIdx_perm hv).countP_eq, List.countP_cons, hothers]
  simp [hvictim]

theorem Tlb.promoted_promote (he : t[i]? = some e) : t.promoted (t.promote i e) i e := by
  intro j
  rw [Tlb.getElem?_promote _ _ _ _ (List.getElem?_eq_some_iff.mp he).1]
  split
  · next hj => rw [hj, he, Option.map_some]
  · rfl

theorem Tlb.replaced_insert (h : t.victimAt v) (k : Key) (frame : Word) :
    t.replaced (t.insert k frame) v k frame := by
  intro j
  rw [Tlb.getElem?_insert]
  exact Option.map_congr fun e he => if_congr (h.lru_eq_zero_iff he) rfl rfl

end

/-! ## The commands (R141, R143, R146, R149) -/

section
variable {s : State} {key : Key} {idx : BitVec 8} {frame : Word} {e : TlbEntry} (hlatch : s.fatal = false)
include hlatch

theorem exec_tlbHitIdx_some {i : Nat} (hi : i < 2 ^ 32) (h : s.tlb.hitIndex key = some i) :
    exec (.tlbHitIdx key) s = .next { s with rsp := some (BitVec.ofNat 64 i) } := by
  show execTlbHitIdx key s = _
  rw [execTlbHitIdx, command_eq_answer hlatch (by rw [h]), answer, word_ok, BitVec.toNat_ofNat, Nat.mod_eq_of_lt hi]

theorem exec_tlbHitIdx_none (h : s.tlb.hitIndex key = none) :
    exec (.tlbHitIdx key) s = .next { s with rsp := some 0x3000000000000000#64 } := by
  show execTlbHitIdx key s = _
  rw [execTlbHitIdx, command_eq_answer hlatch (by rw [h])]
  rfl

theorem exec_tlbDoHit_hit (he : s.tlb[idx.toNat]? = some e) (h : e.holds key = true) :
    exec (.tlbDoHit key idx) s =
      .next { s with tlb := s.tlb.promote idx.toNat e, rsp := some (0#32 ++ e.frame) } := by
  show execTlbDoHit key idx s = _
  rw [execTlbDoHit, command_running hlatch, he]
  simp only [if_pos h, doHit, andThen_ok, finish, answer, word_ok_eq_append]

theorem exec_tlbDoHit_refused (h : ∀ e, s.tlb[idx.toNat]? = some e → e.holds key = false) :
    exec (.tlbDoHit key idx) s = .next { s with rsp := some 0xD000000000000000#64 } := by
  show execTlbDoHit key idx s = _
  rw [execTlbDoHit, command_running hlatch]
  split
  · rfl
  · next e he =>
    rw [if_neg (by simp [h e he])]
    rfl

theorem exec_tlbDoMiss (h : s.tlb.hasVictim = true) :
    exec (.tlbDoMiss key frame) s = .next { s with tlb := s.tlb.insert key frame, rsp := some 0#64 } := by
  show execTlbDoMiss key frame s = _
  rw [execTlbDoMiss, command_running hlatch, doMiss_eq, if_pos h]
  rfl

theorem exec_tlbReset : exec .tlbReset s = .next { s with tlb := s.tlb.reset, rsp := some 0#64 } := by
  show execTlbReset s = _
  rw [execTlbReset, command_running hlatch]
  rfl

end

/-- Settles O23: the scan finds the lowest entry that holds the key, and an index below 256 is the whole response. -/
theorem tlbHitIdxResult : Obligations.TlbHitIdxResult := by
  unfold Obligations.TlbHitIdxResult
  refine ⟨fun _ => rfl, fun s key hlatch hcap => ⟨fun i e h => ?_, fun h => ?_⟩⟩
  · have hi : i < s.tlb.length := (List.getElem?_eq_some_iff.mp h.1).1
    exact exec_tlbHitIdx_some hlatch (by omega) (Tlb.hitIndex_of_firstHit h)
  · exact exec_tlbHitIdx_none hlatch (Tlb.hitIndex_of_lacks h)

/-- Settles O24: the entry is used where it holds the key, and refused where it does not. -/
theorem tlbDoHitResult : Obligations.TlbDoHitResult := by
  unfold Obligations.TlbDoHitResult
  refine ⟨encode_tlbDoHit, fun s key idx hlatch => ⟨fun e he hvalid hkey => ?_, fun h => ?_⟩⟩
  · exact ⟨_, exec_tlbDoHit_hit hlatch he (TlbEntry.holds_iff.mpr ⟨hvalid, hkey⟩), Tlb.promoted_promote he⟩
  · refine exec_tlbDoHit_refused hlatch fun e he => ?_
    rcases h e he with hvalid | hkey
    · simp [TlbEntry.holds, hvalid]
    · simp [TlbEntry.holds, hkey]

/-- Settles O26: with one entry of rank 0 the miss is carried out, and it replaces that entry. -/
theorem tlbDoMissResult : Obligations.TlbDoMissResult := by
  unfold Obligations.TlbDoMissResult
  refine ⟨fun _ _ => rfl, fun s key frame v hlatch hvictim => ?_⟩
  exact ⟨_, exec_tlbDoMiss hlatch hvictim.hasVictim, Tlb.replaced_insert hvictim key frame⟩

/-- Settles O27: the entry file is left at its reset value. -/
theorem tlbResetResult : Obligations.TlbResetResult := by
  unfold Obligations.TlbResetResult
  refine ⟨by decide, fun s hlatch => ⟨_, exec_tlbReset hlatch, Tlb.length_reset _, fun i hi => ?_⟩⟩
  rw [Tlb.length_reset] at hi
  exact (Tlb.getElem?_fresh _ _).trans (if_pos hi)

/-! ## Exact LRU (R151) -/

theorem Tlb.ranked.recency_promote {t : Tlb} (ht : t.ranked) {i : Nat} {e : TlbEntry} (he : t[i]? = some e) :
    (t.promote i e).recency = t.recency.erase i ++ [i] := by
  have hv : e.lru < t.length := ht.lt_length (List.mem_of_getElem? he)
  have hslot : i = t.slotOf e.lru := (ht.lru_eq_iff hv).mp (by rw [he, Option.map_some])
  have h := (ht.usedAt_promote he).recency ht hv
  rwa [← hslot] at h

/-- The slot of rank 0 is the old end of the recency order. -/
theorem Tlb.recency_eq_cons {t : Tlb} (h : 0 < t.length) : ∃ older, t.recency = t.slotOf 0 :: older := by
  obtain ⟨n, hn⟩ := Nat.exists_eq_succ_of_ne_zero h.ne'
  rw [Tlb.recency_eq, hn, List.range_succ_eq_map, List.map_cons]
  exact ⟨_, rfl⟩

theorem Tlb.ranked.recency_insert {t : Tlb} (ht : t.ranked) (h : 0 < t.length) (k : Key) (frame : Word) :
    ∃ older, t.recency = t.slotOf 0 :: older ∧ (t.insert k frame).recency = older ++ [t.slotOf 0] := by
  obtain ⟨older, holder⟩ := Tlb.recency_eq_cons h
  refine ⟨older, holder, ?_⟩
  rw [(Tlb.usedAt_insert t k frame).recency ht h, holder, List.erase_cons_head]

theorem Tlb.victimAt.getElem?_insert {t : Tlb} {v : Nat} (h : t.victimAt v) (k : Key) (frame : Word) :
    (t.insert k frame)[v]? = some ⟨true, k, frame, t.length - 1⟩ := by
  rw [Tlb.replaced_insert h k frame v, List.getElem?_eq_getElem h.1, Option.map_some, if_pos rfl]

/-- Settles O29: a hit is a use of its own slot, a miss of the slot of rank 0. -/
theorem replacementIsExactLru : Obligations.ReplacementIsExactLru := by
  unfold Obligations.ReplacementIsExactLru
  constructor
  · intro s t key idx e hlatch hranked he hvalid hkey h
    rw [exec_tlbDoHit_hit hlatch he (TlbEntry.holds_iff.mpr ⟨hvalid, hkey⟩)] at h
    cases h
    exact hranked.recency_promote he
  · intro s t key frame hlatch hranked hne h
    have hpos : 0 < s.tlb.length := List.length_pos_iff.mpr hne
    have hvictim := hranked.victimAt hpos
    rw [exec_tlbDoMiss hlatch hvictim.hasVictim] at h
    cases h
    obtain ⟨older, hold, hnew⟩ := hranked.recency_insert hpos key frame
    exact ⟨_, older, hold, hnew, hvictim.getElem?_insert key frame⟩

/-! ## Misses from reset (R147) -/

/-- Entry `i` after the misses `new` from reset, among `cap` entries (42_tlb.md R147). -/
def filledEntry (cap : Nat) (new : List (Key × Word)) (i : Nat) : TlbEntry :=
  match new[i]? with
  | some kf => ⟨true, kf.1, kf.2, cap - new.length + i⟩
  | none => ⟨false, 0#19, 0#32, i - new.length⟩

section
variable {cap i : Nat} {new : List (Key × Word)}

theorem filledEntry_of_some {kf : Key × Word} (h : new[i]? = some kf) :
    filledEntry cap new i = ⟨true, kf.1, kf.2, cap - new.length + i⟩ := by
  rw [filledEntry, h]

theorem filledEntry_of_le (h : new.length ≤ i) : filledEntry cap new i = ⟨false, 0#19, 0#32, i - new.length⟩ := by
  rw [filledEntry, List.getElem?_eq_none h]

/-- One more miss takes the first unused entry: before it no rank is 0, and after it none is. -/
theorem filledEntry_concat (kf : Key × Word) (hnew : new.length < cap) :
    filledEntry cap (new ++ [kf]) i =
      if (filledEntry cap new i).lru = 0 then ⟨true, kf.1, kf.2, cap - 1⟩
      else { filledEntry cap new i with lru := (filledEntry cap new i).lru - 1 } := by
  have hlen : (new ++ [kf]).length = new.length + 1 := by simp
  rcases lt_trichotomy i new.length with hi | rfl | hi
  · have hrank : cap - new.length + i ≠ 0 := by omega
    have hnext : cap - (new.length + 1) + i = cap - new.length + i - 1 := by omega
    have hold : new[i]? = some new[i] := List.getElem?_eq_getElem hi
    have hstays : (new ++ [kf])[i]? = some new[i] := (List.getElem?_append_left hi).trans hold
    rw [filledEntry_of_some hstays, filledEntry_of_some hold, if_neg hrank, hlen, hnext]
  · have hlast : cap - (new.length + 1) + new.length = cap - 1 := by omega
    rw [filledEntry_of_some List.getElem?_concat_length, filledEntry_of_le le_rfl, if_pos (Nat.sub_self _), hlen,
      hlast]
  · have hrank : i - new.length ≠ 0 := by omega
    rw [filledEntry_of_le (by omega), filledEntry_of_le hi.le, if_neg hrank, hlen, Nat.sub_sub]

end

/-- The entry file after the misses `new` from reset. -/
def Tlb.filled (cap : Nat) (new : List (Key × Word)) : Tlb :=
  new.foldl (fun t kf => t.insert kf.1 kf.2) (Tlb.fresh cap)

theorem Tlb.filled_concat (cap : Nat) (new : List (Key × Word)) (kf : Key × Word) :
    Tlb.filled cap (new ++ [kf]) = (Tlb.filled cap new).insert kf.1 kf.2 := List.foldl_concat ..

theorem Tlb.length_filled (cap : Nat) (new : List (Key × Word)) : (Tlb.filled cap new).length = cap := by
  induction new using List.reverseRecOn with
  | nil => exact Tlb.length_fresh cap
  | append_singleton new kf ih => rw [Tlb.filled_concat, Tlb.length_insert, ih]

theorem Tlb.getElem?_filled {cap i : Nat} {new : List (Key × Word)} (hnew : new.length ≤ cap) (hi : i < cap) :
    (Tlb.filled cap new)[i]? = some (filledEntry cap new i) := by
  induction new using List.reverseRecOn with
  | nil => rw [Tlb.filled, List.foldl_nil, Tlb.getElem?_fresh, if_pos hi, filledEntry_of_le (Nat.zero_le i)]; rfl
  | append_singleton new kf ih =>
    have hlt : new.length < cap := by simpa using hnew
    rw [Tlb.filled_concat, Tlb.getElem?_insert, ih hlt.le, Option.map_some, Tlb.length_filled,
      filledEntry_concat kf hlt]

/-- Settles O30, by induction on the misses, the last one first. -/
theorem missesFillInOrder : Obligations.MissesFillInOrder := fun _ _ hnew _ hi => Tlb.getElem?_filled hnew hi

end Sys2Proof.Machine
end

section
/-! What a walk can change (43_translation_sequencer.md R166, R170). Only an allocation writes, so a property that both
allocations keep is kept by the walk, and by an access on either path where it says nothing of the TLB. A write keeps
every word that was not 0 and every cell that was 1; a read, which never allocates, keeps all of PM and the bitmap. -/

namespace Sys2Proof.Machine

/-! ## What the allocations keep, the walk keeps -/

section
variable {P : State → Prop}

/-- The induction over the passes, once: a pass ends the walk, or allocates and goes on. -/
theorem walkPasses_endsIn_of_alloc {seg : BitVec 9} {page : BitVec 10} {off : BitVec 9} {write : Bool}
    (htable : ∀ u, P u → write = true → (allocTable seg u).EndsIn P)
    (hpage : ∀ u i, P u → write = true → inPm i = true → (allocPage i u).EndsIn P)
    {passes : Nat} {s : State} (hs : P s) : (walkPasses passes seg page off write s).EndsIn P := by
  induction passes generalizing s with
  | zero => exact endsIn_fault
  | succ passes ih =>
    rw [walkPasses_succ]
    simp only
    split
    · exact endsIn_ok hs
    split
    · split
      · next hwrite => exact andThen_endsIn (htable s hs hwrite) fun _ _ hu => ih hu
      · exact endsIn_ok hs
    split
    · next hi =>
      split
      · exact endsIn_ok hs
      split
      · split
        · next hwrite => exact andThen_endsIn (hpage s _ hs hwrite hi) fun _ _ hu => ih hu
        · exact endsIn_ok hs
      · exact endsIn_ok hs
    · exact endsIn_fatal hs

/-- Beside its walk an access changes the TLB alone (R171). -/
theorem access_endsIn_of_walk {a : Word} {write useTlb : Bool} {s : State} (hs : P s)
    (hwalk : (walk a write s).EndsIn P) (htlb : ∀ u t, P u → P { u with tlb := t }) :
    (access a write useTlb s).EndsIn P := by
  have hmiss : (tlbMissPath a write s).EndsIn P := by
    refine marked_endsIn <| andThen_endsIn hwalk fun o u hu => ?_
    refine andThen_endsIn ?_ fun _ _ hv => endsIn_ok hv
    cases o with
    | pageFault => exact endsIn_ok hu
    | error => exact endsIn_ok hu
    | resolved pa frame =>
      rw [cacheIfResolved, doMiss_eq]
      split
      · exact endsIn_ok (htlb u _ hu)
      · exact endsIn_fault
  unfold access
  split
  · unfold tlbPath
    split
    · exact hmiss
    split
    · exact hmiss
    · exact andThen_endsIn (endsIn_ok (htlb s _ hs)) fun _ _ hu => endsIn_ok hu
  · exact andThen_endsIn hwalk fun _ _ hu => endsIn_ok hu

end

/-! ## Writes (R170, R174 e) -/

/-- Every occupied cell of `b` is occupied in `b'`. -/
def Bitmap.KeptBy (b b' : Bitmap) : Prop := ∀ n, b.cell n = true → b'.cell n = true

theorem Bitmap.KeptBy.refl (b : Bitmap) : b.KeptBy b := fun _ h => h

theorem Bitmap.KeptBy.put {b b' : Bitmap} (h : b.KeptBy b') {n : Nat} (hn : n < b'.bits) :
    b.KeptBy (b'.put n true) := by
  intro m hm
  rw [Bitmap.cell_put _ _ _ _ hn, h m hm, ite_self]

theorem allocTable_keepsCells {b : Bitmap} {seg : BitVec 9} {s : State} (hb : b.KeptBy s.bm) :
    (allocTable seg s).EndsIn fun t => b.KeptBy t.bm := by
  cases hf : s.bm.findConsecutiveZeros with
  | none => rw [allocTable_none hf]; exact endsIn_fatal hb
  | some n =>
    obtain ⟨-, hlt, -⟩ := Bitmap.findConsecutiveZeros_eq_some.mp hf
    have hput : b.KeptBy ((s.bm.put n true).put (n + 1) true) :=
      (hb.put (Nat.lt_of_succ_lt hlt)).put (by rwa [Bitmap.bits_put])
    rw [allocTable_some hf]
    exact endsIn_ok hput

theorem allocPage_keepsCells {b : Bitmap} {i : Int} {s : State} (hb : b.KeptBy s.bm) (hi : inPm i = true) :
    (allocPage i s).EndsIn fun t => b.KeptBy t.bm := by
  cases hf : s.bm.findFirstZero with
  | none => rw [allocPage_none hf]; exact endsIn_fatal hb
  | some n =>
    obtain ⟨-, hlt, -⟩ := Bitmap.findFirstZero_eq_some.mp hf
    rw [allocPage_some hi hf]
    exact endsIn_ok (hb.put hlt)

/-- A walk, however it ends, frees no cell. -/
theorem walk_keepsCells {a : Word} {write : Bool} {s : State} : (walk a write s).EndsIn fun t => s.bm.KeptBy t.bm :=
  walkPasses_endsIn_of_alloc (fun _ hu _ => allocTable_keepsCells hu) (fun _ _ hu _ hi => allocPage_keepsCells hu hi)
    (.refl s.bm)

/-- Settles O44: the walk keeps the words that are not 0 and the occupied cells, and nothing else in an access touches
PM or the bitmap. -/
theorem writesOnlyFillZeros : Obligations.WritesOnlyFillZeros := by
  unfold Obligations.WritesOnlyFillZeros
  intro s u a t h
  have hwalk : (walk a true s).EndsIn fun v => s.pm.KeptBy v.pm ∧ s.bm.KeptBy v.bm :=
    fun v hv => ⟨walk_keeps v hv, walk_keepsCells v hv⟩
  have hs : s.pm.KeptBy s.pm ∧ s.bm.KeptBy s.bm := ⟨.refl _, .refl _⟩
  exact command_keeps (fun _ _ hv => hv) (fun _ _ _ hv => hv) hs
    (access_endsIn_of_walk hs hwalk fun _ _ hv => hv) h

end Sys2Proof.Machine
end

section
/-! The preload commands and VM_CLEAR (43_translation_sequencer.md R160 to R162, R175): what each leaves in PM and the
bitmap, and how it answers, where it succeeds and where it fails. -/

namespace Sys2Proof.Machine

/-! ## Command words, marks and stores -/

/-- The key of a preload command is SEG‖PAGE (30_encoding.md R81). -/
theorem formatK_append (opc : BitVec 8) (seg : BitVec 9) (page : BitVec 10) (data : Word) :
    formatK opc (seg ++ page) data = opc ++ 0#5 ++ seg ++ page ++ data := by
  have hassoc (high : BitVec 13) : high ++ (seg ++ page) = high ++ seg ++ page := by
    rw [BitVec.append_assoc, BitVec.cast_eq]
  exact congrArg (· ++ data) (hassoc (opc ++ 0#5))

theorem markedAt.append {b b' b'' : Bitmap} {fs gs : List Nat} (h : markedAt b b' fs) (h' : markedAt b' b'' gs) :
    markedAt b b'' (fs ++ gs) :=
  ⟨h'.1.trans h.1, fun n => by simp [h'.2, h.2, Bool.or_assoc]⟩

/-- Marking frame 0, whose cell is hardwired to 1, changes no cell (10_state.md R27). -/
theorem markedAt_put_of_lt {b : Bitmap} {n : Nat} (h : n < b.bits) : markedAt b (b.put n true) [n] := by
  cases n with
  | zero => refine ⟨rfl, fun m => ?_⟩; cases m <;> simp
  | succ n => exact markedAt_put (Nat.le_add_left 1 n) h

/-- `Mark` where the frame has a cell (41_bitmap_scanner.md R128). -/
theorem mark_markedAt {f : Nat} {s : State} (h : f < s.bm.bits) :
    ∃ b, mark f s = .ok () { s with bm := b } ∧ markedAt s.bm b [f] :=
  ⟨_, mark_in h, markedAt_put_of_lt h⟩

theorem markedAt.bits_eq {b b' : Bitmap} {fs : List Nat} (h : markedAt b b' fs) : b'.bits = b.bits :=
  congrArg (bmWidth * ·) h.1

theorem memRead_segEntry (seg : BitVec 9) (s : State) : memRead seg.toNat s = .ok (s.segEntry seg) s :=
  memRead_segment seg s

theorem inPm_eq_false_iff {i : Int} : inPm i = false ↔ i < 0 ∨ pmSize ≤ i := by
  rw [← Bool.not_eq_true, inPm_iff]
  omega

theorem storedAt_write (m : Memory) (i : Nat) (v : Word) : storedAt m (m.write i v) i v :=
  fun j => Memory.read_write m i j v

/-! ## VM_CREATE_PT (R160) -/

section
variable {s : State} {seg : BitVec 9} {page : BitVec 10} {addr : Word} (hlatch : s.fatal = false)
include hlatch

/-- The segment entry is written first, whatever follows. -/
theorem exec_vmCreatePt : exec (.vmCreatePt seg addr) s = finish (
    if 0 < s32 addr then
      (mark (frameOf addr) { s with pm := s.pm.write seg.toNat addr }).andThen fun _ s =>
        (mark (frameOf addr + 1) s).andThen fun _ s => .ok { status := .ok } s
    else .ok { status := .ok } { s with pm := s.pm.write seg.toNat addr }) := by
  show execVmCreatePt seg addr s = _
  rw [execVmCreatePt, command_running hlatch, memWrite_segment, andThen_ok]

theorem exec_vmCreatePt_unbacked (h : s32 addr ≤ 0) :
    exec (.vmCreatePt seg addr) s = .next { s with pm := s.pm.write seg.toNat addr, rsp := some 0#64 } := by
  rw [exec_vmCreatePt hlatch, if_neg (not_lt.mpr h)]
  rfl

theorem exec_vmCreatePt_both (hpos : 0 < s32 addr) (hlt : frameOf addr + 1 < s.bm.bits) :
    ∃ b, exec (.vmCreatePt seg addr) s =
        .next { s with pm := s.pm.write seg.toNat addr, bm := b, rsp := some 0#64 } ∧
      markedAt s.bm b [frameOf addr, frameOf addr + 1] := by
  obtain ⟨b, hfst, hb⟩ := mark_markedAt (s := { s with pm := s.pm.write seg.toNat addr }) (Nat.lt_of_succ_lt hlt)
  obtain ⟨b', hsnd, hb'⟩ := mark_markedAt (s := { s with pm := s.pm.write seg.toNat addr, bm := b })
    (f := frameOf addr + 1) (hb.bits_eq ▸ hlt)
  refine ⟨b', ?_, hb.append hb'⟩
  rw [exec_vmCreatePt hlatch, if_pos hpos, hfst, andThen_ok, hsnd]
  rfl

theorem exec_vmCreatePt_first (hpos : 0 < s32 addr) (heq : frameOf addr + 1 = s.bm.bits) :
    ∃ b, exec (.vmCreatePt seg addr) s = .next { s with
        pm := s.pm.write seg.toNat addr, bm := b, fatal := true, fcode := 0x9#4, rsp := some 0x9000000000000000#64 } ∧
      markedAt s.bm b [frameOf addr] := by
  obtain ⟨b, hfst, hb⟩ := mark_markedAt (s := { s with pm := s.pm.write seg.toNat addr })
    (show frameOf addr < s.bm.bits by omega)
  refine ⟨b, ?_, hb⟩
  rw [exec_vmCreatePt hlatch, if_pos hpos, hfst, andThen_ok, mark_out (by rw [hb.bits_eq, heq]), andThen_fatal, finish,
    takeFatal_none]
  rfl

theorem exec_vmCreatePt_out (hpos : 0 < s32 addr) (hge : s.bm.bits ≤ frameOf addr) :
    exec (.vmCreatePt seg addr) s = .next { s with
      pm := s.pm.write seg.toNat addr, fatal := true, fcode := 0x9#4, rsp := some 0x9000000000000000#64 } := by
  have hmark := mark_out (s := { s with pm := s.pm.write seg.toNat addr }) hge
  rw [exec_vmCreatePt hlatch, if_pos hpos, hmark, andThen_fatal, finish, takeFatal_none]
  rfl

/-! ## VM_CREATE_PAGE and VM_GET_PT (R161, R162) -/

/-- The index comes from the segment entry, whatever it holds. -/
theorem exec_vmCreatePage : exec (.vmCreatePage page seg addr) s = finish (
    (memWrite (s.pageIndex seg page) addr s).andThen fun _ s =>
      if 0 < s32 addr then (mark (frameOf addr) s).andThen fun _ s => .ok { status := .ok } s
      else .ok { status := .ok } s) := by
  show execVmCreatePage page seg addr s = _
  rw [execVmCreatePage, command_running hlatch, memRead_segEntry, andThen_ok, ← State.pageIndex]

theorem exec_vmCreatePage_outOfRange (hi : inPm (s.pageIndex seg page) = false) :
    exec (.vmCreatePage page seg addr) s =
      .next { s with fatal := true, fcode := 0xA#4, rsp := some 0xA000000000000000#64 } := by
  rw [exec_vmCreatePage hlatch, memWrite_out hi, andThen_fatal, finish, takeFatal_none]
  rfl

theorem exec_vmCreatePage_unbacked (hi : inPm (s.pageIndex seg page) = true) (h : s32 addr ≤ 0) :
    exec (.vmCreatePage page seg addr) s =
      .next { s with pm := s.pm.write (s.pageIndex seg page).toNat addr, rsp := some 0#64 } := by
  rw [exec_vmCreatePage hlatch, memWrite_in hi, andThen_ok, if_neg (not_lt.mpr h)]
  rfl

theorem exec_vmCreatePage_marks (hi : inPm (s.pageIndex seg page) = true) (hpos : 0 < s32 addr)
    (hlt : frameOf addr < s.bm.bits) :
    ∃ b, exec (.vmCreatePage page seg addr) s =
        .next { s with pm := s.pm.write (s.pageIndex seg page).toNat addr, bm := b, rsp := some 0#64 } ∧
      markedAt s.bm b [frameOf addr] := by
  obtain ⟨b, hmark, hb⟩ := mark_markedAt (s := { s with pm := s.pm.write (s.pageIndex seg page).toNat addr }) hlt
  refine ⟨b, ?_, hb⟩
  rw [exec_vmCreatePage hlatch, memWrite_in hi, andThen_ok, if_pos hpos, hmark]
  rfl

theorem exec_vmCreatePage_out (hi : inPm (s.pageIndex seg page) = true) (hpos : 0 < s32 addr)
    (hge : s.bm.bits ≤ frameOf addr) :
    exec (.vmCreatePage page seg addr) s = .next { s with
      pm := s.pm.write (s.pageIndex seg page).toNat addr, fatal := true, fcode := 0x9#4,
      rsp := some 0x9000000000000000#64 } := by
  have hmark := mark_out (s := { s with pm := s.pm.write (s.pageIndex seg page).toNat addr }) hge
  rw [exec_vmCreatePage hlatch, memWrite_in hi, andThen_ok, if_pos hpos, hmark, andThen_fatal, finish, takeFatal_none]
  rfl

theorem exec_vmGetPt : exec (.vmGetPt seg page) s = finish (
    (memRead (s.pageIndex seg page) s).andThen fun v s => .ok { status := .ok, data := v } s) := by
  show execVmGetPt seg page s = _
  rw [execVmGetPt, command_running hlatch, memRead_segEntry, andThen_ok, ← State.pageIndex]

theorem exec_vmGetPt_inRange (hi : inPm (s.pageIndex seg page) = true) :
    exec (.vmGetPt seg page) s = .next { s with rsp := some (0#32 ++ s.pageEntry seg page) } := by
  rw [exec_vmGetPt hlatch, memRead_in hi, andThen_ok, ← State.pageEntry, finish, answer, word_ok_eq_append]

theorem exec_vmGetPt_outOfRange (hi : inPm (s.pageIndex seg page) = false) :
    exec (.vmGetPt seg page) s =
      .next { s with fatal := true, fcode := 0xA#4, rsp := some 0xA000000000000000#64 } := by
  rw [exec_vmGetPt hlatch, memRead_out hi, andThen_fatal, finish, takeFatal_none]
  rfl

/-! ## VM_CLEAR (R175) -/

theorem exec_vmClear :
    exec .vmClear s = .next { s with pm := Memory.cleared, bm := s.bm.clear, rsp := some 0#64 } := by
  show execVmClear s = _
  rw [execVmClear, command_running hlatch]
  rfl

end

/-! ## The statements -/

/-- Settles O31: the word is written before the marks, and a mark that fails keeps what came before it. -/
theorem vmCreatePtResult : Obligations.VmCreatePtResult := by
  unfold Obligations.VmCreatePtResult
  refine ⟨fun seg addr => formatK_append .., fun s seg addr hlatch => ⟨fun h => ?unbacked, fun hpos hlt => ?both,
    fun hpos heq => ?first, fun hpos hge => ?out⟩⟩
  case unbacked => exact ⟨_, exec_vmCreatePt_unbacked hlatch h, storedAt_write _ _ _⟩
  case both =>
    obtain ⟨b, hexec, hb⟩ := exec_vmCreatePt_both (seg := seg) hlatch hpos hlt
    exact ⟨_, b, hexec, storedAt_write _ _ _, hb⟩
  case first =>
    obtain ⟨b, hexec, hb⟩ := exec_vmCreatePt_first (seg := seg) hlatch hpos heq
    exact ⟨_, b, hexec, storedAt_write _ _ _, hb⟩
  case out => exact ⟨_, exec_vmCreatePt_out hlatch hpos hge, storedAt_write _ _ _⟩

/-- Settles O32: an index outside PM fails before the write, a frame outside the bitmap after it. -/
theorem vmCreatePageResult : Obligations.VmCreatePageResult := by
  unfold Obligations.VmCreatePageResult
  refine ⟨fun page seg addr => formatK_append .., fun s page seg addr hlatch =>
    ⟨fun h => exec_vmCreatePage_outOfRange hlatch (inPm_eq_false_iff.mpr h), fun hlo hhi => ?_⟩⟩
  have hi : inPm (s.pageIndex seg page) = true := (inPm_iff _).mpr ⟨hlo, hhi⟩
  refine ⟨fun h => ?unbacked, fun hpos hlt => ?marks, fun hpos hge => ?out⟩
  case unbacked => exact ⟨_, exec_vmCreatePage_unbacked hlatch hi h, storedAt_write _ _ _⟩
  case marks =>
    obtain ⟨b, hexec, hb⟩ := exec_vmCreatePage_marks hlatch hi hpos hlt
    exact ⟨_, b, hexec, storedAt_write _ _ _, hb⟩
  case out => exact ⟨_, exec_vmCreatePage_out hlatch hi hpos hge, storedAt_write _ _ _⟩

/-- Settles O33: both reads leave the state, and the second is the response. -/
theorem vmGetPtResult : Obligations.VmGetPtResult := by
  unfold Obligations.VmGetPtResult
  refine ⟨fun seg page => formatK_append .., fun s seg page hlatch => ⟨fun hlo hhi => ?_, fun h => ?_⟩⟩
  · exact exec_vmGetPt_inRange hlatch ((inPm_iff _).mpr ⟨hlo, hhi⟩)
  · exact exec_vmGetPt_outOfRange hlatch (inPm_eq_false_iff.mpr h)

/-- Settles O50: PM is left with every word 0 and the bitmap at its reset value. -/
theorem vmClearResult : Obligations.VmClearResult := by
  unfold Obligations.VmClearResult
  exact ⟨by decide, fun s hlatch => ⟨_, _, exec_vmClear hlatch, Memory.read_cleared, Bitmap.length_clear _,
    Bitmap.cell_clear _⟩⟩

end Sys2Proof.Machine
end

section
/-! The walk of the direct path, pass by pass (43_translation_sequencer.md R166 to R170). What a pass does is said by
what the pair's two entries are. Each allocation turns an entry that was 0 into a base, so it leaves fewer passes to
make: three suffice, and a walk allowed more goes the same way. -/

namespace Sys2Proof.Machine

/-! ## The base of a frame the bitmap can name (00_scope.md R6) -/

section
variable {b : Bitmap} {n : Nat}

theorem toNat_frameBase_of_cell (hrows : b.length ≤ 65536) (hn : n < b.bits) :
    (frameBase n).toNat = frameSize * n := by
  simp only [Bitmap.bits, bmWidth] at hn
  simp only [frameBase, frameSize, BitVec.toNat_ofNat]
  omega

theorem s32_frameBase_of_cell (hrows : b.length ≤ 65536) (hn : n < b.bits) :
    s32 (frameBase n) = ((frameSize * n : Nat) : Int) := by
  have htoNat := toNat_frameBase_of_cell hrows hn
  rw [← htoNat]
  refine s32_of_lt ?_
  simp only [Bitmap.bits, bmWidth, frameSize] at *
  omega

/-- A frame after frame 0 has a base that is neither −1 nor 0. -/
theorem s32_frameBase_ne (hrows : b.length ≤ 65536) (h1 : 1 ≤ n) (hn : n < b.bits) :
    s32 (frameBase n) ≠ -1 ∧ s32 (frameBase n) ≠ 0 := by
  rw [s32_frameBase_of_cell hrows hn]
  simp only [frameSize]
  omega

theorem toNat_addOffset_frameBase (hrows : b.length ≤ 65536) (hn : n < b.bits) (off : BitVec 9) :
    (addOffset (frameBase n) off).toNat = frameSize * n + off.toNat := by
  have hoff := off.isLt
  rw [addOffset, BitVec.toNat_add, toNat_frameBase_of_cell hrows hn, BitVec.toNat_setWidth_of_le (by decide)]
  simp only [Bitmap.bits, bmWidth, frameSize] at *
  omega

end

/-! ## What the two entries of a pair can be (R167) -/

/-- What a pass of the walk finds. -/
inductive State.PairIs (s : State) (seg : BitVec 9) (page : BitVec 10) : Prop
  | invalidSegment (h : s32 (s.segEntry seg) = -1)
  | unbackedSegment (h : s.segEntry seg = 0#32)
  | outOfRange (hbacked : s.tableBacked seg) (h : inPm (s.pageIndex seg page) = false)
  | invalidPage (hread : s.pageReadable seg page) (h : s32 (s.pageEntry seg page) = -1)
  | unbackedPage (hread : s.pageReadable seg page) (h : s.pageEntry seg page = 0#32)
  | resolved {frame : Word} (h : s.resolvesTo seg page frame)

theorem State.pairIs (s : State) (seg : BitVec 9) (page : BitVec 10) : s.PairIs seg page := by
  by_cases hst : s32 (s.segEntry seg) = -1
  · exact .invalidSegment hst
  by_cases hst0 : s32 (s.segEntry seg) = 0
  · exact .unbackedSegment (s32_eq_zero.mp hst0)
  by_cases hi : inPm (s.pageIndex seg page) = true
  · have hread : s.pageReadable seg page := ⟨⟨hst, hst0⟩, (inPm_iff _).mp hi⟩
    by_cases hpt : s32 (s.pageEntry seg page) = -1
    · exact .invalidPage hread hpt
    by_cases hpt0 : s32 (s.pageEntry seg page) = 0
    · exact .unbackedPage hread (s32_eq_zero.mp hpt0)
    · exact .resolved ⟨hread, rfl, hpt, hpt0⟩
  · exact .outOfRange ⟨hst, hst0⟩ (by simpa using hi)

/-! ## What a pass does (R166) -/

section
variable {seg : BitVec 9} {page : BitVec 10} {off : BitVec 9} {write : Bool} {s : State} {passes : Nat}

theorem walkPasses_of_invalid_segment (h : s32 (s.segEntry seg) = -1) :
    walkPasses (passes + 1) seg page off write s = .ok .pageFault s := by
  rw [walkPasses_succ]
  exact if_pos h

theorem walkPasses_of_unbacked_segment (h : s.segEntry seg = 0#32) :
    walkPasses (passes + 1) seg page off write s =
      if write then (allocTable seg s).andThen fun _ t => walkPasses passes seg page off write t
      else .ok .error s := by
  have hst0 : s32 (s.segEntry seg) = 0 := s32_eq_zero.mpr h
  have hst : s32 (s.segEntry seg) ≠ -1 := by omega
  rw [walkPasses_succ]
  exact (if_neg hst).trans (if_pos hst0)

theorem walkPasses_of_outOfRange (hbacked : s.tableBacked seg) (h : inPm (s.pageIndex seg page) = false) :
    walkPasses (passes + 1) seg page off write s = .fatal .pmRange .none s := by
  obtain ⟨hst, hst0⟩ := hbacked
  rw [walkPasses_succ]
  exact (if_neg hst).trans <| (if_neg hst0).trans (if_neg (Bool.not_eq_true _ ▸ h))

/-- With the page entry readable, the pass ends by what it holds. -/
theorem walkPasses_of_pageReadable (hread : s.pageReadable seg page) :
    walkPasses (passes + 1) seg page off write s =
      if s32 (s.pageEntry seg page) = -1 then .ok .pageFault s
      else if s32 (s.pageEntry seg page) = 0 then
        if write then (allocPage (s.pageIndex seg page) s).andThen fun _ t => walkPasses passes seg page off write t
        else .ok .error s
      else .ok (.resolved (addOffset (s.pageEntry seg page) off) (s.pageEntry seg page)) s := by
  obtain ⟨⟨hst, hst0⟩, hi⟩ := hread
  rw [walkPasses_succ]
  exact (if_neg hst).trans <| (if_neg hst0).trans (if_pos ((inPm_iff _).mpr hi))

theorem walkPasses_of_invalid_page (hread : s.pageReadable seg page) (h : s32 (s.pageEntry seg page) = -1) :
    walkPasses (passes + 1) seg page off write s = .ok .pageFault s := by
  rw [walkPasses_of_pageReadable hread, if_pos h]

theorem walkPasses_of_unbacked_page (hread : s.pageReadable seg page) (h : s.pageEntry seg page = 0#32) :
    walkPasses (passes + 1) seg page off write s =
      if write then (allocPage (s.pageIndex seg page) s).andThen fun _ t => walkPasses passes seg page off write t
      else .ok .error s := by
  have hpt0 : s32 (s.pageEntry seg page) = 0 := s32_eq_zero.mpr h
  rw [walkPasses_of_pageReadable hread, if_neg (by omega), if_pos hpt0]

theorem walkPasses_of_resolvesTo {frame : Word} (h : s.resolvesTo seg page frame) :
    walkPasses (passes + 1) seg page off write s = .ok (.resolved (addOffset frame off) frame) s := by
  obtain ⟨hread, rfl, hpt, hpt0⟩ := h
  rw [walkPasses_of_pageReadable hread, if_neg hpt, if_neg hpt0]

/-! ## The passes left (R170) -/

/-- How many passes a walk can still make: the last one, and one more for each allocation before it. -/
def State.passesLeft (s : State) (seg : BitVec 9) (page : BitVec 10) : Nat :=
  if s.segEntry seg = 0#32 then 3 else if s.pageReadable seg page ∧ s.pageEntry seg page = 0#32 then 2 else 1

theorem State.passesLeft_of_unbacked_segment (h : s.segEntry seg = 0#32) : s.passesLeft seg page = 3 := if_pos h

theorem State.passesLeft_of_backed_segment (h : s.segEntry seg ≠ 0#32) : s.passesLeft seg page ≤ 2 := by
  rw [passesLeft, if_neg h]
  split <;> omega

theorem State.passesLeft_of_unbacked_page (hread : s.pageReadable seg page) (h : s.pageEntry seg page = 0#32) :
    s.passesLeft seg page = 2 := by
  have hst0 := hread.1.2
  rw [passesLeft, if_neg (mt s32_eq_zero.mpr hst0), if_pos ⟨hread, h⟩]

theorem State.passesLeft_of_resolvesTo {frame : Word} (h : s.resolvesTo seg page frame) :
    s.passesLeft seg page = 1 := by
  obtain ⟨⟨⟨-, hst0⟩, -⟩, hframe, -, hpt0⟩ := h
  have hpt : s.pageEntry seg page ≠ 0#32 := mt s32_eq_zero.mpr (hframe ▸ hpt0)
  rw [passesLeft, if_neg (mt s32_eq_zero.mpr hst0), if_neg fun h => hpt h.2]

theorem State.passesLeft_bounds (s : State) (seg : BitVec 9) (page : BitVec 10) :
    1 ≤ s.passesLeft seg page ∧ s.passesLeft seg page ≤ 3 := by
  unfold passesLeft
  split
  · omega
  split <;> omega

/-! ## What an allocation leaves (R169) -/

/-- After the page allocation the pair resolves: the entry written was 0 and the segment entry was not, so the segment
entry stands. -/
theorem resolvesTo_of_storedAt_page {t : State} {v : Word} (hread : s.pageReadable seg page)
    (h : s.pageEntry seg page = 0#32) (hv : s32 v ≠ -1 ∧ s32 v ≠ 0)
    (hstore : storedAt s.pm t.pm (s.pageIndex seg page).toNat v) : t.resolvesTo seg page v := by
  have hother : seg.toNat ≠ (s.pageIndex seg page).toNat := fun he =>
    hread.1.2 (s32_eq_zero.mpr ((congrArg s.pm.read he).trans h))
  have hseg : t.segEntry seg = s.segEntry seg := (hstore _).trans (if_neg hother)
  have hindex : t.pageIndex seg page = s.pageIndex seg page := by rw [State.pageIndex, hseg, State.pageIndex]
  refine ⟨?_, ?_, hv⟩
  · rwa [State.pageReadable, State.tableBacked, hseg, hindex]
  · rw [State.pageEntry, hindex, hstore, if_pos rfl]

/-- The allocation that a write's pass makes. -/
inductive State.Allocates (s : State) (seg : BitVec 9) (page : BitVec 10) : Run Unit → Prop
  | table (h : s.segEntry seg = 0#32) : Allocates s seg page (allocTable seg s)
  | page (hread : s.pageReadable seg page) (h : s.pageEntry seg page = 0#32) :
    Allocates s seg page (allocPage (s.pageIndex seg page) s)

/-- A pass that allocates goes on to the next pass. -/
theorem State.Allocates.walkPasses_eq {r : Run Unit} (hr : s.Allocates seg page r) :
    walkPasses (passes + 1) seg page off true s = r.andThen fun _ t => walkPasses passes seg page off true t := by
  cases hr with
  | table h => exact (walkPasses_of_unbacked_segment h).trans (if_pos rfl)
  | page hread h => exact (walkPasses_of_unbacked_page hread h).trans (if_pos rfl)

theorem allocTable_stores {n : Nat} (h : s.bm.findConsecutiveZeros = some n) :
    ∃ t, allocTable seg s = .ok () t ∧ storedAt s.pm t.pm seg.toNat (frameBase n) ∧ t.bm.length = s.bm.length :=
  ⟨_, allocTable_some h, storedAt_write _ _ _, by simp⟩

theorem allocPage_stores {i : Int} {n : Nat} (hi : inPm i = true) (h : s.bm.findFirstZero = some n) :
    ∃ t, allocPage i s = .ok () t ∧ storedAt s.pm t.pm i.toNat (frameBase n) ∧ t.bm.length = s.bm.length :=
  ⟨_, allocPage_some hi h, storedAt_write _ _ _, by simp⟩

/-- An allocation fails for want of a free frame, or leaves fewer passes to make. -/
theorem State.Allocates.ends {r : Run Unit} (hr : s.Allocates seg page r) :
    r = .fatal .alloc .none s ∨ ∃ t, r = .ok () t ∧
      (s.bm.length ≤ 65536 → t.bm.length ≤ 65536 ∧ t.passesLeft seg page < s.passesLeft seg page) := by
  cases hr with
  | table h =>
    cases hf : s.bm.findConsecutiveZeros with
    | none => exact .inl (allocTable_none hf)
    | some n =>
      obtain ⟨hge, hlt, -⟩ := Bitmap.findConsecutiveZeros_eq_some.mp hf
      obtain ⟨t, halloc, hstore, hlen⟩ := allocTable_stores (seg := seg) hf
      refine .inr ⟨t, halloc, fun hrows => ⟨hlen ▸ hrows, ?_⟩⟩
      have hbase := s32_frameBase_ne hrows hge (Nat.lt_of_succ_lt hlt)
      rw [State.passesLeft_of_unbacked_segment h]
      refine Nat.lt_succ_of_le (State.passesLeft_of_backed_segment ?_)
      rw [segEntry_of_storedAt_segment hstore, if_pos rfl]
      exact mt s32_eq_zero.mpr hbase.2
  | page hread h =>
    cases hf : s.bm.findFirstZero with
    | none => exact .inl (allocPage_none hf)
    | some n =>
      obtain ⟨hge, hlt, -⟩ := Bitmap.findFirstZero_eq_some.mp hf
      obtain ⟨t, halloc, hstore, hlen⟩ := allocPage_stores ((inPm_iff _).mpr hread.2) hf
      refine .inr ⟨t, halloc, fun hrows => ⟨hlen ▸ hrows, ?_⟩⟩
      have hresolved := resolvesTo_of_storedAt_page hread h (s32_frameBase_ne hrows hge hlt) hstore
      rw [State.passesLeft_of_unbacked_page hread h, State.passesLeft_of_resolvesTo hresolved]
      exact Nat.lt_succ_self 1

/-! ## How a walk ends -/

/-- An end of a walk: a fatal failure carries no marker, and a resolved pair resolves where the walk ends (R166
step 6). -/
inductive Run.EndsWalk (seg : BitVec 9) (page : BitVec 10) (off : BitVec 9) : Run WalkEnd → Prop
  | pageFault {t} : EndsWalk seg page off (.ok .pageFault t)
  | error {t} : EndsWalk seg page off (.ok .error t)
  | resolved {frame t} (h : t.resolvesTo seg page frame) :
    EndsWalk seg page off (.ok (.resolved (addOffset frame off) frame) t)
  | fatal {c t} : EndsWalk seg page off (.fatal c .none t)

/-- A pass ends the walk, whatever passes are allowed after it, or it allocates for a write. -/
theorem walkPasses_pass (seg : BitVec 9) (page : BitVec 10) (off : BitVec 9) (write : Bool) (s : State) :
    (∃ r : Run WalkEnd, r.EndsWalk seg page off ∧ ∀ passes, walkPasses (passes + 1) seg page off write s = r) ∨
      write = true ∧ ∃ r, s.Allocates seg page r := by
  rcases s.pairIs seg page with h | h | ⟨hbacked, h⟩ | ⟨hread, h⟩ | ⟨hread, h⟩ | h
  case invalidSegment => exact .inl ⟨_, .pageFault, fun _ => walkPasses_of_invalid_segment h⟩
  case outOfRange => exact .inl ⟨_, .fatal, fun _ => walkPasses_of_outOfRange hbacked h⟩
  case invalidPage => exact .inl ⟨_, .pageFault, fun _ => walkPasses_of_invalid_page hread h⟩
  case resolved => exact .inl ⟨_, .resolved h, fun _ => walkPasses_of_resolvesTo h⟩
  case unbackedSegment =>
    cases write with
    | true => exact .inr ⟨rfl, _, .table h⟩
    | false => exact .inl ⟨_, .error, fun _ => walkPasses_of_unbacked_segment h⟩
  case unbackedPage =>
    cases write with
    | true => exact .inr ⟨rfl, _, .page hread h⟩
    | false => exact .inl ⟨_, .error, fun _ => walkPasses_of_unbacked_page hread h⟩

/-- A walk comes to an end, unless it is allowed fewer passes than it has left to make. -/
theorem walkPasses_ends : (walkPasses passes seg page off write s).EndsWalk seg page off ∨
    walkPasses passes seg page off write s = .fault .walkOverrun ∧
      (s.bm.length ≤ 65536 → passes < s.passesLeft seg page) := by
  induction passes generalizing s with
  | zero => exact .inr ⟨rfl, fun _ => (s.passesLeft_bounds seg page).1⟩
  | succ passes ih =>
    rcases walkPasses_pass seg page off write s with ⟨r, hr, heq⟩ | ⟨rfl, r, hr⟩
    · rw [heq]
      exact .inl hr
    rw [hr.walkPasses_eq]
    obtain rfl | ⟨t, rfl, hless⟩ := hr.ends
    · exact .inl .fatal
    rcases ih (s := t) with hend | ⟨hfault, hfew⟩
    · exact .inl hend
    · refine .inr ⟨hfault, fun hrows => ?_⟩
      obtain ⟨hrows', hlt⟩ := hless hrows
      exact Nat.lt_of_le_of_lt (hfew hrows') hlt

/-- Two bounds that both suffice give the same walk. -/
theorem walkPasses_eq_of_le (hrows : s.bm.length ≤ 65536) {passes' : Nat} (h : s.passesLeft seg page ≤ passes)
    (h' : s.passesLeft seg page ≤ passes') :
    walkPasses passes seg page off write s = walkPasses passes' seg page off write s := by
  have hpos := (s.passesLeft_bounds seg page).1
  induction passes generalizing s passes' with
  | zero => omega
  | succ passes ih =>
    obtain ⟨passes', rfl⟩ : ∃ n, passes' = n + 1 := Nat.exists_eq_succ_of_ne_zero (by omega)
    rcases walkPasses_pass seg page off write s with ⟨r, -, heq⟩ | ⟨rfl, r, hr⟩
    · rw [heq, heq]
    rw [hr.walkPasses_eq, hr.walkPasses_eq]
    obtain rfl | ⟨t, rfl, hless⟩ := hr.ends
    · rfl
    · obtain ⟨hrows', hlt⟩ := hless hrows
      exact ih hrows' (by omega) (by omega) (t.passesLeft_bounds seg page).1

end

section
variable {a : Word} {write : Bool} {s t : State}

theorem walk_ends (hfault : ∀ f, walk a write s ≠ .fault f) :
    (walk a write s).EndsWalk (segmentOf a) (pageOf a) (offsetOf a) :=
  walkPasses_ends.resolve_right fun h => hfault _ h.1

theorem walk_ne_fault (hrows : s.bm.length ≤ 65536) (f : Fault) : walk a write s ≠ .fault f := by
  rcases walkPasses_ends (passes := 3) (seg := segmentOf a) (page := pageOf a) (off := offsetOf a) (write := write)
    (s := s) with hend | ⟨-, hfew⟩
  · intro h
    rw [walk] at h
    rw [h] at hend
    cases hend
  · have hle := (s.passesLeft_bounds (segmentOf a) (pageOf a)).2
    have hlt := hfew hrows
    omega

/-- The walk after an allocation is the walk of the state it left (R166: "retry from step 1"). -/
theorem walk_of_allocates (hrows : s.bm.length ≤ 65536) (h : s.Allocates (segmentOf a) (pageOf a) (.ok () t)) :
    walk a true s = walk a true t := by
  obtain hfatal | ⟨_, ⟨⟩, hless⟩ := h.ends
  · cases hfatal
  obtain ⟨hrows', hlt⟩ := hless hrows
  have hle := (s.passesLeft_bounds (segmentOf a) (pageOf a)).2
  rw [walk, h.walkPasses_eq, andThen_ok, walk]
  exact walkPasses_eq_of_le hrows' (by omega) (by omega)

end

/-- Settles O42: a walk can have at most three passes to make, and it is allowed three. -/
theorem walkEndsWithinThreePasses : Obligations.WalkEndsWithinThreePasses := fun _ _ _ => walk_ne_fault

end Sys2Proof.Machine
end

section
/-! The direct path of VM_READ and VM_WRITE (43_translation_sequencer.md R163 to R170, R174): an access ends as its walk
does. A write that allocates goes on as a write in the state the allocation left, so what it reports is what the
resolved pair reports there; and a resolved pair answers a second access as the first. -/

namespace Sys2Proof.Machine

/-! ## An access on the direct path -/

section
variable {s t u : State} {a : Word} {write : Bool} {o : WalkEnd}

/-- The run of a direct access: its walk, answered without marker (R165). -/
theorem access_direct (a : Word) (write : Bool) (s : State) :
    access a write false s = (walk a write s).andThen fun o t => .ok (o.reply .none) t := rfl

theorem exec_direct_of_ok (hlatch : s.fatal = false) (h : walk a write s = .ok o t) :
    exec (accessCommand write a false) s = .next (answer (o.reply .none) t) := by
  rw [exec_accessCommand, command_eq_answer hlatch (by rw [access_direct, h, andThen_ok])]

/-- What a direct access can come to: HALTED, an answer to the end of its walk, or a fatal failure of its walk. -/
theorem exec_direct_eq_next (h : exec (accessCommand write a false) s = .next u) :
    (s.fatal = true ∧ u = answer { status := .halted } s) ∨
      s.fatal = false ∧ ((∃ o t, walk a write s = .ok o t ∧ u = answer (o.reply .none) t) ∨
        ∃ c t, walk a write s = .fatal c .none t ∧ u = takeFatal c .none t) := by
  rw [exec_accessCommand] at h
  cases hlatch : s.fatal with
  | true =>
    rw [command_halted hlatch] at h
    cases h
    exact .inl ⟨rfl, rfl⟩
  | false =>
    rw [command_running hlatch, access_direct] at h
    refine .inr ⟨rfl, ?_⟩
    cases hw : walk a write s with
    | ok o t =>
      rw [hw] at h
      cases h
      exact .inl ⟨o, t, rfl, rfl⟩
    | fatal c m t =>
      have hend := walk_ends (a := a) (write := write) (s := s) (by simp [hw])
      rw [hw] at h hend
      cases hend
      cases h
      exact .inr ⟨c, t, rfl, rfl⟩
    | fault f =>
      rw [hw] at h
      cases h

/-- A walk that resolved reports the entry its pair resolves to, plus the offset. -/
theorem walk_resolved_pair {pa frame : Word} (h : walk a write s = .ok (.resolved pa frame) t) :
    t.resolvesTo (segmentOf a) (pageOf a) frame ∧ pa = addOffset frame (offsetOf a) := by
  have hend := walk_ends (a := a) (write := write) (s := s) (by simp [h])
  rw [h] at hend
  cases hend with
  | resolved hres => exact ⟨hres, rfl⟩

end

/-! ## A resolved pair (R168, R174 b) -/

section
variable {s : State} {a : Word} {write : Bool} {frame : Word}

theorem addOffset_eq (base : Word) (off : BitVec 9) :
    addOffset base off = BitVec.ofNat 32 (base.toNat + off.toNat) := by
  apply BitVec.eq_of_toNat_eq
  rw [addOffset, BitVec.toNat_add, BitVec.toNat_setWidth_of_le (by decide), BitVec.toNat_ofNat]

theorem walk_of_resolvesTo (h : s.resolvesTo (segmentOf a) (pageOf a) frame) :
    walk a write s = .ok (.resolved (addOffset frame (offsetOf a)) frame) s := by
  rw [walk, walkPasses_of_resolvesTo h]

theorem exec_direct_of_resolvesTo (hlatch : s.fatal = false) (h : s.resolvesTo (segmentOf a) (pageOf a) frame) :
    exec (accessCommand write a false) s =
      .next (answer { status := .ok, data := addOffset frame (offsetOf a) } s) := by
  rw [exec_direct_of_ok hlatch (walk_of_resolvesTo h)]
  rfl

theorem exec_vmWrite_of_resolvesTo (hlatch : s.fatal = false) (h : s.resolvesTo (segmentOf a) (pageOf a) frame) :
    exec (.vmWrite a false) s = .next (answer { status := .ok, data := addOffset frame (offsetOf a) } s) :=
  exec_direct_of_resolvesTo (write := true) hlatch h

end

/-- Settles O34: the one pass reads both entries and ends. -/
theorem directAccessResolved : Obligations.DirectAccessResolved := by
  unfold Obligations.DirectAccessResolved
  intro s a w frame hlatch h
  rw [exec_direct_of_resolvesTo hlatch h, answer, word_ok_eq_append, addOffset_eq]

/-- Only the status OK is coded 0 (30_encoding.md R90). -/
theorem Status.code_eq_zero_iff {st : Status} : st.code = 0#4 ↔ st = .ok := by cases st <;> decide

/-- The field that says whether the response is OK. -/
theorem statusField_eq_zero_iff {r : Reply} : r.word.extractLsb' 60 4 = 0#4 ↔ r.status = .ok := by
  rw [← Status.code_eq_zero_iff, ← rspStatus_word, rspStatus]

theorem WalkEnd.reply_status_eq_ok {o : WalkEnd} {m : Marker} :
    (o.reply m).status = .ok ↔ ∃ pa frame, o = .resolved pa frame := by
  cases o <;> simp [WalkEnd.reply]

theorem FatalCode.status_ne_ok (c : FatalCode) : c.status ≠ .ok := by cases c <;> decide

/-- Settles O45: the pair resolves in the state the write left, and answering does not touch it. -/
theorem resolvedWriteIsStable : Obligations.ResolvedWriteIsStable := by
  unfold Obligations.ResolvedWriteIsStable
  intro s u a r h hr hok
  rcases exec_direct_eq_next (write := true) h with
    ⟨-, rfl⟩ | ⟨hlatch, ⟨o, t, hw, rfl⟩ | ⟨c, t, -, rfl⟩⟩
  · cases hr
    cases statusField_eq_zero_iff.mp hok
  · cases hr
    obtain ⟨pa, frame, rfl⟩ := WalkEnd.reply_status_eq_ok.mp (statusField_eq_zero_iff.mp hok)
    obtain ⟨hres, rfl⟩ := walk_resolved_pair hw
    have hlatch' : t.fatal = false := (walk_same (congrArg Run.state? hw)).fatal.trans hlatch
    have hagain (r : Reply) (write : Bool) :=
      exec_direct_of_resolvesTo (s := answer r t) (write := write) hlatch' hres
    exact ⟨hagain _ true, hagain _ false⟩
  · cases hr
    exact absurd (statusField_eq_zero_iff.mp hok) c.status_ne_ok

/-! ## A read (R163, R174 a) -/

/-- A read's walk writes nothing, and answering changes nothing it reads. -/
theorem walk_read_answer {s t : State} {a : Word} {o : WalkEnd} (h : walk a false s = .ok o t) (r : Reply) :
    t = s ∧ walk a false (answer r s) = .ok o (answer r s) := by
  obtain rfl := walkPasses_read (congrArg Run.state? h)
  refine ⟨rfl, ?_⟩
  rw [walk] at h ⊢
  rcases t.pairIs (segmentOf a) (pageOf a) with hp | hp | ⟨hbacked, hp⟩ | ⟨hread, hp⟩ | ⟨hread, hp⟩ | hp
  case invalidSegment =>
    rw [walkPasses_of_invalid_segment hp] at h
    cases h
    exact walkPasses_of_invalid_segment (s := answer r t) hp
  case unbackedSegment =>
    rw [walkPasses_of_unbacked_segment hp] at h
    cases h
    exact walkPasses_of_unbacked_segment (s := answer r t) hp
  case outOfRange =>
    rw [walkPasses_of_outOfRange hbacked hp] at h
    cases h
  case invalidPage =>
    rw [walkPasses_of_invalid_page hread hp] at h
    cases h
    exact walkPasses_of_invalid_page (s := answer r t) hread hp
  case unbackedPage =>
    rw [walkPasses_of_unbacked_page hread hp] at h
    cases h
    exact walkPasses_of_unbacked_page (s := answer r t) hread hp
  case resolved =>
    rw [walkPasses_of_resolvesTo hp] at h
    cases h
    exact walkPasses_of_resolvesTo (s := answer r t) hp

/-- Settles O43: on either path a read's walk leaves the state as it is, and on the direct path so does the access. -/
theorem readsNeverAllocate : Obligations.ReadsNeverAllocate := by
  unfold Obligations.ReadsNeverAllocate
  intro s u a t h
  have hwalk : (walk a false s).EndsIn fun v => v.pm = s.pm ∧ v.bm = s.bm := by
    intro v hv
    rw [walkPasses_read hv]
    exact ⟨rfl, rfl⟩
  have hkept : u.pm = s.pm ∧ u.bm = s.bm :=
    command_keeps (P := fun v => v.pm = s.pm ∧ v.bm = s.bm) (fun _ _ hv => hv) (fun _ _ _ hv => hv) ⟨rfl, rfl⟩
      (access_endsIn_of_walk ⟨rfl, rfl⟩ hwalk fun _ _ hv => hv) h
  refine ⟨hkept.1, hkept.2, ?_, ?_⟩
  · rintro rfl
    rcases exec_direct_eq_next (write := false) h with ⟨-, rfl⟩ | ⟨-, ⟨o, v, hw, rfl⟩ | ⟨c, v, hw, rfl⟩⟩
    · rfl
    · exact (walk_same (congrArg Run.state? hw)).tlb
    · exact (walk_same (congrArg Run.state? hw)).tlb
  · rintro rfl hclear
    rcases exec_direct_eq_next (write := false) h with
      ⟨hlatch, rfl⟩ | ⟨hlatch, ⟨o, v, hw, rfl⟩ | ⟨c, v, hw, rfl⟩⟩
    · cases hlatch.symm.trans hclear
    · obtain ⟨rfl, hagain⟩ := walk_read_answer hw (o.reply .none)
      exact exec_direct_of_ok (write := false) (t := answer (o.reply .none) v) hlatch hagain
    · cases hclear

/-! ## A write that allocates (R166, R169, R170) -/

/-- The state that the allocation of a table on frames `n` and `n + 1` leaves. -/
def State.withTable (s : State) (seg : BitVec 9) (n : Nat) : State :=
  { s with pm := s.pm.write seg.toNat (frameBase n), bm := (s.bm.put n true).put (n + 1) true }

section
variable {s : State} {seg : BitVec 9} {page : BitVec 10} {n : Nat}

theorem allocTable_eq_withTable (h : s.bm.firstFreePair n) : allocTable seg s = .ok () (s.withTable seg n) :=
  allocTable_some (Bitmap.findConsecutiveZeros_of_firstFreePair h)

theorem State.withTable_pm (s : State) (seg : BitVec 9) (n : Nat) :
    storedAt s.pm (s.withTable seg n).pm seg.toNat (frameBase n) := storedAt_write _ _ _

theorem State.withTable_bm (h : s.bm.firstFreePair n) : markedAt s.bm (s.withTable seg n).bm [n, n + 1] := by
  obtain ⟨hge, hlt, -⟩ := h
  exact markedAt_put_pair hge hlt

theorem State.withTable_segEntry : (s.withTable seg n).segEntry seg = frameBase n := by
  rw [segEntry_of_storedAt_segment (s.withTable_pm seg n), if_pos rfl]

/-- The page entries of the new table stand in its frames (20_memory.md R58). -/
theorem State.withTable_pageIndex (hrows : s.bm.length ≤ 65536) (hn : n < s.bm.bits) :
    (s.withTable seg n).pageIndex seg page = ((frameSize * n + page.toNat : Nat) : Int) := by
  rw [State.pageIndex, State.withTable_segEntry, tableIndex, s32_frameBase_of_cell hrows hn]
  push_cast
  rfl

end

section
variable {s : State} {a : Word} {n : Nat} (hlatch : s.fatal = false) (hrows : s.bm.length ≤ 65536)
include hlatch hrows

/-- After an allocation the write goes on as a write in the state the allocation left. -/
theorem exec_vmWrite_of_allocates {t : State} (h : s.Allocates (segmentOf a) (pageOf a) (.ok () t))
    (hlatch' : t.fatal = false) : exec (.vmWrite a false) s = exec (.vmWrite a false) t := by
  have hexec (v : State) : exec (.vmWrite a false) v = command (access a true false) v := rfl
  rw [hexec, hexec, command_running hlatch, command_running hlatch', access_direct, access_direct,
    walk_of_allocates hrows h]

theorem exec_vmWrite_newTable (h : s.segEntry (segmentOf a) = 0#32) (hfree : s.bm.firstFreePair n) :
    exec (.vmWrite a false) s = exec (.vmWrite a false) (s.withTable (segmentOf a) n) := by
  refine exec_vmWrite_of_allocates hlatch hrows ?_ hlatch
  have halloc := State.Allocates.table (page := pageOf a) h
  rwa [allocTable_eq_withTable hfree] at halloc

theorem exec_vmWrite_newPage (hread : s.pageReadable (segmentOf a) (pageOf a))
    (h : s.pageEntry (segmentOf a) (pageOf a) = 0#32) (hfree : s.bm.firstFree n) :
    exec (.vmWrite a false) s =
      exec (.vmWrite a false) { s with
        pm := s.pm.write (s.pageIndex (segmentOf a) (pageOf a)).toNat (frameBase n)
        bm := s.bm.put n true } := by
  refine exec_vmWrite_of_allocates hlatch hrows ?_ hlatch
  have halloc := State.Allocates.page hread h
  rwa [allocPage_some ((inPm_iff _).mpr hread.2) (Bitmap.findFirstZero_of_firstFree hfree)] at halloc

end

/-- Settles O40: the passes left after an allocation are no more than those a new write makes. -/
theorem writeRetriesAfterAllocation : Obligations.WriteRetriesAfterAllocation := fun _ _ _ hlatch hrows =>
  ⟨exec_vmWrite_newTable hlatch hrows, exec_vmWrite_newPage hlatch hrows⟩

/-- Settles O38: the write goes on in a state where the pair resolves to the new frame's base. -/
theorem writeAllocatesPage : Obligations.WriteAllocatesPage := by
  unfold Obligations.WriteAllocatesPage
  intro s a n hlatch hrows hread h hfree
  obtain ⟨hge, hlt, -⟩ := id hfree
  have hstore := storedAt_write s.pm (s.pageIndex (segmentOf a) (pageOf a)).toNat (frameBase n)
  refine ⟨_, s.bm.put n true, ?_, hstore, markedAt_put_of_lt hlt⟩
  rw [exec_vmWrite_newPage hlatch hrows hread h hfree, exec_vmWrite_of_resolvesTo (frame := frameBase n)]
  case hlatch => exact hlatch
  case h => exact resolvesTo_of_storedAt_page hread h (s32_frameBase_ne hrows hge hlt) hstore
  rw [answer, word_ok, toNat_addOffset_frameBase hrows hlt]

/-- Settles O39: the write goes on in a state with an empty table, where it allocates the page. -/
theorem writeAllocatesTableAndPage : Obligations.WriteAllocatesTableAndPage := by
  unfold Obligations.WriteAllocatesTableAndPage
  intro s a n k hlatch hrows hst hpair hindex hpt hk1 hk hkfree hkn hkn1 hlow
  obtain ⟨hge, hlt, -⟩ := id hpair
  have hmark := State.withTable_bm (seg := segmentOf a) hpair
  have hat := State.withTable_pageIndex (seg := segmentOf a) (page := pageOf a) hrows (Nat.lt_of_succ_lt hlt)
  have hbase := s32_frameBase_ne hrows hge (Nat.lt_of_succ_lt hlt)
  have hread : (s.withTable (segmentOf a) n).pageReadable (segmentOf a) (pageOf a) := by
    rw [State.pageReadable, State.tableBacked, State.withTable_segEntry, hat]
    exact ⟨hbase, Int.natCast_nonneg _, Int.ofNat_lt.mpr hindex⟩
  have hother : frameSize * n + (pageOf a).toNat ≠ (segmentOf a).toNat := by
    have hseg := (segmentOf a).isLt
    simp only [frameSize]
    omega
  have hunbacked : (s.withTable (segmentOf a) n).pageEntry (segmentOf a) (pageOf a) = 0#32 := by
    rw [State.pageEntry, hat, Int.toNat_natCast, State.withTable_pm, if_neg hother, hpt]
  have hfree : (s.withTable (segmentOf a) n).bm.firstFree k := by
    refine ⟨hk1, hmark.bits_eq ▸ hk, by simp [hmark.2, hkfree, hkn, hkn1], fun j hj h1 => ?_⟩
    simpa [hmark.2, or_assoc] using hlow j hj h1
  rw [exec_vmWrite_newTable hlatch hrows hst hpair]
  obtain ⟨m, b, hexec, hm, hb⟩ :=
    writeAllocatesPage (s.withTable (segmentOf a) n) a k hlatch (hmark.1 ▸ hrows) hread hunbacked hfree
  refine ⟨m, b, hexec, fun j => ?_, hmark.append hb⟩
  rw [hm, hat, Int.toNat_natCast, State.withTable_pm]
  rfl

end Sys2Proof.Machine
end

section
/-! The TLB path of VM_READ and VM_WRITE (43_translation_sequencer.md R171 to R173). A hit answers with the cached
frame; a miss ends as the direct path with the miss marker, and caches what it resolved. While the TLB is coherent the
cached frame is the entry the walk would read, so the two paths agree. -/

namespace Sys2Proof.Machine

/-! ## Markers in the response word (30_encoding.md R88, R91) -/

theorem word_or_miss (r : Reply) :
    Reply.word { r with marker := .none } ||| 0x0400000000000000#64 = Reply.word { r with marker := .miss } := by
  have hmiss : 0x0400000000000000#64 = 0#4 ++ 1#2 ++ 0#26 ++ 0#32 := by decide
  rw [hmiss, Reply.word, Reply.word, BitVec.or_append, BitVec.or_append, BitVec.or_append]
  simp only [BitVec.or_zero]
  rfl

theorem word_without_marker (r : Reply) :
    r.word &&& ~~~0x0C00000000000000#64 = Reply.word { r with marker := .none } := by
  have hmask : ~~~0x0C00000000000000#64 = BitVec.allOnes 4 ++ 0#2 ++ BitVec.allOnes 26 ++ BitVec.allOnes 32 := by
    decide
  rw [hmask, Reply.word, Reply.word, BitVec.and_append, BitVec.and_append, BitVec.and_append]
  simp only [BitVec.and_allOnes, BitVec.and_zero]
  rfl

/-- The response of a hit (R171). -/
theorem word_hit (d : Word) : Reply.word { status := .ok, marker := .hit, data := d } = 0x08000000#32 ++ d :=
  congrArg (· ++ d) (by decide : Status.ok.code ++ Marker.hit.code ++ 0#26 = 0x08000000#32)

/-! ## A hit (R171) -/

/-- A lookup finds the lowest entry that holds the key, or there is none (42_tlb.md R141). -/
theorem Tlb.lacks_or_firstHit (t : Tlb) (k : Key) : t.lacks k ∨ ∃ i e, t.firstHit k i e := by
  cases h : t.hitIndex k with
  | none =>
    refine .inl fun e he hk => ?_
    cases (Tlb.hitIndex_eq_none.mp h e he).symm.trans (TlbEntry.holds_iff.mpr hk)
  | some i =>
    obtain ⟨⟨e, he, hk⟩, hlow⟩ := Tlb.hitIndex_eq_some.mp h
    obtain ⟨hvalid, hkey⟩ := TlbEntry.holds_iff.mp hk
    refine .inr ⟨i, e, he, hvalid, hkey, fun x hx hxk => ?_⟩
    obtain ⟨j, hj, hx⟩ := List.mem_take_iff_getElem.mp hx
    have hat : t[j]? = some x := by rw [← hx, List.getElem?_eq_getElem]
    cases (hlow j x (by omega) hat).symm.trans (TlbEntry.holds_iff.mpr hxk)

theorem exec_hit {s : State} {a : Word} {write : Bool} {i : Nat} {e : TlbEntry} (hlatch : s.fatal = false)
    (h : s.tlb.firstHit (keyOf a) i e) :
    exec (accessCommand write a true) s = .next { s with
      tlb := s.tlb.promote i e, rsp := some (0x08000000#32 ++ addOffset e.frame (offsetOf a)) } := by
  rw [exec_accessCommand, command_running hlatch, access, if_pos rfl, tlbPath]
  simp only [Tlb.hitIndex_of_firstHit h, h.1, tlbHitPath, doHit, andThen_ok, finish, answer, word_hit]

/-- Settles O46: the lookup finds the entry, and the hit is carried out on it. -/
theorem tlbPathHit : Obligations.TlbPathHit := by
  unfold Obligations.TlbPathHit
  intro s a w i e hlatch h
  refine ⟨_, ?_, Tlb.promoted_promote h.1⟩
  rw [exec_hit hlatch h, addOffset_eq]

/-! ## A miss (R171 to R173) -/

section
variable {s t : State} {a : Word} {write : Bool}

/-- A miss, with the latch clear, is the run of the miss path (R171). -/
theorem exec_miss (hlatch : s.fatal = false) (h : s.tlb.lacks (keyOf a)) :
    exec (accessCommand write a true) s = finish (tlbMissPath a write s) := by
  rw [exec_accessCommand, command_running hlatch, access, if_pos rfl, tlbPath]
  simp only [Tlb.hitIndex_of_lacks h]

theorem tlbMissPath_of_not_resolved {o : WalkEnd} (h : walk a write s = .ok o t)
    (ho : ∀ pa frame, o ≠ .resolved pa frame) : tlbMissPath a write s = .ok (o.reply .miss) t := by
  rw [tlbMissPath, h, andThen_ok]
  cases o with
  | pageFault => rfl
  | error => rfl
  | resolved pa frame => exact absurd rfl (ho pa frame)

theorem tlbMissPath_of_resolved {pa frame : Word} (h : walk a write s = .ok (.resolved pa frame) t)
    (hvictim : t.tlb.hasVictim = true) :
    tlbMissPath a write s =
      .ok (WalkEnd.reply .miss (.resolved pa frame)) { t with tlb := t.tlb.insert (keyOf a) frame } := by
  rw [tlbMissPath, h, andThen_ok, cacheIfResolved, doMiss_eq, if_pos hvictim]
  rfl

theorem tlbMissPath_of_fatal {c : FatalCode} {m : Marker} (h : walk a write s = .fatal c m t) :
    tlbMissPath a write s = .fatal c .miss t := by
  rw [tlbMissPath, h, andThen_fatal, marked_fatal]

end

/-- The reply to a walk is the same on both paths but for the marker (30_encoding.md R91). -/
theorem WalkEnd.reply_with_marker (o : WalkEnd) (m m' : Marker) : { o.reply m with marker := m' } = o.reply m' := by
  cases o <;> rfl

theorem WalkEnd.word_reply_miss (o : WalkEnd) :
    (o.reply .none).word ||| 0x0400000000000000#64 = (o.reply .miss).word := by
  have h := word_or_miss (o.reply .none)
  rwa [WalkEnd.reply_with_marker, WalkEnd.reply_with_marker] at h

/-- Settles O47: both paths make the same walk, and where it resolved the entry inserted is the pair's. -/
theorem tlbPathMiss : Obligations.TlbPathMiss := by
  unfold Obligations.TlbPathMiss
  intro s u a w r hlatch hlacks h hr
  rw [exec_miss hlatch hlacks]
  rcases exec_direct_eq_next h with ⟨hset, -⟩ | ⟨-, ⟨o, t, hw, rfl⟩ | ⟨c, t, hw, rfl⟩⟩
  · cases hset.symm.trans hlatch
  · cases hr
    rw [ne_eq, statusField_eq_zero_iff, WalkEnd.reply_status_eq_ok, WalkEnd.word_reply_miss]
    constructor
    · intro ho
      rw [tlbMissPath_of_not_resolved hw fun pa frame heq => ho ⟨pa, frame, heq⟩]
      rfl
    · rintro ⟨pa, frame, rfl⟩ v hv
      obtain ⟨⟨-, hframe, -⟩, -⟩ := walk_resolved_pair hw
      have htlb : t.tlb = s.tlb := (walk_same (congrArg Run.state? hw)).tlb
      rw [tlbMissPath_of_resolved hw (htlb ▸ hv.hasVictim)]
      refine ⟨_, rfl, ?_⟩
      rw [htlb, ← hframe]
      exact Tlb.replaced_insert hv _ _
  · cases hr
    rw [ne_eq, statusField_eq_zero_iff, tlbMissPath_of_fatal hw]
    refine ⟨fun _ => ?_, fun hok => absurd hok c.status_ne_ok⟩
    rw [word_or_miss { status := c.status }]
    rfl

/-! ## The two paths (R172) -/

/-- The direct path reports no marker. -/
theorem exec_direct_rsp {s u : State} {a : Word} {write : Bool} (h : exec (accessCommand write a false) s = .next u) :
    ∃ r : Reply, u.rsp = some (Reply.word { r with marker := .none }) := by
  rcases exec_direct_eq_next h with ⟨-, rfl⟩ | ⟨-, ⟨o, t, -, rfl⟩ | ⟨c, t, -, rfl⟩⟩
  · exact ⟨{ status := .halted }, rfl⟩
  · exact ⟨o.reply .none, by rw [o.reply_with_marker, answer_rsp]⟩
  · exact ⟨{ status := c.status }, rfl⟩

/-- Settles O48: a coherent hit caches the frame that the direct path reads, and a miss is the direct path. -/
theorem tlbPathAgreesWithDirectPath : Obligations.TlbPathAgreesWithDirectPath := by
  unfold Obligations.TlbPathAgreesWithDirectPath
  intro s u a w hcoherent hranked hne h
  obtain ⟨r, hr⟩ := exec_direct_rsp h
  cases hlatch : s.fatal with
  | true =>
    rw [exec_accessCommand, command_halted hlatch] at h ⊢
    cases h
    exact ⟨_, _, _, rfl, rfl, rfl, rfl, rfl, rfl, rfl, word_without_marker { status := .halted }⟩
  | false =>
  rcases s.tlb.lacks_or_firstHit (keyOf a) with hlacks | ⟨i, e, hhit⟩
  · obtain ⟨hother, hresolved⟩ := tlbPathMiss s u a w _ hlatch hlacks h hr
    rw [word_or_miss] at hother hresolved
    have hword : Reply.word { r with marker := .miss } &&& ~~~0x0C00000000000000#64 =
      Reply.word { r with marker := .none } := word_without_marker _
    by_cases hok : (Reply.word { r with marker := .none }).extractLsb' 60 4 = 0#4
    · obtain ⟨t, hexec, -⟩ := hresolved hok _ (hranked.victimAt (List.length_pos_iff.mpr hne))
      exact ⟨_, _, _, hexec, rfl, rfl, rfl, rfl, hr, rfl, hword⟩
    · exact ⟨_, _, _, hother hok, rfl, rfl, rfl, rfl, hr, rfl, hword⟩
  · obtain ⟨he, hvalid, hkey, -⟩ := id hhit
    have hres := hcoherent e (List.mem_of_getElem? he) hvalid
    rw [hkey, keySegment_keyOf, keyPage_keyOf] at hres
    rw [exec_direct_of_resolvesTo hlatch hres] at h
    cases h
    refine ⟨_, _, _, exec_hit hlatch hhit, rfl, rfl, rfl, rfl, rfl, rfl, ?_⟩
    rw [← word_hit, word_without_marker]

end Sys2Proof.Machine
end

section
/-! Every command is answered (43_translation_sequencer.md R177, 30_encoding.md R94). A walk is allowed enough passes
and a miss has its victim, in every state that the invariant admits; no other part of a command can stop the model, and
none touches the inputs. -/

namespace Sys2Proof.Machine

/-! ## Runs that come to an end -/

/-- The run ends, normally or by a fatal failure, and `P` holds where it does. -/
inductive Run.Reaches {α : Type} (P : State → Prop) : Run α → Prop
  | ok {a t} (h : P t) : Reaches P (.ok a t)
  | fatal {c m t} (h : P t) : Reaches P (.fatal c m t)

section
variable {α β : Type} {P : State → Prop}

theorem Run.EndsIn.reaches {r : Run α} (h : r.EndsIn P) (hfault : ∀ f, r ≠ .fault f) : r.Reaches P := by
  cases r with
  | ok a t => exact .ok (h t rfl)
  | fatal c m t => exact .fatal (h t rfl)
  | fault f => exact absurd rfl (hfault f)

theorem andThen_reaches {r : Run α} {k : α → State → Run β} (hr : r.Reaches P)
    (hk : ∀ a t, P t → (k a t).Reaches P) : (r.andThen k).Reaches P := by
  cases hr with
  | ok h => exact hk _ _ h
  | fatal h => exact .fatal h

theorem marked_reaches {mk : Marker} {r : Run α} (hr : r.Reaches P) : (r.marked mk).Reaches P := by
  cases hr with
  | ok h => exact .ok h
  | fatal h => exact .fatal h

end

/-! ## The states in which every command is answered -/

/-- What a command needs to come to an end, and the inputs it leaves to the commands after it. -/
structure State.Serves (rest : List HostEvent) (s : State) : Prop where
  /-- Enough for a walk (43_translation_sequencer.md R170). -/
  rows : s.bm.length ≤ 65536
  /-- Enough for a miss (42_tlb.md R150). -/
  ranked : s.tlb.ranked
  capacity : 0 < s.tlb.length
  inputs : s.inputs = rest

section
variable {rest : List HostEvent} {s : State} (hs : s.Serves rest)
include hs

theorem State.Serves.with_pm (m : Memory) : State.Serves rest { s with pm := m } :=
  ⟨hs.rows, hs.ranked, hs.capacity, hs.inputs⟩

theorem State.Serves.with_bm {b : Bitmap} (h : b.length = s.bm.length) : State.Serves rest { s with bm := b } :=
  ⟨h.trans_le hs.rows, hs.ranked, hs.capacity, hs.inputs⟩

theorem State.Serves.with_tlb {t : Tlb} (hranked : t.ranked) (h : t.length = s.tlb.length) :
    State.Serves rest { s with tlb := t } :=
  ⟨hs.rows, hranked, hs.capacity.trans_eq h.symm, hs.inputs⟩

/-! ## The shared operations -/

theorem memRead_reaches {i : Int} : (memRead i s).Reaches (State.Serves rest) := by
  cases hi : inPm i with
  | true => rw [memRead_in hi]; exact .ok hs
  | false => rw [memRead_out hi]; exact .fatal hs

theorem memWrite_reaches {i : Int} {v : Word} : (memWrite i v s).Reaches (State.Serves rest) := by
  cases hi : inPm i with
  | true => rw [memWrite_in hi]; exact .ok (hs.with_pm _)
  | false => rw [memWrite_out hi]; exact .fatal hs

theorem bitmapSet_reaches {row col : Nat} {v : Bool} : (bitmapSet row col v s).Reaches (State.Serves rest) := by
  rw [bitmapSet_eq]
  split
  · exact .ok (hs.with_bm (Bitmap.length_put ..))
  · exact .fatal hs

theorem mark_reaches {f : Nat} : (mark f s).Reaches (State.Serves rest) := bitmapSet_reaches hs

theorem findFirstZero_reaches : (findFirstZero s).Reaches (State.Serves rest) := by
  cases hf : s.bm.findFirstZero with
  | some n => rw [findFirstZero_some hf]; exact .ok hs
  | none => rw [findFirstZero_none hf]; exact .fatal hs

theorem findConsecutiveZeros_reaches : (findConsecutiveZeros s).Reaches (State.Serves rest) := by
  cases hf : s.bm.findConsecutiveZeros with
  | some n => rw [findConsecutiveZeros_some hf]; exact .ok hs
  | none => rw [findConsecutiveZeros_none hf]; exact .fatal hs

theorem doHit_reaches {i : Nat} {e : TlbEntry} (he : s.tlb[i]? = some e) :
    (doHit i e s).Reaches (State.Serves rest) :=
  .ok (hs.with_tlb (hs.ranked.promote he) (Tlb.length_promote ..))

/-- With the counters a permutation a miss has its victim. -/
theorem doMiss_reaches {k : Key} {frame : Word} : (doMiss k frame s).Reaches (State.Serves rest) := by
  rw [doMiss_eq, if_pos (hs.ranked.victimAt hs.capacity).hasVictim]
  exact .ok (hs.with_tlb (hs.ranked.insert k frame) (Tlb.length_insert ..))

theorem walk_reaches {a : Word} {write : Bool} : (walk a write s).Reaches (State.Serves rest) := by
  refine Run.EndsIn.reaches (fun t ht => ?_) (walk_ne_fault hs.rows)
  have hsame := walk_same ht
  exact ⟨hsame.rows ▸ hs.rows, hsame.tlb ▸ hs.ranked, hsame.tlb ▸ hs.capacity, hsame.inputs.trans hs.inputs⟩

theorem cacheIfResolved_reaches {k : Key} {o : WalkEnd} : (cacheIfResolved k o s).Reaches (State.Serves rest) := by
  cases o with
  | pageFault => exact .ok hs
  | error => exact .ok hs
  | resolved pa frame => exact doMiss_reaches hs

theorem tlbMissPath_reaches {a : Word} {write : Bool} : (tlbMissPath a write s).Reaches (State.Serves rest) :=
  marked_reaches <| andThen_reaches (walk_reaches hs) fun _ _ hu =>
    andThen_reaches (cacheIfResolved_reaches hu) fun _ _ hv => .ok hv

theorem access_reaches {a : Word} {write useTlb : Bool} : (access a write useTlb s).Reaches (State.Serves rest) := by
  unfold access
  split
  · unfold tlbPath
    split
    · exact tlbMissPath_reaches hs
    split
    · exact tlbMissPath_reaches hs
    · next he => exact andThen_reaches (doHit_reaches hs he) fun _ _ hu => .ok hu
  · exact andThen_reaches (walk_reaches hs) fun _ _ hu => .ok hu

/-! ## Every command -/

omit hs in
/-- A run that ends is answered, and answering leaves the inputs. -/
theorem finish_answers {r : Run Reply} (hr : r.Reaches (State.Serves rest)) :
    ∃ t, finish r = .next t ∧ t.rsp.isSome = true ∧ t.inputs = rest := by
  cases hr with
  | ok h => exact ⟨_, rfl, rfl, h.inputs⟩
  | fatal h => exact ⟨_, rfl, rfl, h.inputs⟩

theorem command_answers {body : State → Run Reply} (hbody : (body s).Reaches (State.Serves rest)) :
    ∃ t, command body s = .next t ∧ t.rsp.isSome = true ∧ t.inputs = rest := by
  cases hlatch : s.fatal with
  | true => exact ⟨_, command_halted hlatch, rfl, hs.inputs⟩
  | false =>
    rw [command_running hlatch]
    exact finish_answers hbody

theorem exec_answers (i : Instr) : ∃ t, exec i s = .next t ∧ t.rsp.isSome = true ∧ t.inputs = rest := by
  cases i <;> dsimp only [exec]
  case vaDecode a => exact ⟨_, rfl, rfl, hs.inputs⟩
  case bmFfz => exact command_answers hs (andThen_reaches (findFirstZero_reaches hs) fun _ _ hu => .ok hu)
  case bmFcz => exact command_answers hs (andThen_reaches (findConsecutiveZeros_reaches hs) fun _ _ hu => .ok hu)
  case bmSet row col val => exact command_answers hs (andThen_reaches (bitmapSet_reaches hs) fun _ _ hu => .ok hu)
  case bmClear =>
    refine command_answers hs ?_
    exact .ok (hs.with_bm (Bitmap.length_clear _))
  case tlbHitIdx key =>
    refine command_answers hs ?_
    split
    · exact .ok hs
    · exact .ok hs
  case tlbDoHit key idx =>
    refine command_answers hs ?_
    split
    · exact .ok hs
    next he =>
    split
    · exact andThen_reaches (doHit_reaches hs he) fun _ _ hu => .ok hu
    · exact .ok hs
  case tlbDoMiss key frame => exact command_answers hs (andThen_reaches (doMiss_reaches hs) fun _ _ hu => .ok hu)
  case tlbReset =>
    refine command_answers hs ?_
    exact .ok (hs.with_tlb (Tlb.ranked_fresh _) (Tlb.length_reset _))
  case vmCreatePt seg addr =>
    refine command_answers hs (andThen_reaches (memWrite_reaches hs) fun _ _ hu => ?_)
    split
    · exact andThen_reaches (mark_reaches hu) fun _ _ hv => andThen_reaches (mark_reaches hv) fun _ _ hw => .ok hw
    · exact .ok hu
  case vmCreatePage page seg addr =>
    refine command_answers hs (andThen_reaches (memRead_reaches hs) fun _ _ hu =>
      andThen_reaches (memWrite_reaches hu) fun _ _ hv => ?_)
    split
    · exact andThen_reaches (mark_reaches hv) fun _ _ hw => .ok hw
    · exact .ok hv
  case vmGetPt seg page =>
    exact command_answers hs (andThen_reaches (memRead_reaches hs) fun _ _ hu =>
      andThen_reaches (memRead_reaches hu) fun _ _ hv => .ok hv)
  case vmRead a useTlb => exact command_answers hs (access_reaches hs)
  case vmWrite a useTlb => exact command_answers hs (access_reaches hs)
  case vmClear =>
    refine command_answers hs ?_
    exact .ok ((hs.with_pm _).with_bm (Bitmap.length_clear _))

end

/-! ## Every step -/

/-- The invariant admits what every command needs. -/
theorem State.Inv.serves {s : State} (hs : s.Inv) (rest : List HostEvent) : (takeInput rest s).Serves rest := by
  obtain ⟨-, hrows, hcap, -⟩ := hs.config
  exact ⟨hrows, hs.ranked, hcap, rfl⟩

theorem step_answers {s : State} {cw : CommandWord} {rest : List HostEvent} (hs : s.Inv)
    (hinputs : s.inputs = .command cw :: rest) :
    ∃ t, step s = .next t ∧ t.rsp.isSome = true ∧ t.inputs = rest := by
  cases hdecode : decode cw with
  | command i =>
    rw [step_command hinputs hdecode]
    exact exec_answers (hs.serves rest) i
  | illegal why => exact ⟨answerIllegal (takeInput rest s), by simp only [step, hinputs, hdecode], rfl, rfl⟩

/-- Settles O56: the invariant rules out both faults, and a RESET or an idle step has its next state by definition. -/
theorem everyCommandIsAnswered : Obligations.EveryCommandIsAnswered := by
  unfold Obligations.EveryCommandIsAnswered
  refine fun s hs => ⟨?_, fun cw rest hinputs => step_answers hs hinputs⟩
  cases hinputs : s.inputs with
  | nil => exact ⟨s, by simp only [step, hinputs]⟩
  | cons event rest =>
    cases event with
    | reset => exact ⟨takeReset rest s, by simp only [step, hinputs]⟩
    | command cw =>
      obtain ⟨t, hstep, -⟩ := step_answers hs hinputs
      exact ⟨t, hstep⟩

end Sys2Proof.Machine
end

section
/-! The ends of a command other than OK (60_exceptions.md). What stands before a command's own effect: an illegal word
is refused by the step (R196), any command but VA_DECODE while the latch is set (R198, R205), and RESET leaves the
fatal state (R206). Then the statuses each command can end with (R200), and the refusals and failures of TLB_DOHIT
and of a direct access (R191 to R195, R197). -/

namespace Sys2Proof.Machine

/-! ## Illegal words and RESET (R196, R206) -/

theorem decode_of_not_wellFormedWord {cw : CommandWord} (h : ¬ wellFormedWord cw) :
    ∃ why, decode cw = .illegal why := by
  cases hdecode : decode cw with
  | command i => exact absurd ((decoderAcceptsTheTablesWords.1 cw).mp ⟨i, hdecode⟩) h
  | illegal why => exact ⟨why, rfl⟩

theorem step_illegal {s : State} {cw : CommandWord} {rest : List HostEvent} {why : Illegal}
    (hinputs : s.inputs = .command cw :: rest) (hdecode : decode cw = .illegal why) :
    step s = .next (answerIllegal (takeInput rest s)) := by
  simp only [step, hinputs, hdecode]

/-- Settles O8: the decoder refuses the word, and the step answers before it looks at the latch. -/
theorem illegalWordIsRefused : Obligations.IllegalWordIsRefused := by
  unfold Obligations.IllegalWordIsRefused
  intro s cw rest hinputs h
  obtain ⟨why, hdecode⟩ := decode_of_not_wellFormedWord h
  rw [step_illegal hinputs hdecode]
  rfl

theorem step_reset {s : State} {rest : List HostEvent} (hinputs : s.inputs = .reset :: rest) :
    step s = .next (takeReset rest s) := by
  simp only [step, hinputs]

/-- Settles O52: the reset state is built from the configuration alone, whatever else the state holds. -/
theorem resetInputResets : Obligations.ResetInputResets := fun _ _ hinputs => step_reset hinputs

/-! ## While the latch is set (R198, R205) -/

section
variable {i : Instr} {s : State}

/-- VA_DECODE alone is carried out without a look at the latch. -/
theorem exec_halted (hlatch : s.fatal = true) (hi : ∀ a, i ≠ .vaDecode a) :
    exec i s = .next (answer { status := .halted } s) := by
  cases i with
  | vaDecode a => exact absurd rfl (hi a)
  | _ =>
    simp only [exec, execBmFfz, execBmFcz, execBmSet, execBmClear, execTlbHitIdx, execTlbDoHit, execTlbDoMiss,
      execTlbReset, execVmCreatePt, execVmCreatePage, execVmGetPt, execVmRead, execVmWrite, execVmClear,
      command_halted hlatch]

/-- A command in the fatal state changes the response alone. -/
theorem exec_of_fatal (i : Instr) (hlatch : s.fatal = true) :
    ∃ rep : Reply, exec i s = .next (answer rep s) ∧ (rep.status = .ok ∨ rep.status = .halted) := by
  by_cases hi : ∃ a, i = .vaDecode a
  · obtain ⟨a, rfl⟩ := hi
    exact ⟨{ status := .ok, data := undiscarded a }, rfl, .inl rfl⟩
  · exact ⟨{ status := .halted }, exec_halted hlatch (not_exists.mp hi), .inr rfl⟩

end

/-- Settles O9: the latch is tested before the command's own pseudocode. -/
theorem haltedRefusal : Obligations.HaltedRefusal := fun _ _ => exec_halted

/-- Settles O10: a word, legal or not, changes only the response and the inputs, and RESET is shut out. -/
theorem fatalStateIsFrozen : Obligations.FatalStateIsFrozen := by
  unfold Obligations.FatalStateIsFrozen
  intro s t hlatch hreset h
  rcases step_eq_next h with rfl | ⟨rest, hinputs, rfl⟩ | ⟨cw, rest, -, ⟨i, -, hexec⟩ | ⟨why, -, rfl⟩⟩
  · exact ⟨rfl, rfl, rfl, hlatch, rfl⟩
  · exact absurd (congrArg List.head? hinputs) hreset
  · obtain ⟨rep, hanswer, -⟩ := exec_of_fatal (s := takeInput rest s) i hlatch
    cases hanswer.symm.trans hexec
    exact ⟨rfl, rfl, rfl, hlatch, rfl⟩
  · exact ⟨rfl, rfl, rfl, hlatch, rfl⟩

/-! ## The statuses a run can end with (R200) -/

/-- The run ends with a value that satisfies `Q`, or by a fatal failure whose status is in `L`, or stops the model. -/
inductive Run.EndsAs {α : Type} (Q : α → Prop) (L : List Status) : Run α → Prop
  | ok {a t} (h : Q a) : EndsAs Q L (.ok a t)
  | fatal {c m t} (h : c.status ∈ L) : EndsAs Q L (.fatal c m t)
  | fault {f} : EndsAs Q L (.fault f)

/-- The command that this run is the pseudocode of ends with a status in `L`. -/
abbrev Run.Answers (L : List Status) (r : Run Reply) : Prop := r.EndsAs (fun rep => rep.status ∈ L) L

section
variable {α β : Type} {Q : α → Prop} {Q' : β → Prop} {L : List Status} {s : State}

theorem andThen_endsAs {r : Run α} {k : α → State → Run β} (hr : r.EndsAs Q L)
    (hk : ∀ a t, Q a → (k a t).EndsAs Q' L) : (r.andThen k).EndsAs Q' L := by
  cases hr with
  | ok h => exact hk _ _ h
  | fatal h => exact .fatal h
  | fault => exact .fault

theorem marked_endsAs {mk : Marker} {r : Run α} (hr : r.EndsAs Q L) : (r.marked mk).EndsAs Q L := by
  cases hr with
  | ok h => exact .ok h
  | fatal h => exact .fatal h
  | fault => exact .fault

/-- Every row of R200 begins with OK. -/
theorem answers_ok {m : Marker} {d : Word} : (Run.ok { status := .ok, marker := m, data := d } s).Answers (.ok :: L) :=
  .ok List.mem_cons_self

theorem finish_status {r : Run Reply} {t : State} (hr : r.Answers L) (h : finish r = .next t) :
    ∃ rep : Reply, t.rsp = some rep.word ∧ rep.status ∈ L := by
  cases hr with
  | ok hst => cases h; exact ⟨_, rfl, hst⟩
  | fatal hst => cases h; exact ⟨_, rfl, hst⟩
  | fault => cases h

theorem command_status {body : State → Run Reply} {t : State} (hlatch : s.fatal = false)
    (hbody : (body s).Answers L) (h : command body s = .next t) :
    ∃ rep : Reply, t.rsp = some rep.word ∧ rep.status ∈ L := by
  rw [command_running hlatch] at h
  exact finish_status hbody h

/-! ### The shared operations -/

theorem memRead_endsAs {i : Int} (h : .fPmRange ∈ L) : (memRead i s).EndsAs (fun _ => True) L := by
  cases hi : inPm i with
  | true => rw [memRead_in hi]; exact .ok trivial
  | false => rw [memRead_out hi]; exact .fatal h

theorem memWrite_endsAs {i : Int} {v : Word} (h : .fPmRange ∈ L) : (memWrite i v s).EndsAs (fun _ => True) L := by
  cases hi : inPm i with
  | true => rw [memWrite_in hi]; exact .ok trivial
  | false => rw [memWrite_out hi]; exact .fatal h

theorem bitmapSet_endsAs {row col : Nat} {v : Bool} (h : .fBmRange ∈ L) :
    (bitmapSet row col v s).EndsAs (fun _ => True) L := by
  rw [bitmapSet_eq]
  split
  · exact .ok trivial
  · exact .fatal h

theorem mark_endsAs {f : Nat} (h : .fBmRange ∈ L) : (mark f s).EndsAs (fun _ => True) L := bitmapSet_endsAs h

theorem findFirstZero_endsAs (h : .fAlloc ∈ L) : (findFirstZero s).EndsAs (fun _ => True) L := by
  cases hf : s.bm.findFirstZero with
  | some n => rw [findFirstZero_some hf]; exact .ok trivial
  | none => rw [findFirstZero_none hf]; exact .fatal h

theorem findConsecutiveZeros_endsAs (h : .fAlloc ∈ L) : (findConsecutiveZeros s).EndsAs (fun _ => True) L := by
  cases hf : s.bm.findConsecutiveZeros with
  | some n => rw [findConsecutiveZeros_some hf]; exact .ok trivial
  | none => rw [findConsecutiveZeros_none hf]; exact .fatal h

theorem doMiss_endsAs {k : Key} {frame : Word} : (doMiss k frame s).EndsAs (fun _ => True) L := by
  rw [doMiss_eq]
  split
  · exact .ok trivial
  · exact .fault

theorem cacheIfResolved_endsAs {k : Key} {o : WalkEnd} : (cacheIfResolved k o s).EndsAs (fun _ => True) L := by
  cases o with
  | pageFault => exact .ok trivial
  | error => exact .ok trivial
  | resolved pa frame => exact doMiss_endsAs

end

/-! ### Accesses -/

/-- The rows of VM_READ and VM_WRITE: where a read ends with ERR, a write allocates, which can fail. -/
def accessStatuses (write : Bool) : List Status := [.ok, .pf, if write then .fAlloc else .err, .fPmRange]

theorem allowedStatuses_accessCommand (write : Bool) (a : Word) (t : Bool) :
    allowedStatuses (accessCommand write a t) = accessStatuses write := by
  cases write with
  | false => rfl
  | true => rfl

/-- What both accesses can end with. -/
theorem mem_accessStatuses (write : Bool) :
    .ok ∈ accessStatuses write ∧ .pf ∈ accessStatuses write ∧ .fPmRange ∈ accessStatuses write := by
  cases write with
  | false => decide
  | true => decide

section
variable {seg : BitVec 9} {page : BitVec 10} {off : BitVec 9} {passes : Nat}
  {write useTlb : Bool} {a : Word} {s : State}

/-- An allocation fails only for want of a free frame. -/
theorem State.Allocates.endsAs {r : Run Unit} (hr : s.Allocates seg page r) :
    r.EndsAs (fun _ => True) (accessStatuses true) := by
  obtain rfl | ⟨t, rfl, -⟩ := hr.ends
  · exact .fatal (by decide)
  · exact .ok trivial

/-- A pass ends a read where it would allocate for a write. -/
theorem walkPasses_endsAs : (walkPasses passes seg page off write s).EndsAs
    (fun o => ∀ m, (o.reply m).status ∈ accessStatuses write) (accessStatuses write) := by
  obtain ⟨hok, hpf, hrange⟩ := mem_accessStatuses write
  induction passes generalizing s with
  | zero => exact .fault
  | succ passes ih =>
    rcases s.pairIs seg page with h | h | ⟨hbacked, h⟩ | ⟨hread, h⟩ | ⟨hread, h⟩ | h
    case invalidSegment => rw [walkPasses_of_invalid_segment h]; exact .ok fun _ => hpf
    case outOfRange => rw [walkPasses_of_outOfRange hbacked h]; exact .fatal hrange
    case invalidPage => rw [walkPasses_of_invalid_page hread h]; exact .ok fun _ => hpf
    case resolved => rw [walkPasses_of_resolvesTo h]; exact .ok fun _ => hok
    case unbackedSegment =>
      cases write with
      | false =>
        rw [walkPasses_of_unbacked_segment h]
        exact .ok fun _ => (by decide : .err ∈ accessStatuses false)
      | true =>
        have halloc := State.Allocates.table (page := page) h
        rw [halloc.walkPasses_eq]
        exact andThen_endsAs halloc.endsAs fun _ _ _ => ih
    case unbackedPage =>
      cases write with
      | false =>
        rw [walkPasses_of_unbacked_page hread h]
        exact .ok fun _ => (by decide : .err ∈ accessStatuses false)
      | true =>
        have halloc := State.Allocates.page hread h
        rw [halloc.walkPasses_eq]
        exact andThen_endsAs halloc.endsAs fun _ _ _ => ih

theorem walk_endsAs : (walk a write s).EndsAs
    (fun o => ∀ m, (o.reply m).status ∈ accessStatuses write) (accessStatuses write) := walkPasses_endsAs

theorem tlbMissPath_answers : (tlbMissPath a write s).Answers (accessStatuses write) :=
  marked_endsAs <| andThen_endsAs walk_endsAs fun _ _ ho =>
    andThen_endsAs cacheIfResolved_endsAs fun _ _ _ => .ok (ho _)

theorem access_answers : (access a write useTlb s).Answers (accessStatuses write) := by
  unfold access
  split
  · unfold tlbPath
    split
    · exact tlbMissPath_answers
    split
    · exact tlbMissPath_answers
    · exact answers_ok
  · exact andThen_endsAs walk_endsAs fun _ _ ho => .ok (ho _)

end

/-- Settles O11: the row of a command lists OK and the failures of the shared operations its pseudocode is made of. -/
theorem statusTable : Obligations.StatusTable := by
  unfold Obligations.StatusTable
  intro i s t hlatch h
  cases i <;> dsimp only [exec] at h
  case vaDecode a => exact finish_status (L := [.ok]) answers_ok h
  case bmFfz =>
    exact command_status (L := [.ok, .fAlloc]) hlatch
      (andThen_endsAs (findFirstZero_endsAs (by decide)) fun _ _ _ => answers_ok) h
  case bmFcz =>
    exact command_status (L := [.ok, .fAlloc]) hlatch
      (andThen_endsAs (findConsecutiveZeros_endsAs (by decide)) fun _ _ _ => answers_ok) h
  case bmSet row col val =>
    exact command_status (L := [.ok, .fBmRange]) hlatch
      (andThen_endsAs (bitmapSet_endsAs (by decide)) fun _ _ _ => answers_ok) h
  case bmClear =>
    refine command_status (L := [.ok]) hlatch ?_ h
    exact answers_ok
  case tlbHitIdx key =>
    refine command_status (L := [.ok, .absent]) hlatch ?_ h
    split
    · exact answers_ok
    · exact .ok (by decide)
  case tlbDoHit key idx =>
    refine command_status (L := [.ok, .badHit]) hlatch ?_ h
    split
    · exact .ok (by decide)
    split
    · exact answers_ok
    · exact .ok (by decide)
  case tlbDoMiss key frame =>
    exact command_status (L := [.ok]) hlatch (andThen_endsAs doMiss_endsAs fun _ _ _ => answers_ok) h
  case tlbReset =>
    refine command_status (L := [.ok]) hlatch ?_ h
    exact answers_ok
  case vmCreatePt seg addr =>
    refine command_status (L := [.ok, .fBmRange]) hlatch ?_ h
    rw [memWrite_segment, andThen_ok]
    split
    · exact andThen_endsAs (mark_endsAs (by decide)) fun _ _ _ =>
        andThen_endsAs (mark_endsAs (by decide)) fun _ _ _ => answers_ok
    · exact answers_ok
  case vmCreatePage page seg addr =>
    refine command_status (L := [.ok, .fPmRange, .fBmRange]) hlatch
      (andThen_endsAs (memRead_endsAs (by decide)) fun _ _ _ =>
        andThen_endsAs (memWrite_endsAs (by decide)) fun _ _ _ => ?_) h
    split
    · exact andThen_endsAs (mark_endsAs (by decide)) fun _ _ _ => answers_ok
    · exact answers_ok
  case vmGetPt seg page =>
    exact command_status (L := [.ok, .fPmRange]) hlatch (andThen_endsAs (memRead_endsAs (by decide)) fun _ _ _ =>
      andThen_endsAs (memRead_endsAs (by decide)) fun _ _ _ => answers_ok) h
  case vmRead a useTlb =>
    exact command_status hlatch (allowedStatuses_accessCommand false a useTlb ▸ access_answers) h
  case vmWrite a useTlb =>
    exact command_status hlatch (allowedStatuses_accessCommand true a useTlb ▸ access_answers) h
  case vmClear =>
    refine command_status (L := [.ok]) hlatch ?_ h
    exact answers_ok

/-! ## BADHIT (R197) -/

theorem Status.code_eq_badHit_iff {st : Status} : st.code = 0xD#4 ↔ st = .badHit := by cases st <;> decide

theorem eq_tlbDoHit_of_badHit {i : Instr} (h : .badHit ∈ allowedStatuses i) : ∃ key idx, i = .tlbDoHit key idx := by
  cases i with
  | tlbDoHit key idx => exact ⟨key, idx, rfl⟩
  | _ => simp [allowedStatuses] at h

/-- Settles O25: the addressed entry does not hold the key; and BADHIT stands in one row of the status table. -/
theorem tlbDoHitRefused : Obligations.TlbDoHitRefused := by
  unfold Obligations.TlbDoHitRefused
  refine ⟨fun s key idx hlatch hcause => ?refused, fun i s t r h hr hbad => ?only⟩
  case refused =>
    rcases hcause with hout | ⟨e, he, hother⟩
    · exact exec_tlbDoHit_refused hlatch fun e he => by simp [List.getElem?_eq_none hout] at he
    · exact (tlbDoHitResult.2 s key idx hlatch).2 fun e' he' => Option.some.inj (he'.symm.trans he) ▸ hother
  case only =>
    have hstatus {rep : Reply} (hrep : t.rsp = some rep.word) : rep.status = .badHit := by
      rw [← Status.code_eq_badHit_iff, ← rspStatus_word, rspStatus, ← Option.some.inj (hr.symm.trans hrep), hbad]
    cases hlatch : s.fatal with
    | true =>
      obtain ⟨rep, hanswer, hst⟩ := exec_of_fatal i hlatch
      cases hanswer.symm.trans h
      simp [hstatus (answer_rsp rep s)] at hst
    | false =>
      obtain ⟨rep, hrep, hst⟩ := statusTable i s t hlatch h
      exact eq_tlbDoHit_of_badHit (hstatus hrep ▸ hst)

/-! ## The failures of a direct access (R191 to R193, R195) -/

theorem exec_direct_of_fatal {s t : State} {a : Word} {write : Bool} {c : FatalCode} {m : Marker}
    (hlatch : s.fatal = false) (h : walk a write s = .fatal c m t) :
    exec (accessCommand write a false) s = .next (takeFatal c m t) := by
  rw [exec_accessCommand, command_eq_takeFatal hlatch (by rw [access_direct, h, andThen_fatal])]

/-- Settles O35: the pass that meets −1 ends the walk. -/
theorem directAccessPageFault : Obligations.DirectAccessPageFault := by
  unfold Obligations.DirectAccessPageFault
  intro s a w hlatch hcause
  have hwalk : walk a w s = .ok .pageFault s := by
    rcases hcause with h | ⟨hread, h⟩
    · exact walkPasses_of_invalid_segment h
    · exact walkPasses_of_invalid_page hread h
  rw [exec_direct_of_ok hlatch hwalk]
  rfl

/-- Settles O36: a read's pass that meets 0 ends the walk. -/
theorem directReadUnbacked : Obligations.DirectReadUnbacked := by
  unfold Obligations.DirectReadUnbacked
  intro s a hlatch hcause
  have hwalk : walk a false s = .ok .error s := by
    rcases hcause with h | ⟨hread, h⟩
    · exact walkPasses_of_unbacked_segment (s32_eq_zero.mp h)
    · exact walkPasses_of_unbacked_page hread (s32_eq_zero.mp h)
  exact exec_direct_of_ok (write := false) hlatch hwalk

/-- Settles O37: the read of the page entry fails in the first pass. -/
theorem directAccessOutOfRange : Obligations.DirectAccessOutOfRange := by
  unfold Obligations.DirectAccessOutOfRange
  intro s a w hlatch hbacked hout
  have hwalk : walk a w s = .fatal .pmRange .none s :=
    walkPasses_of_outOfRange hbacked (inPm_eq_false_iff.mpr hout)
  rw [exec_direct_of_fatal hlatch hwalk, takeFatal_none]
  rfl

/-! ## A write that finds no free frame (R193, R204) -/

section
variable {s : State} {seg : BitVec 9} {page : BitVec 10} {a : Word} {n : Nat}

/-- An allocation that fails ends the write. -/
theorem exec_vmWrite_of_allocates_fatal (hlatch : s.fatal = false)
    (h : s.Allocates (segmentOf a) (pageOf a) (.fatal .alloc .none s)) :
    exec (.vmWrite a false) s = .next (takeFatal .alloc .none s) := by
  have hwalk : walk a true s = .fatal .alloc .none s := h.walkPasses_eq
  exact exec_direct_of_fatal (write := true) hlatch hwalk

theorem exec_vmWrite_noPair (hlatch : s.fatal = false) (h : s.segEntry (segmentOf a) = 0#32) (hnone : s.bm.noPair) :
    exec (.vmWrite a false) s = .next (takeFatal .alloc .none s) := by
  refine exec_vmWrite_of_allocates_fatal hlatch ?_
  rw [← allocTable_none (Bitmap.findConsecutiveZeros_of_noPair hnone)]
  exact .table h

theorem exec_vmWrite_full (hlatch : s.fatal = false) (hread : s.pageReadable (segmentOf a) (pageOf a))
    (h : s.pageEntry (segmentOf a) (pageOf a) = 0#32) (hfull : s.bm.full) :
    exec (.vmWrite a false) s = .next (takeFatal .alloc .none s) := by
  refine exec_vmWrite_of_allocates_fatal hlatch ?_
  rw [← allocPage_none (Bitmap.findFirstZero_of_full hfull)]
  exact .page hread h

theorem State.withTable_pageReadable (hrows : s.bm.length ≤ 65536) (hge : 1 ≤ n) (hn : n < s.bm.bits)
    (hindex : frameSize * n + page.toNat < pmSize) : (s.withTable seg n).pageReadable seg page := by
  rw [State.pageReadable, State.tableBacked, State.withTable_segEntry, State.withTable_pageIndex hrows hn]
  exact ⟨s32_frameBase_ne hrows hge hn, Int.natCast_nonneg _, Int.ofNat_lt.mpr hindex⟩

/-- The table's frames lie above the segment entries, so recording the table leaves its page entries. -/
theorem State.withTable_pageEntry (hrows : s.bm.length ≤ 65536) (hge : 1 ≤ n) (hn : n < s.bm.bits) :
    (s.withTable seg n).pageEntry seg page = s.pm.read (frameSize * n + page.toNat) := by
  have hother : frameSize * n + page.toNat ≠ seg.toNat := by
    have hseg := seg.isLt
    simp only [frameSize]
    omega
  rw [State.pageEntry, State.withTable_pageIndex hrows hn, Int.toNat_natCast, State.withTable_pm, if_neg hother]

end

/-- Settles O41: the allocation that fails changes nothing; where it is the page's, the table's before it stands. -/
theorem writeExhausted : Obligations.WriteExhausted := by
  unfold Obligations.WriteExhausted
  refine fun s a hlatch hrows =>
    ⟨exec_vmWrite_noPair hlatch, exec_vmWrite_full hlatch, fun n h hfree hindex hpt hlast => ?_⟩
  obtain ⟨hge, hlt, -⟩ := id hfree
  have hn : n < s.bm.bits := Nat.lt_of_succ_lt hlt
  have hmark := State.withTable_bm (seg := segmentOf a) hfree
  have hfull : (s.withTable (segmentOf a) n).bm.full := fun j hj h1 => by
    simpa [hmark.2] using hlast j (hmark.bits_eq ▸ hj) h1
  refine ⟨_, _, ?_, s.withTable_pm _ n, hmark⟩
  rw [exec_vmWrite_newTable hlatch hrows h hfree]
  exact exec_vmWrite_full hlatch (State.withTable_pageReadable hrows hge hn hindex)
    ((State.withTable_pageEntry hrows hge hn).trans hpt) hfull

end Sys2Proof.Machine
end

section
/-! Reset, and the well-formed preload (70_reset_and_hazards.md R220, R226, R228). Preload records a table or a page as
demand allocation does, but for the choice of the frames; where the address is −1 or 0, no owner of frames comes or
goes. -/

namespace Sys2Proof.Machine

/-! ## Recording an address that is no base (R228) -/

/-- An entry goes from `v` to `v'` without a base coming or going; `count` is the frames a base would name. -/
def SameBase (count : Nat) (v v' : Word) : Prop := v' = v ∨ (s32 v ≤ 0 ∧ s32 v' ≤ 0 ∧ preloadAddress count v')

section
variable {count : Nat} {v v' : Word}

theorem SameBase.preloadAddress (h : SameBase count v v') (hv : preloadAddress count v) : preloadAddress count v' := by
  rcases h with rfl | ⟨-, -, hv'⟩
  · exact hv
  · exact hv'

theorem SameBase.pos_and_iff (h : SameBase count v v') {p : Word → Prop} : 0 < s32 v' ∧ p v' ↔ 0 < s32 v ∧ p v := by
  rcases h with rfl | ⟨hv, hv', -⟩
  · rfl
  · simp [not_lt.mpr hv, not_lt.mpr hv']

theorem SameBase.pos_iff (h : SameBase count v v') : 0 < s32 v' ↔ 0 < s32 v := by
  simpa using h.pos_and_iff (p := fun _ => True)

end

section
variable {s t : State} {seg : BitVec 9} {page : BitVec 10} {addr : Word}

/-- Where no base comes or goes, every frame keeps its owner. -/
theorem owns_iff_of_sameBase (hsegments : ∀ seg, SameBase 2 (s.segEntry seg) (t.segEntry seg))
    (hpages : ∀ seg page, 0 < s32 (t.segEntry seg) → SameBase 1 (s.pageEntry seg page) (t.pageEntry seg page))
    (o : Owner) (f : Nat) : t.owns o f ↔ s.owns o f := by
  cases o with
  | table seg => exact (hsegments seg).pos_and_iff (p := fun v => f = frameOf v ∨ f = frameOf v + 1)
  | page seg page =>
    rw [State.owns_page, State.owns_page, ← (hsegments seg).pos_iff]
    exact and_congr_right fun hbase => (hpages seg page hbase).pos_and_iff (p := fun v => f = frameOf v)

/-- One word of a frame in use is written, and no base comes or goes. -/
theorem State.InDataModel.of_sameBase (h : s.InDataModel) {i : Nat} (hused : s.bm.cell (i / frameSize) = true)
    (hstore : storedAt s.pm t.pm i addr) (hbm : t.bm = s.bm)
    (hsegments : ∀ seg, SameBase 2 (s.segEntry seg) (t.segEntry seg))
    (hpages : ∀ seg page, 0 < s32 (t.segEntry seg) → SameBase 1 (s.pageEntry seg page) (t.pageEntry seg page)) :
    t.InDataModel := by
  have hmark : markedAt s.bm t.bm [] := ⟨congrArg List.length hbm, by simp [hbm]⟩
  refine h.add_owner (o := .table 0#9) (by simp) hused hstore hmark ?howns ?hsegments ?hpages
  case howns => simp [owns_iff_of_sameBase hsegments hpages]
  case hsegments => exact fun seg => (hsegments seg).preloadAddress (h.segments seg)
  case hpages =>
    exact fun seg page hbase =>
      (hpages seg page hbase).preloadAddress (h.pages seg page ((hsegments seg).pos_iff.mp hbase))

/-- A segment without a table is recorded as unbacked or invalid. -/
theorem State.InDataModel.record_noTable (h : s.InDataModel) (hnone : s32 (s.segEntry seg) ≤ 0)
    (haddr : preloadAddress 2 addr) (hneg : s32 addr ≤ 0) (hstore : storedAt s.pm t.pm seg.toNat addr)
    (hbm : t.bm = s.bm) : t.InDataModel := by
  have hseg := segEntry_of_storedAt_segment hstore
  have hused : s.bm.cell (seg.toNat / frameSize) = true := by
    rw [Nat.div_eq_of_lt seg.isLt, Bitmap.cell_zero]
  refine h.of_sameBase hused hstore hbm (fun seg' => ?hsegments) (fun seg' page hbase => ?hpages)
  case hsegments =>
    rw [hseg]
    split
    · next he => exact .inr ⟨he ▸ hnone, hneg, haddr⟩
    · exact .inl rfl
  case hpages =>
    have hne : seg' ≠ seg := by
      rintro rfl
      rw [hseg, if_pos rfl] at hbase
      exact absurd hbase (not_lt.mpr hneg)
    rw [hseg, if_neg hne] at hbase
    exact .inl (h.pageEntry_of_storedAt_segment hstore hne hbase page)

/-- The frame that a page entry stands in is its table's, so it is in use. -/
theorem State.InDataModel.cell_pageIndex (h : s.InDataModel) (hbase : 0 < s32 (s.segEntry seg))
    (page : BitVec 10) : s.bm.cell ((s.pageIndex seg page).toNat / frameSize) = true := by
  have hlt := ((inPm_iff _).mp (h.pageIndex_bounds hbase page).2).2
  refine (h.cell_iff ?_).mpr (.inr ⟨.table seg, h.tableFrame_pageIndex hbase page⟩)
  simp only [frameSize, nFrames, pmSize] at *
  omega

/-- A page without a frame is recorded as unbacked or invalid. -/
theorem State.InDataModel.record_noPage (h : s.InDataModel) (hbase : 0 < s32 (s.segEntry seg))
    (hnone : s32 (s.pageEntry seg page) ≤ 0) (haddr : preloadAddress 1 addr) (hneg : s32 addr ≤ 0)
    (hstore : storedAt s.pm t.pm (s.pageIndex seg page).toNat addr) (hbm : t.bm = s.bm) : t.InDataModel := by
  have hseg := h.segEntry_of_storedAt_page hbase hstore
  refine h.of_sameBase (h.cell_pageIndex hbase page) hstore hbm (fun seg' => .inl (hseg seg')) ?hpages
  case hpages =>
    intro seg' page' hbase'
    rw [hseg] at hbase'
    rw [h.pageEntry_of_storedAt_page hbase hstore hbase']
    split
    · next he =>
      obtain ⟨rfl, rfl⟩ := he
      exact .inr ⟨hnone, hneg, haddr⟩
    · exact .inl rfl

/-! ## The preload commands (43_translation_sequencer.md R160, R161) -/

/-- While the latch is set a command changes neither PM nor the bitmap, so only its own effect is left to show. -/
theorem exec_inDataModel_of_running {i : Instr} (hs : s.InDataModel) (hi : ∀ a, i ≠ .vaDecode a)
    (hrun : s.fatal = false → ∃ u, exec i s = .next u ∧ u.InDataModel) (h : exec i s = .next t) : t.InDataModel := by
  cases hlatch : s.fatal with
  | true =>
    rw [exec_halted hlatch hi] at h
    cases h
    exact hs.of_same rfl rfl
  | false =>
    obtain ⟨u, hexec, hu⟩ := hrun hlatch
    cases hexec.symm.trans h
    exact hu

theorem exec_vmCreatePt_inDataModel (hs : s.InDataModel) (hnone : s.segEntry seg = 0#32)
    (haddr : preloadAddress 2 addr)
    (hfree : 0 < s32 addr → s.bm.cell (frameOf addr) = false ∧ s.bm.cell (frameOf addr + 1) = false)
    (h : exec (.vmCreatePt seg addr) s = .next t) : t.InDataModel := by
  refine exec_inDataModel_of_running hs (by simp) (fun hlatch => ?_) h
  have hzero : s32 (s.segEntry seg) ≤ 0 := (s32_eq_zero.mpr hnone).le
  by_cases hpos : 0 < s32 addr
  · have hle := (base_of_preloadAddress haddr hpos).2.2
    obtain ⟨b, hexec, hmark⟩ := exec_vmCreatePt_both (seg := seg) hlatch hpos (by rw [hs.bits_eq]; omega)
    exact ⟨_, hexec, hs.record_table hzero haddr hpos (by simpa using hfree hpos) (storedAt_write _ _ _) hmark⟩
  · have hneg := not_lt.mp hpos
    exact ⟨_, exec_vmCreatePt_unbacked hlatch hneg, hs.record_noTable hzero haddr hneg (storedAt_write _ _ _) rfl⟩

theorem exec_vmCreatePage_inDataModel (hs : s.InDataModel) (hbase : 0 < s32 (s.segEntry seg))
    (hnone : s.pageEntry seg page = 0#32) (haddr : preloadAddress 1 addr)
    (hfree : 0 < s32 addr → s.bm.cell (frameOf addr) = false)
    (h : exec (.vmCreatePage page seg addr) s = .next t) : t.InDataModel := by
  refine exec_inDataModel_of_running hs (by simp) (fun hlatch => ?_) h
  have hzero : s32 (s.pageEntry seg page) ≤ 0 := (s32_eq_zero.mpr hnone).le
  have hi := (hs.pageIndex_bounds hbase page).2
  by_cases hpos : 0 < s32 addr
  · have hle := (base_of_preloadAddress haddr hpos).2.2
    obtain ⟨b, hexec, hmark⟩ := exec_vmCreatePage_marks hlatch hi hpos (by rw [hs.bits_eq]; omega)
    exact ⟨_, hexec, hs.record_page hbase hzero haddr hpos (hfree hpos) (storedAt_write _ _ _) hmark⟩
  · have hneg := not_lt.mp hpos
    exact ⟨_, exec_vmCreatePage_unbacked hlatch hi hneg,
      hs.record_noPage hbase hzero haddr hneg (storedAt_write _ _ _) rfl⟩

end

/-- Settles O59: a base gives its free frames an owner, and −1 or 0 leaves every frame its owner. -/
theorem wellFormedPreloadKeepsDataModel : Obligations.WellFormedPreloadKeepsDataModel := fun _ _ hs =>
  ⟨fun _ _ hnone haddr hfree h => exec_vmCreatePt_inDataModel hs hnone haddr hfree h,
    fun _ _ _ hbase hnone haddr hfree h => exec_vmCreatePage_inDataModel hs hbase hnone haddr hfree h⟩

/-! ## The reset values (R220 to R224, R226) -/

/-- Settles O53: the two commands rebuild PM, the bitmap and the entry file at their sizes; the latch is clear. -/
theorem clearAndTlbResetIsReset : Obligations.ClearAndTlbResetIsReset := by
  unfold Obligations.ClearAndTlbResetIsReset
  intro s t u hlatch hfcode hclear hreset
  cases (exec_vmClear hlatch).symm.trans hclear
  cases (exec_tlbReset (by exact hlatch)).symm.trans hreset
  rw [State.resetWith, ← hlatch, ← hfcode]
  rfl

/-- Settles O51, field by field. -/
theorem resetValues : Obligations.ResetValues := by
  unfold Obligations.ResetValues
  exact fun c => ⟨Memory.read_cleared, Bitmap.length_fresh _, Bitmap.cell_fresh _, Tlb.length_fresh _,
    fun i hi => (Tlb.getElem?_fresh _ i).trans (if_pos hi), rfl, rfl⟩

/-- Settles O54: the base case of the invariant of every reachable state. -/
theorem invariantAtReset : Obligations.InvariantAtReset := fun _ => State.inv_resetWith

/-- Settles O57: at reset there is no table and no page. -/
theorem dataModelAtReset : Obligations.DataModelAtReset :=
  inDataModel_of_cleared rfl (Bitmap.length_fresh _) (Bitmap.cell_fresh _)

end Sys2Proof.Machine
end

section
/-! The words of the test vectors (95_test_vectors.md). A listing gives a command, and the encoder writes its word by the
fields of its format; that the decoder reads the word back is the round trip. -/

namespace Sys2Proof.Machine

/-- Settles O5: each word is the encoding of its listing's command, so the decoder reads that command from it. The
conjuncts stand in the order of the opcodes, formats V, B, K and V. -/
theorem specWordsAreRead : Obligations.SpecWordsAreRead := by
  unfold Obligations.SpecWordsAreRead
  refine ⟨?vaDecode, ?bmSet, ?tlbDoHit, ?tlbDoMiss, ?vmCreatePage, ?vmGetPt, ?vmRead, ?vmWrite⟩
  all_goals rw [decode_eq_command]
  case vaDecode | vmRead | vmWrite => rw [encode, formatV]; rfl
  case bmSet => rw [encode, formatB]; rfl
  case tlbDoHit | tlbDoMiss | vmCreatePage | vmGetPt => rw [encode, formatK]; rfl

end Sys2Proof.Machine
end
